-- ==== Sys2Proof/Word.lean ====
section
/-! DEFINITION. The word types of the spec (00_scope.md R13, R14) and nothing else. -/

namespace Sys2Proof

/-- `bits8`: a sample, a share, a map byte, a payload byte (R12, R145). -/
abbrev Byte := BitVec 8

/-- `bits32`: a register, a command word, a PRNG32 value (R13). -/
abbrev Word := BitVec 32

/-- `bits64`: the permutation key (R12, R33). -/
abbrev Key := BitVec 64

end Sys2Proof
end

