-- ==== Sys2Proof/Syntax.lean ====
section
/-! DEFINITION. The commands: one constructor per row of spec/opcode_table.json (30_encoding.md R101).
Commands carry no immediates: every operand is a register (R104), so no constructor has an argument. -/

namespace Sys2Proof

/-- The ten commands of MIE-CMD 1.0 (R101), in the table's order. -/
inductive Instr where
  /-- NOP (44_control.md R215). -/
  | nop
  /-- PREDICT (40_block_codec.md R158). -/
  | predict
  /-- BLK_EMBED (40_block_codec.md R156). -/
  | blkEmbed
  /-- BLK_EXTRACT (40_block_codec.md R157). -/
  | blkExtract
  /-- EMBED (41_driver.md R172). -/
  | embed
  /-- EXTRACT (41_driver.md R175). -/
  | extract
  /-- SPLIT (42_split_combine.md R190). -/
  | split
  /-- COMBINE (42_split_combine.md R193). -/
  | combine
  /-- SHUFFLE (43_permutation.md R202). -/
  | shuffle
  /-- UNSHUFFLE (43_permutation.md R204). -/
  | unshuffle
  deriving DecidableEq, Repr

end Sys2Proof
end

