-- ==== Sys2Proof/WellFormed.lean ====
section
/-! DEFINITION. What makes a raw command word and a raw side-information byte well-formed. An `Instr` has no
operand field that could be ill-formed (30_encoding.md R104), so the checks are on the raw forms. -/

namespace Sys2Proof

/-- The format CMD32 of a command word (R100): OPC in bits 7:0, RSV in bits 31:8. -/
structure Cmd32 where
  opc : BitVec 8
  rsv : BitVec 24
  deriving DecidableEq, Repr

/-- RSV is "reserved, must be 0" (R100). -/
def Cmd32.reservedClear (c : Cmd32) : Bool := c.rsv == 0

/-- OPC is one of the table of R101, and not in the reserved space of R103. -/
def Cmd32.opcodeAssigned (c : Cmd32) : Bool :=
  [0x00, 0x01, 0x02, 0x03, 0x10, 0x11, 0x20, 0x21, 0x30, 0x31].contains c.opc.toNat

/-- A word selects a command iff RSV = 0 and OPC is in the table (R101). -/
def Cmd32.wf (c : Cmd32) : Bool := c.reservedClear && c.opcodeAssigned

/-- A side-information byte that says INUSE = 1 must name an EP index 0..4 in COUNT_EP (R112); with INUSE = 0 the
other fields are ignored. -/
def mapByteWf (m : Byte) : Bool :=
  m.extractLsb' 0 1 == 0 || decide ((m.extractLsb' 2 3).toNat ≤ 4)

end Sys2Proof
end

