-- ==== Sys2Proof/Decode.lean ====
section
/-! DEFINITION. Decoding a command word (30_encoding.md R100-R103), total on every 32-bit word, and the encoder. -/

namespace Sys2Proof

/-- Why a word is no command (R102): each is completed with ILLEGAL_COMMAND by the engine, never refused. -/
inductive DecodeError where
  /-- RSV ≠ 0 (R103) -/
  | reservedNonzero
  /-- RSV = 0 and OPC is not in the table of R101 -/
  | unknownOpcode
  deriving DecidableEq, Repr

/-- The fields of a command word (R100). -/
def Cmd32.ofWord (w : Word) : Cmd32 := { opc := w.extractLsb' 0 8, rsv := w.extractLsb' 8 24 }

/-- The word of a format CMD32 (R100). -/
def Cmd32.toWord (c : Cmd32) : Word := c.rsv ++ c.opc

/-- The opcode map, read from OPC to command (R101). -/
def opcodeCommand (opc : BitVec 8) : Option Instr :=
  match opc.toNat with
  | 0x00 => some .nop
  | 0x01 => some .predict
  | 0x02 => some .blkEmbed
  | 0x03 => some .blkExtract
  | 0x10 => some .embed
  | 0x11 => some .extract
  | 0x20 => some .split
  | 0x21 => some .combine
  | 0x30 => some .shuffle
  | 0x31 => some .unshuffle
  | _ => none

/-- Decoding is total (R102): a word selects a command, or says by name why it is illegal. -/
def decode (w : Word) : Except DecodeError Instr :=
  let c := Cmd32.ofWord w
  if c.reservedClear then
    match opcodeCommand c.opc with
    | some i => .ok i
    | none => .error .unknownOpcode
  else .error .reservedNonzero

/-- The opcode map, read from command to OPC (R101). -/
def opcodeOf : Instr → BitVec 8
  | .nop => 0x00#8
  | .predict => 0x01#8
  | .blkEmbed => 0x02#8
  | .blkExtract => 0x03#8
  | .embed => 0x10#8
  | .extract => 0x11#8
  | .split => 0x20#8
  | .combine => 0x21#8
  | .shuffle => 0x30#8
  | .unshuffle => 0x31#8

/-- The word of a command is `zext_32(OPC)` (R101). -/
def encode (i : Instr) : Word := Cmd32.toWord { opc := opcodeOf i, rsv := 0#24 }

/-- The instruction this decoder reads from a table row's `nbits` bits `w`: every bit above them is 0. A command is one
32-bit word written to CMD whole (R100), so its bits are numbered as the table numbers them. -/
def decodeTableWord (nbits w : Nat) : Option Instr :=
  (decode (BitVec.ofNat 32 (w % 2 ^ nbits))).toOption

end Sys2Proof
end

