-- ==== Sys2Proof/Config.lean ====
section
/-! DEFINITION. The implementation parameters of 00_scope.md (R6-R11): a `Config` is one choice of all of them and
every operation takes it as an argument; `Config.machine` is the machine's own, in which each OPEN parameter is a
constant without a body, so that nothing proved about the machine rests on a value of it. -/

namespace Sys2Proof

/-- EP_GUARD_SCOPE (R8): which samples the overflow guard examines. -/
inductive GuardScope where
  /-- the 10 EP samples of both planes -/
  | both
  /-- the 5 EP samples of image 1 -/
  | img1
  deriving DecidableEq, Repr

/-- SPLIT_PARTITION (R9): how a random byte becomes the first share's component. -/
inductive SplitPartition where
  /-- MOD: the remainder by the component plus one -/
  | modulo
  /-- AND: the bitwise conjunction with the component -/
  | conj
  deriving DecidableEq, Repr

/-- One choice of the parameters (R42: configuration, not state). -/
structure Config where
  /-- BUF_BYTES (R6) -/
  bufBytes : Nat
  /-- EP_GUARD_SCOPE (R8) -/
  guardScope : GuardScope
  /-- SPLIT_PARTITION (R9) -/
  splitPartition : SplitPartition
  /-- PRNG32 (R10): the k-th value after seeding with the key -/
  prng32 : Key → Nat → Word
  /-- RNG8 (R11): the byte the n-th request ever made returns -/
  rng8 : Nat → Byte
  /-- the n-th unspecified byte that a host read returns (93_implementation_defined.md U1) -/
  hostByte : Nat → Byte
  /-- REG_BASE (R7) -/
  regBase : Nat
  /-- BUF_BASE (R7) -/
  bufBase : Nat
  /-- IRQ_LINE (60_exceptions.md R245): the line of the host's interrupt controller that `irq` drives -/
  irqLine : Nat
  /-- HOST_BUF_CACHEABLE (20_memory.md R94): whether the host caches the BUF window; no rule of the block depends on it -/
  hostBufCacheable : Bool

/-- BUF_BYTES is an integer with 64 ≤ BUF_BYTES ≤ 2^32 (R6). -/
def Config.wf (P : Config) : Bool := decide (64 ≤ P.bufBytes) && decide (P.bufBytes ≤ 2 ^ 32)

/-- OPEN (R6): how many bytes BUF has beyond the 64 it has at least, if the platform says so; see `Config.bufSize`. -/
opaque Config.openBufExtra : Option Nat
/-- OPEN (R10): the external generator, of which nothing is assumed beyond being a function. -/
opaque Config.openPrng32 : Key → Nat → Word
/-- OPEN (R11): the external random source, a free byte per request. -/
opaque Config.openRng8 : Nat → Byte
/-- OPEN (U1): what a host read of an unwritten byte returns. -/
opaque Config.openHostByte : Nat → Byte
/-- OPEN (R7): platform placement of the register window. -/
opaque Config.openRegBase : Nat
/-- OPEN (R7): platform placement of BUF. -/
opaque Config.openBufBase : Nat

/-- OPEN (60_exceptions.md R245): the routing of the interrupt output. -/
opaque Config.openIrqLine : Nat

/-- BUF_BYTES of the machine: any value R6 allows, and no other (log 1). Where the platform says nothing it is 256, the
size that the programs of 95_test_vectors.md ask for; a number of extra bytes beyond R6's bound is cut to the bound. -/
def Config.bufSize : Nat :=
  (match Config.openBufExtra with
   | some n => min n (2 ^ 32 - 64)
   | none => 192) + 64

/-- The machine's parameters: the spec's values of R8 and R9, the default of 20_memory.md R94 (BUF is mapped uncached),
and every other OPEN parameter left open. -/
def Config.machine : Config where
  bufBytes := Config.bufSize
  guardScope := .both
  splitPartition := .modulo
  prng32 := Config.openPrng32
  rng8 := Config.openRng8
  hostByte := Config.openHostByte
  regBase := Config.openRegBase
  bufBase := Config.openBufBase
  irqLine := Config.openIrqLine
  hostBufCacheable := false

end Sys2Proof
end

