-- ==== Sys2Proof/Machine/State.lean ====
section
/-! DEFINITION. The state of the MIE block as plain data (10_state.md R42), the types its fields need, the reasons a
step can stop, and the state after hard reset (R43). -/

namespace Sys2Proof.Machine

/-- The 29 registers of the register map (10_state.md R22), in the order of their offsets. -/
inductive RegName where
  | id | ctrl | cmd | status
  | width | height | p1Base | p2Base | srcBase | len | mapBase | mapLen | dstBase | dstCap
  | outBits | bitCursor | bitTotal | blkX | blkY | mapByte | keyLo | keyHi
  | predMe1 | predFlags | predDhsb0 | predDhsb1 | predDhsb2 | predDhsb3 | predDhsb4
  deriving DecidableEq, Repr

/-- Access kinds of a register (R23); `mixed` is STATUS and CTRL, whose fields differ (R24, R26-R29). -/
inductive AccessKind where
  | rw | ro | wo | mixed
  deriving DecidableEq, Repr

/-- Error codes of STATUS.ERR (60_exceptions.md R230), by name. -/
inductive ErrCode where
  | ok | capacityExceeded | mapTooLarge | mapLengthMismatch
  | illegalCommand | geometry | length | range | overlap | mapField | outCapacity
  deriving DecidableEq, Repr

/-- The engine phase (R37): idle, or busy with an accepted command word. -/
inductive Phase where
  | idle
  | busy (c : Word)
  deriving DecidableEq, Repr

/-- Widths of a host bus access: 1, 2 or 4 bytes (20_memory.md R71). -/
inductive Width where
  | byte | half | word
  deriving DecidableEq, Repr

/-- One host bus access. A register access names the byte offset in the 256-byte window, a BUF access the byte offset
in BUF (20_memory.md R70); the platform's REG_BASE and BUF_BASE only place the two (log 18). -/
inductive BusAccess where
  | regRead (w : Width) (off : BitVec 8)
  | regWrite (w : Width) (off : BitVec 8) (v : Word)
  | bufRead (w : Width) (a : Nat)
  | bufWrite (w : Width) (a : Nat) (v : Word)
  deriving DecidableEq, Repr

/-- What happens next outside or at the engine, in the total order of 70_reset_and_hazards.md R285. -/
inductive Input where
  /-- the host makes one bus access -/
  | access (a : BusAccess)
  /-- the host waits: reads STATUS until BUSY = 0 (30_encoding.md R120, WAIT) -/
  | poll
  /-- the engine takes its turn: completes an accepted command (R285) -/
  | engine
  /-- `rst` is asserted (R270) -/
  | hardReset
  deriving DecidableEq, Repr

/-- The bus response to a host access (20_memory.md R71, R74; 10_state.md R23). -/
inductive Response where
  /-- a read returned this value, zero-extended -/
  | data (v : Word)
  /-- a write was taken by the bus -/
  | ok
  /-- "a bus error response", no effect -/
  | busError
  deriving DecidableEq, Repr

/-- The stored operand and result registers of R22 with their widths (R42). ID and CMD hold nothing; CTRL and STATUS
are `State.irqEn`, `State.done`, `State.ovr`, `State.err` and the phase. -/
structure Regs where
  width     : Word
  height    : Word
  p1Base    : Word
  p2Base    : Word
  srcBase   : Word
  len       : Word
  mapBase   : Word
  mapLen    : Word
  dstBase   : Word
  dstCap    : Word
  outBits   : Word
  bitCursor : Word
  bitTotal  : Word
  blkX      : Word
  blkY      : Word
  /-- MAPBYTE: 8 stored bits (R33) -/
  mapByte   : Byte
  keyLo     : Word
  keyHi     : Word
  predMe1   : Word
  /-- PRED_FLAGS bit 0, GUARD (R33) -/
  predGuard : Bool
  predDhsb0 : Word
  predDhsb1 : Word
  predDhsb2 : Word
  predDhsb3 : Word
  predDhsb4 : Word
  deriving DecidableEq, Repr

/-- BUF with its written marks (R35, R36): an address is listed exactly when its mark is set, with the byte it holds.
An unlisted address reads as nothing (log 6). -/
abbrev Memory := List Host.Cell

/-- The canonical form of a memory: addresses strictly rising. No listed entry can equal what an unlisted address
reads as, for that is no byte at all. -/
abbrev Memory.wf (m : Memory) : Prop := m.Pairwise (fun x y => x.1 < y.1)

/-- The state of the block (R42), and below it the model's own fields. -/
structure State where
  /-- the engine phase (R37), visible as STATUS.BUSY (R26) -/
  phase   : Phase
  /-- CTRL.IRQ_EN (R24) -/
  irqEn   : Bool
  /-- STATUS.DONE (R27) -/
  done    : Bool
  /-- STATUS.OVR (R28) -/
  ovr     : Bool
  /-- STATUS.ERR (R29) -/
  err     : BitVec 8
  /-- the operand and result registers (R31-R33) -/
  regs    : Regs
  /-- BUF (R35, R36) -/
  mem     : Memory
  /-- the model's own: what happens next, oldest first (R285, log 9) -/
  inputs  : List Input
  /-- the model's own: the response to the host's last access (log 11) -/
  resp    : Option Response
  /-- the model's own: RNG8 draws taken so far (R11, log 4) -/
  rng8Pos : Nat
  /-- the model's own: unspecified bytes returned to the host so far (U1, log 5) -/
  freePos : Nat
  deriving DecidableEq, Repr

/-- Why the machine stops with a fault. -/
inductive Fault where
  /-- The engine reads a BUF byte whose written mark is clear (20_memory.md R86: "a model faults at that read").
  Raised by `memRead`. Safe: the hardware goes on with an unspecified byte. -/
  | unwrittenRead (a : Nat)
  /-- The engine would access an address outside BUF (20_memory.md R72: it accesses only validated regions). Raised by
  `memRead` and `memWrite`. Safe: the checks of R81 come first, so no command reaches it (log 7). -/
  | outsideBuf (a : Nat)
  /-- The host accesses BUF while STATUS.BUSY = 1 (20_memory.md R71, 70_reset_and_hazards.md R280: "a model faults on
  it"). Raised by `bufAccess`. Safe: the hardware result is unspecified. -/
  | bufAccessWhileBusy (a : Nat)
  deriving DecidableEq, Repr

/-- Why a step has no meaning. Only `exec`'s arms of instructions without a meaning raise one, and there is none. -/
inductive Refusal where
  /-- An instruction without a meaning, rejected by its mnemonic in `exec`. Safe: nothing is said of it. -/
  | notModelled (mnemonic : String)
  deriving DecidableEq, Repr

/-- The reset value of every operand and result register is 0 (R43). -/
def Regs.reset : Regs where
  width := 0
  height := 0
  p1Base := 0
  p2Base := 0
  srcBase := 0
  len := 0
  mapBase := 0
  mapLen := 0
  dstBase := 0
  dstCap := 0
  outBits := 0
  bitCursor := 0
  bitTotal := 0
  blkX := 0
  blkY := 0
  mapByte := 0
  keyLo := 0
  keyHi := 0
  predMe1 := 0
  predGuard := false
  predDhsb0 := 0
  predDhsb1 := 0
  predDhsb2 := 0
  predDhsb3 := 0
  predDhsb4 := 0

/-- The machine after hard reset (R43, 70_reset_and_hazards.md R270, R271); the model's own fields start empty or at 0
(DESIGN CHOICE, logs 4, 5, 9, 11). -/
def State.reset : State where
  phase := .idle
  irqEn := false
  done := false
  ovr := false
  err := 0
  regs := Regs.reset
  mem := []
  inputs := []
  resp := none
  rng8Pos := 0
  freePos := 0

end Sys2Proof.Machine
end

