-- ==== Sys2Proof/Machine/Flags.lean ====
section
/-! DEFINITION. The flags: BUSY, DONE, OVR and ERR of STATUS, IRQ_EN of CTRL, GUARD of PRED_FLAGS (10_state.md
R24-R30), the error codes (60_exceptions.md R230) and the interrupt line (R245). -/

namespace Sys2Proof.Machine

/-- The 8-bit code of each error (R230). -/
def ErrCode.code : ErrCode → BitVec 8
  | .ok => 0x00
  | .capacityExceeded => 0x01
  | .mapTooLarge => 0x02
  | .mapLengthMismatch => 0x03
  | .illegalCommand => 0x10
  | .geometry => 0x11
  | .length => 0x12
  | .range => 0x13
  | .overlap => 0x14
  | .mapField => 0x15
  | .outCapacity => 0x16

/-- Every error kind (R230), in the order of the codes. -/
def errCodes : List ErrCode :=
  [.ok, .capacityExceeded, .mapTooLarge, .mapLengthMismatch, .illegalCommand, .geometry, .length, .range,
   .overlap, .mapField, .outCapacity]

/-- STATUS.BUSY is 1 from acceptance to completion (R26): the phase made visible (R37). -/
def State.busy (s : State) : Bool :=
  match s.phase with
  | .idle => false
  | .busy _ => true

/-- STATUS as it reads: BUSY bit 0, DONE bit 1, OVR bit 2, ERR bits 15:8, the rest 0 (R26-R29). -/
def statusWord (s : State) : Word :=
  0#16 ++ s.err ++ 0#5 ++ BitVec.ofBool s.ovr ++ BitVec.ofBool s.done ++ BitVec.ofBool s.busy

/-- CTRL as it reads: IRQ_EN bit 0, SRST and the reserved bits 0 (R24). -/
def ctrlWord (s : State) : Word := 0#31 ++ BitVec.ofBool s.irqEn

/-- PRED_FLAGS as it reads: GUARD bit 0, the rest 0 (R33). -/
def predFlagsWord (r : Regs) : Word := 0#31 ++ BitVec.ofBool r.predGuard

/-- A host write to STATUS: a 1 in bit 1 clears DONE, a 1 in bit 2 clears OVR, every other bit does nothing
(R23, R27-R29). -/
def statusWrite (s : State) (v : Word) : State :=
  { s with done := s.done && !v.getLsbD 1, ovr := s.ovr && !v.getLsbD 2 }

/-- The sticky overrun flag is set (R28). -/
def setOvr (s : State) : State := { s with ovr := true }

/-- The interrupt line: "a level signal equal to STATUS.DONE AND CTRL.IRQ_EN at every instant" (R41, R245). -/
def irq (s : State) : Bool := s.done && s.irqEn

/-- The lines of the host's interrupt controller as the block drives them: `irq` on the line IRQ_LINE (R245, log 18). -/
def hostIrqLine (P : Config) (s : State) (n : Nat) : Bool := irq s && n == P.irqLine

end Sys2Proof.Machine
end

