-- ==== Sys2Proof/Machine/Ops.lean ====
section
/-! DEFINITION. The shared operations: one byte of BUF, the engine's access to it (20_memory.md R72, R86), the bit
streams (R84, R85), moving chunks (43_permutation.md R202, R204), the acceptance and the completion of a command
(60_exceptions.md R232, R236: the block has no exception entry, an error is reported at completion, R239), and the two
resets (44_control.md R217, 70_reset_and_hazards.md R270). -/

namespace Sys2Proof.Machine

/-- The byte an address holds, or none where its written mark is clear (10_state.md R36). -/
def Memory.read? : Memory → Nat → Option Byte
  | [], _ => none
  | (b, v) :: m, a => if a = b then some v else Memory.read? m a

/-- Writing a byte sets its mark and keeps the addresses rising. -/
def Memory.write : Memory → Nat → Byte → Memory
  | [], a, v => [(a, v)]
  | (b, w) :: m, a, v =>
    if a < b then (a, v) :: (b, w) :: m
    else if a = b then (a, v) :: m
    else (b, w) :: Memory.write m a v

/-- `MemRead(a, 1)` by the engine (R72): an unwritten byte is a fault (R86). -/
def memRead (P : Config) (m : Memory) (a : Nat) : Except Fault Byte :=
  if a < P.bufBytes then
    match m.read? a with
    | some v => .ok v
    | none => .error (.unwrittenRead a)
  else .error (.outsideBuf a)

/-- `MemWrite(a, 1, v)` by the engine (R72). -/
def memWrite (P : Config) (m : Memory) (a : Nat) (v : Byte) : Except Fault Memory :=
  if a < P.bufBytes then .ok (m.write a v) else .error (.outsideBuf a)

/-- The bytes at `n` addresses, read in index order. -/
def readEach (P : Config) (m : Memory) : (n : Nat) → (Fin n → Nat) → Except Fault (Fin n → Byte)
  | 0, _ => .ok (fun i => i.elim0)
  | n + 1, addr =>
    match memRead P m (addr 0) with
    | .error f => .error f
    | .ok b =>
      match readEach P m n (fun i => addr i.succ) with
      | .error f => .error f
      | .ok bs => .ok (Fin.cons b bs)

/-- `PayloadBit(j)` (R84): bit j mod 8 of the byte at SRC_BASE + j div 8. -/
def payloadBit (P : Config) (m : Memory) (src j : Nat) : Except Fault Bool := do
  let b ← memRead P m (src + j / 8)
  .ok (b.getLsbD (j % 8))

/-- `WriteBit(j, b)` (R85): read-modify-write of bit j mod 8 of the byte at DST_BASE + j div 8. -/
def writeBit (P : Config) (m : Memory) (dst j : Nat) (b : Bool) : Except Fault Memory := do
  let t ← memRead P m (dst + j / 8)
  memWrite P m (dst + j / 8)
    ((t &&& ~~~(1#8 <<< (j % 8))) ||| (BitVec.zeroExtend 8 (BitVec.ofBool b) <<< (j % 8)))

/-- Zeros in `n` bytes from address `a` on (41_driver.md R176). -/
def zeroFill (P : Config) : (n a : Nat) → Memory → Except Fault Memory
  | 0, _, m => .ok m
  | n + 1, a, m => do
    let m' ← memWrite P m a 0
    zeroFill P n (a + 1) m'

/-- `n` bytes from address `src` of `m0` are written from address `dst` on. -/
def copyBytes (P : Config) (m0 : Memory) : (n src dst : Nat) → Memory → Except Fault Memory
  | 0, _, _, m => .ok m
  | n + 1, src, dst, m => do
    let v ← memRead P m0 src
    let m' ← memWrite P m dst v
    copyBytes P m0 n (src + 1) (dst + 1) m'

/-- For each pair (d, s) in turn, the 8-byte chunk d of the plane at `base` becomes the chunk s that the plane held in
`m0`, its contents before the command (43_permutation.md R202, R204). -/
def moveChunks (P : Config) (m0 : Memory) (base : Nat) : List (Nat × Nat) → Memory → Except Fault Memory
  | [], m => .ok m
  | (d, s) :: rest, m => do
    let m' ← copyBytes P m0 8 (base + 8 * s) (base + 8 * d) m
    moveChunks P m0 base rest m'

/-- Acceptance of command word `c` (60_exceptions.md R232): OVR is unchanged. -/
def accept (s : State) (c : Word) : State :=
  { s with phase := .busy c, done := false, err := ErrCode.ok.code }

/-- Completion with code `e` (R236): normally with OK, or by `raise Error(e)`. -/
def complete (s : State) (e : ErrCode) : State :=
  { s with phase := .idle, done := true, err := e.code }

/-- An illegal word "completes with ERR = ILLEGAL_COMMAND and no other effect" (44_control.md R216). -/
def completeIllegal (s : State) : State := complete s .illegalCommand

/-- The outcome of a command's execution: completion with the code it ends with, or the model's fault. -/
def finish : Except Fault (State × ErrCode) → Host.Outcome State Fault Refusal
  | .ok (s, e) => .next (complete s e)
  | .error f => .fault f

/-- Soft reset (44_control.md R217): every register to its reset value; BUF and its marks stay; not a command, so
DONE is not set. It acts only while BUSY = 0. -/
def softReset (s : State) : State :=
  { s with phase := .idle, irqEn := false, done := false, ovr := false, err := 0, regs := Regs.reset }

/-- Hard reset (70_reset_and_hazards.md R270): as soft reset, and every written mark is cleared, for a command in
progress is abandoned with its writes unspecified. What the world outside does next is not the block's (log 17). -/
def hardReset (s : State) : State := { softReset s with mem := [] }

end Sys2Proof.Machine
end

