-- ==== Sys2Proof/Machine/Operands.lean ====
section
/-! DEFINITION. The operands of the commands: plane geometry and block coordinates, the key, the side-information byte,
the regions of each command (20_memory.md R80-R83), and the checks of a command in their order (60_exceptions.md
R230, R233, R234). Operands are unsigned integers without wrap (30_encoding.md R105). -/

namespace Sys2Proof.Machine

/-- `ceildiv(n, d)` (00_scope.md R15). -/
def ceilDiv (n d : Nat) : Nat := (n + d - 1) / d

/-- The plane operands of the block functions (R80): the two base addresses and the width. -/
structure Planes where
  p1 : Nat
  p2 : Nat
  w  : Nat
  deriving DecidableEq, Repr

/-- The planes that P1_BASE, P2_BASE and WIDTH name. -/
def planesOf (r : Regs) : Planes := { p1 := r.p1Base.toNat, p2 := r.p2Base.toNat, w := r.width.toNat }

/-- The BUF address of position p of the block at (x, y) in the plane at `base` of width `w` (40_block_codec.md R130):
position p is row p div 3 and column p mod 3 of the block. -/
def sampleAddr (base w x y : Nat) (p : Fin 9) : Nat := base + (y + p.val / 3) * w + x + p.val % 3

/-- A plane has W·H bytes (R80). -/
def planeBytes (r : Regs) : Nat := r.width.toNat * r.height.toNat

/-- nb = (W/3)·(H/3) (41_driver.md R171). -/
def blockCount (r : Regs) : Nat := (r.width.toNat / 3) * (r.height.toNat / 3)

/-- The column of the k-th visited block, with `hb` blocks in a column of blocks (R170: column-major). -/
def blockX (hb k : Nat) : Nat := 3 * (k / hb)

/-- The row of the k-th visited block (R170). -/
def blockY (hb k : Nat) : Nat := 3 * (k % hb)

/-- `KEY = KEY_HI : KEY_LO` (10_state.md R33). -/
def keyOf (r : Regs) : Key := r.keyHi ++ r.keyLo

/-- `sext_32` of a signed result (30_encoding.md R105). -/
def signedWord (v : Int) : Word := BitVec.ofInt 32 v

/-- `Pack(inuse, rdu, count)` (R111). -/
def packMap (inuse rdu : Bool) (count : Nat) : Byte :=
  (BitVec.ofBool inuse).zeroExtend 8 ||| ((BitVec.ofBool rdu).zeroExtend 8 <<< 1) ||| (BitVec.ofNat 8 count <<< 2)

/-- INUSE = m[0] (R112). -/
def mapInUse (m : Byte) : Bool := m.getLsbD 0

/-- RDU_EP = m[1] (R112). -/
def mapRdu (m : Byte) : Bool := m.getLsbD 1

/-- COUNT_EP = m[4:2] (R112). -/
def mapCount (m : Byte) : Nat := (m.extractLsb' 2 3).toNat

/-- A malformed byte: INUSE = 1 and COUNT_EP in 5..7 (R112). -/
def mapMalformed (m : Byte) : Bool := !mapByteWf m

/-- A region (base, len) of BUF and whether the command writes it (20_memory.md R81, R83: access W or RW). -/
structure Region where
  base   : Nat
  len    : Nat
  writes : Bool
  deriving DecidableEq, Repr

/-- In range iff len = 0 or base + len ≤ BUF_BYTES (R81). -/
def Region.inRange (P : Config) (r : Region) : Bool := r.len == 0 || decide (r.base + r.len ≤ P.bufBytes)

/-- Two regions overlap (R82). -/
def Region.overlaps (r q : Region) : Bool :=
  decide (0 < r.len) && decide (0 < q.len) && decide (r.base < q.base + q.len) && decide (q.base < r.base + r.len)

/-- Some written region overlaps another region of the same command (R82). -/
def anyOverlap : List Region → Bool
  | [] => false
  | r :: rs => rs.any (fun q => (r.writes || q.writes) && r.overlaps q) || anyOverlap rs

/-- The regions of each command (R83). -/
def regionsOf (i : Instr) (r : Regs) : List Region :=
  match i with
  | .nop => []
  | .predict =>
    [ { base := r.p1Base.toNat, len := planeBytes r, writes := false },
      { base := r.p2Base.toNat, len := planeBytes r, writes := false } ]
  | .blkEmbed =>
    [ { base := r.p1Base.toNat, len := planeBytes r, writes := true },
      { base := r.p2Base.toNat, len := planeBytes r, writes := false },
      { base := r.srcBase.toNat, len := ceilDiv r.bitTotal.toNat 8, writes := false } ]
  | .blkExtract =>
    [ { base := r.p1Base.toNat, len := planeBytes r, writes := true },
      { base := r.p2Base.toNat, len := planeBytes r, writes := false },
      { base := r.dstBase.toNat, len := r.dstCap.toNat, writes := true } ]
  | .embed =>
    [ { base := r.p1Base.toNat, len := planeBytes r, writes := true },
      { base := r.p2Base.toNat, len := planeBytes r, writes := false },
      { base := r.srcBase.toNat, len := r.len.toNat, writes := false },
      { base := r.mapBase.toNat, len := blockCount r, writes := true } ]
  | .extract =>
    [ { base := r.p1Base.toNat, len := planeBytes r, writes := true },
      { base := r.p2Base.toNat, len := planeBytes r, writes := false },
      { base := r.mapBase.toNat, len := r.mapLen.toNat, writes := false },
      { base := r.dstBase.toNat, len := r.dstCap.toNat, writes := true } ]
  | .split =>
    [ { base := r.srcBase.toNat, len := r.len.toNat, writes := false },
      { base := r.p1Base.toNat, len := r.len.toNat, writes := true },
      { base := r.p2Base.toNat, len := r.len.toNat, writes := true } ]
  | .combine =>
    [ { base := r.p1Base.toNat, len := r.len.toNat, writes := false },
      { base := r.p2Base.toNat, len := r.len.toNat, writes := false },
      { base := r.dstBase.toNat, len := r.len.toNat, writes := true } ]
  | .shuffle => [ { base := r.p1Base.toNat, len := r.len.toNat, writes := true } ]
  | .unshuffle => [ { base := r.p1Base.toNat, len := r.len.toNat, writes := true } ]

/-- Which checks apply to a command (R233). ILLEGAL_COMMAND applies to no decoded command; the codes that arise only
during execution (R237) are no checks. -/
def checkApplies (e : ErrCode) (i : Instr) : Bool :=
  match e with
  | .geometry => [Instr.predict, .blkEmbed, .blkExtract, .embed, .extract].contains i
  | .mapTooLarge => [Instr.extract].contains i
  | .length => [Instr.shuffle, .unshuffle].contains i
  | .outCapacity => [Instr.blkExtract, .extract].contains i
  | .range => !([Instr.nop].contains i)
  | .overlap => [Instr.blkEmbed, .blkExtract, .embed, .extract, .split, .combine].contains i
  | .mapField => [Instr.blkExtract, .extract].contains i
  | .ok | .capacityExceeded | .mapLengthMismatch | .illegalCommand => false

/-- The order of the checks (R234). -/
def checkOrder : List ErrCode :=
  [.illegalCommand, .geometry, .mapTooLarge, .length, .outCapacity, .range, .overlap, .mapField]

/-- GEOMETRY (R230): a size that is no multiple of 3, and for the block commands a block that leaves the plane. -/
def geometryFails (i : Instr) (r : Regs) : Bool :=
  r.width.toNat % 3 != 0 || r.height.toNat % 3 != 0 ||
  ([Instr.predict, .blkEmbed, .blkExtract].contains i &&
    (decide (r.width.toNat < r.blkX.toNat + 3) || decide (r.height.toNat < r.blkY.toNat + 3)))

/-- OUT_CAPACITY (R230): BLK_EXTRACT: BIT_CURSOR + 5 > 8·DST_CAP; EXTRACT: DST_CAP < ceildiv(5·MAP_LEN, 8). -/
def outCapacityFails (i : Instr) (r : Regs) : Bool :=
  match i with
  | .blkExtract => decide (8 * r.dstCap.toNat < r.bitCursor.toNat + 5)
  | .extract => decide (r.dstCap.toNat < ceilDiv (5 * r.mapLen.toNat) 8)
  | _ => false

/-- RANGE (R230): a region out of range, and for BLK_EMBED and BLK_EXTRACT BIT_CURSOR + 5 > 0xFFFFFFFF. -/
def rangeFails (P : Config) (i : Instr) (r : Regs) : Bool :=
  ([Instr.blkEmbed, .blkExtract].contains i && decide (0xFFFFFFFF < r.bitCursor.toNat + 5)) ||
  (regionsOf i r).any (fun q => !q.inRange P)

/-- Some of the `n` map bytes from address `a` on is malformed; they are read in order, up to the first malformed one
(R112, R235, log 14). -/
def mapFieldBad (P : Config) (m : Memory) : (n a : Nat) → Except Fault Bool
  | 0, _ => .ok false
  | n + 1, a => do
    let b ← memRead P m a
    if mapMalformed b then .ok true else mapFieldBad P m n (a + 1)

/-- Whether the check for `e` fails (R230). Only MAP_FIELD of EXTRACT reads BUF (R235). -/
def checkFails (P : Config) (i : Instr) (s : State) (e : ErrCode) : Except Fault Bool :=
  match e with
  | .geometry => .ok (geometryFails i s.regs)
  | .mapTooLarge => .ok (decide (blockCount s.regs < s.regs.mapLen.toNat))
  | .length => .ok (s.regs.len.toNat % 8 != 0)
  | .outCapacity => .ok (outCapacityFails i s.regs)
  | .range => .ok (rangeFails P i s.regs)
  | .overlap => .ok (anyOverlap (regionsOf i s.regs))
  | .mapField =>
    match i with
    | .extract => mapFieldBad P s.mem s.regs.mapLen.toNat s.regs.mapBase.toNat
    | _ => .ok (mapMalformed s.regs.mapByte)
  | .ok | .capacityExceeded | .mapLengthMismatch | .illegalCommand => .ok false

/-- The first check of `es`, in order, that applies and fails (R234). -/
def firstFailing (P : Config) (i : Instr) (s : State) : List ErrCode → Except Fault (Option ErrCode)
  | [] => .ok none
  | e :: es =>
    if checkApplies e i then do
      let bad ← checkFails P i s e
      if bad then .ok (some e) else firstFailing P i s es
    else firstFailing P i s es

/-- The error a command reports before it runs, if any (R234). -/
def firstError (P : Config) (i : Instr) (s : State) : Except Fault (Option ErrCode) :=
  firstFailing P i s checkOrder

/-- A command: its checks, and "only when all pass does the command's pseudocode run" (R234); then completion (R236).
A failed check has no other effect (R235). -/
def runCommand (P : Config) (i : Instr) (s : State) (body : Except Fault (State × ErrCode)) :
    Host.Outcome State Fault Refusal :=
  finish (do
    let bad ← firstError P i s
    match bad with
    | some e => .ok (s, e)
    | none => body)

end Sys2Proof.Machine
end

