-- ==== Sys2Proof/Machine/Bus.lean ====
section
/-! DEFINITION. The host's side: the register window (10_state.md R22-R34, 20_memory.md R74), the BUF window (R71,
R73, R75), and the responses. -/

namespace Sys2Proof.Machine

/-- Every register, in the order of the register map (R22). -/
def regNames : List RegName :=
  [.id, .ctrl, .cmd, .status, .width, .height, .p1Base, .p2Base, .srcBase, .len, .mapBase, .mapLen, .dstBase,
   .dstCap, .outBits, .bitCursor, .bitTotal, .blkX, .blkY, .mapByte, .keyLo, .keyHi, .predMe1, .predFlags,
   .predDhsb0, .predDhsb1, .predDhsb2, .predDhsb3, .predDhsb4]

/-- The offset of each register in the window (R22). -/
def regOffset : RegName → BitVec 8
  | .id => 0x00
  | .ctrl => 0x04
  | .cmd => 0x08
  | .status => 0x0C
  | .width => 0x10
  | .height => 0x14
  | .p1Base => 0x18
  | .p2Base => 0x1C
  | .srcBase => 0x20
  | .len => 0x24
  | .mapBase => 0x28
  | .mapLen => 0x2C
  | .dstBase => 0x30
  | .dstCap => 0x34
  | .outBits => 0x38
  | .bitCursor => 0x3C
  | .bitTotal => 0x40
  | .blkX => 0x44
  | .blkY => 0x48
  | .mapByte => 0x4C
  | .keyLo => 0x50
  | .keyHi => 0x54
  | .predMe1 => 0x58
  | .predFlags => 0x5C
  | .predDhsb0 => 0x60
  | .predDhsb1 => 0x64
  | .predDhsb2 => 0x68
  | .predDhsb3 => 0x6C
  | .predDhsb4 => 0x70

/-- The register at an offset; none for the reserved offsets 0x74-0xFC, which are RAZ/WI (R22). -/
def regAt (off : BitVec 8) : Option RegName := regNames.find? (fun r => regOffset r == off)

/-- The access kind of each register (R22, R23). -/
def accessKind : RegName → AccessKind
  | .id | .outBits | .predMe1 | .predFlags
  | .predDhsb0 | .predDhsb1 | .predDhsb2 | .predDhsb3 | .predDhsb4 => .ro
  | .cmd => .wo
  | .ctrl | .status => .mixed
  | .width | .height | .p1Base | .p2Base | .srcBase | .len | .mapBase | .mapLen | .dstBase | .dstCap
  | .bitCursor | .bitTotal | .blkX | .blkY | .mapByte | .keyLo | .keyHi => .rw

/-- What a host read of a register returns (R22, R23); reading has no side effect (20_memory.md R76). -/
def readReg (s : State) : RegName → Word
  | .id => 0x4D494507
  | .ctrl => ctrlWord s
  | .cmd => 0
  | .status => statusWord s
  | .width => s.regs.width
  | .height => s.regs.height
  | .p1Base => s.regs.p1Base
  | .p2Base => s.regs.p2Base
  | .srcBase => s.regs.srcBase
  | .len => s.regs.len
  | .mapBase => s.regs.mapBase
  | .mapLen => s.regs.mapLen
  | .dstBase => s.regs.dstBase
  | .dstCap => s.regs.dstCap
  | .outBits => s.regs.outBits
  | .bitCursor => s.regs.bitCursor
  | .bitTotal => s.regs.bitTotal
  | .blkX => s.regs.blkX
  | .blkY => s.regs.blkY
  | .mapByte => s.regs.mapByte.zeroExtend 32
  | .keyLo => s.regs.keyLo
  | .keyHi => s.regs.keyHi
  | .predMe1 => s.regs.predMe1
  | .predFlags => predFlagsWord s.regs
  | .predDhsb0 => s.regs.predDhsb0
  | .predDhsb1 => s.regs.predDhsb1
  | .predDhsb2 => s.regs.predDhsb2
  | .predDhsb3 => s.regs.predDhsb3
  | .predDhsb4 => s.regs.predDhsb4

/-- Storing a value into an RW register (R23); MAPBYTE keeps bits 7:0 only (R33). Nothing else is stored into. -/
def storeReg (r : Regs) (n : RegName) (v : Word) : Regs :=
  match n with
  | .width => { r with width := v }
  | .height => { r with height := v }
  | .p1Base => { r with p1Base := v }
  | .p2Base => { r with p2Base := v }
  | .srcBase => { r with srcBase := v }
  | .len => { r with len := v }
  | .mapBase => { r with mapBase := v }
  | .mapLen => { r with mapLen := v }
  | .dstBase => { r with dstBase := v }
  | .dstCap => { r with dstCap := v }
  | .bitCursor => { r with bitCursor := v }
  | .bitTotal => { r with bitTotal := v }
  | .blkX => { r with blkX := v }
  | .blkY => { r with blkY := v }
  | .mapByte => { r with mapByte := v.extractLsb' 0 8 }
  | .keyLo => { r with keyLo := v }
  | .keyHi => { r with keyHi := v }
  | .id | .ctrl | .cmd | .status | .outBits | .predMe1 | .predFlags
  | .predDhsb0 | .predDhsb1 | .predDhsb2 | .predDhsb3 | .predDhsb4 => r

/-- A host write to CTRL (R24, R34): with bit 1 set, a soft reset, or while BUSY nothing but OVR; else IRQ_EN. -/
def ctrlWrite (s : State) (v : Word) : State :=
  if v.getLsbD 1 then (if s.busy then setOvr s else softReset s)
  else { s with irqEn := v.getLsbD 0 }

/-- A host write to CMD (R25, R34): submits the word, or while BUSY is not accepted and sets OVR. -/
def cmdWrite (s : State) (v : Word) : State := if s.busy then setOvr s else accept s v

/-- A host write to an RW register (R23, R34): stored, or while BUSY ignored with OVR set. -/
def rwWrite (s : State) (n : RegName) (v : Word) : State :=
  if s.busy then setOvr s else { s with regs := storeReg s.regs n v }

/-- A host write to a register, by its access kind (R23). -/
def writeReg (s : State) (n : RegName) (v : Word) : State :=
  match n with
  | .cmd => cmdWrite s v
  | .ctrl => ctrlWrite s v
  | .status => statusWrite s v
  | n => match accessKind n with
    | .rw => rwWrite s n v
    | _ => s

/-- The number of bytes of an access. -/
def Width.bytes : Width → Nat
  | .byte => 1
  | .half => 2
  | .word => 4

/-- A register access is a 32-bit access at an offset that is a multiple of 4 (20_memory.md R74). -/
def regAccessOk (w : Width) (off : BitVec 8) : Bool :=
  (match w with
   | .word => true
   | _ => false) && (off.toNat % 4 == 0)

/-- A BUF access is naturally aligned and inside BUF (R71). -/
def bufAccessOk (P : Config) (w : Width) (a : Nat) : Bool :=
  (a % w.bytes == 0) && decide (a + w.bytes ≤ P.bufBytes)

/-- The value of `n` bytes from `a` on as the host reads them, byte `a` in bits 7:0 (R73), and the number of unspecified
bytes returned after it: an unwritten byte returns any value (U1). -/
def readLittle (P : Config) (m : Memory) : (n a free : Nat) → Word × Nat
  | 0, _, free => (0, free)
  | n + 1, a, free =>
    match m.read? a with
    | some b =>
      let (rest, free') := readLittle P m n (a + 1) free
      ((rest <<< 8) ||| b.zeroExtend 32, free')
    | none =>
      let (rest, free') := readLittle P m n (a + 1) (free + 1)
      ((rest <<< 8) ||| (P.hostByte free).zeroExtend 32, free')

/-- The `n` low bytes of `v` written from `a` on, bits 7:0 at `a` (R73). -/
def writeLittle : (n a : Nat) → Word → Memory → Memory
  | 0, _, _, m => m
  | n + 1, a, v, m => writeLittle n (a + 1) (v >>> 8) (m.write a (v.extractLsb' 0 8))

/-- The host's access is answered. -/
def respond (s : State) (r : Response) : State := { s with resp := some r }

/-- A host access to the register window (R74): a read of a reserved offset returns 0, a write to one is ignored. -/
def regAccessRead (s : State) (w : Width) (off : BitVec 8) : State :=
  if regAccessOk w off then
    respond s (.data (match regAt off with
      | some n => readReg s n
      | none => 0))
  else respond s .busError

/-- A host write to the register window (R74). -/
def regAccessWrite (s : State) (w : Width) (off : BitVec 8) (v : Word) : State :=
  if regAccessOk w off then
    respond (match regAt off with
      | some n => writeReg s n v
      | none => s) .ok
  else respond s .busError

/-- A host read of BUF (R71): a fault while BUSY (R280), else a bus error or the bytes. -/
def bufRead (P : Config) (s : State) (w : Width) (a : Nat) : Host.Outcome State Fault Refusal :=
  if s.busy then .fault (.bufAccessWhileBusy a)
  else if bufAccessOk P w a then
    let (v, free) := readLittle P s.mem w.bytes a s.freePos
    .next (respond { s with freePos := free } (.data v))
  else .next (respond s .busError)

/-- A host write of BUF (R71): a fault while BUSY (R280), else a bus error or the bytes written. -/
def bufWrite (P : Config) (s : State) (w : Width) (a : Nat) (v : Word) : Host.Outcome State Fault Refusal :=
  if s.busy then .fault (.bufAccessWhileBusy a)
  else if bufAccessOk P w a then
    .next (respond { s with mem := writeLittle w.bytes a v s.mem } .ok)
  else .next (respond s .busError)

/-- One host bus access (R70). -/
def hostAccess (P : Config) (s : State) : BusAccess → Host.Outcome State Fault Refusal
  | .regRead w off => .next (regAccessRead s w off)
  | .regWrite w off v => .next (regAccessWrite s w off v)
  | .bufRead w a => bufRead P s w a
  | .bufWrite w a v => bufWrite P s w a v

/-- The host address of an access: REG_BASE + offset or BUF_BASE + a (R70, 30_encoding.md R120). -/
def hostAddress (P : Config) : BusAccess → Nat
  | .regRead _ off => P.regBase + off.toNat
  | .regWrite _ off _ => P.regBase + off.toNat
  | .bufRead _ a => P.bufBase + a
  | .bufWrite _ a _ => P.bufBase + a

end Sys2Proof.Machine
end

