-- ==== Sys2Proof/Machine/BlockCodec.lean ====
section
/-! DEFINITION. The Block Codec (40_block_codec.md): the predictor of one 3×3 dual-plane block (R130-R139), embedding
and extraction (R140, R142), and the commands PREDICT, BLK_EMBED and BLK_EXTRACT (R156-R158). -/

namespace Sys2Proof.Machine

/-- `EPPOS = [1, 3, 4, 5, 7]`: the position of each embeddable pixel (R131). -/
def epPos : Fin 5 → Fin 9
  | 0 => 1
  | 1 => 3
  | 2 => 4
  | 3 => 5
  | 4 => 7

/-- `NB[i]`: the neighbour sample pixels of each EP (R132). -/
def epNeighbours : Fin 5 → List (Fin 9)
  | 0 => [0, 2]
  | 1 => [0, 6]
  | 2 => [0, 2, 6, 8]
  | 3 => [2, 8]
  | 4 => [6, 8]

/-- EP indices in index order (R140). -/
def epIndices : List (Fin 5) := [0, 1, 2, 3, 4]

/-- `HSB(v) = v >> 3` (R133). -/
def hsb (v : Byte) : Int := ((v >>> 3).toNat : Int)

/-- `N_i` of R134: k_i times the EP's HSB minus the sum of its neighbours' HSBs, over both planes. -/
def residualSum (a b : Fin 9 → Byte) (i : Fin 5) : Int :=
  ((epNeighbours i).length : Int) * (hsb (a (epPos i)) + hsb (b (epPos i)))
    - ((epNeighbours i).map (fun s => hsb (a s) + hsb (b s))).sum

/-- `dHSB[i] = floordiv(N_i, k_i)` (R134); integer division by a positive number rounds down here, as R15 asks. -/
def dHsb (a b : Fin 9 → Byte) (i : Fin 5) : Int :=
  residualSum a b i / ((epNeighbours i).length : Int)

/-- `cnt(v)` (R138): how many residuals equal v. -/
def residualCount (d : Fin 5 → Int) (v : Int) : Nat := (epIndices.filter (fun i => d i == v)).length

/-- Whether v beats u as the peak: it occurs more often, or as often and is larger (R138). -/
def beatsPeak (d : Fin 5 → Int) (u v : Int) : Bool :=
  decide (residualCount d u < residualCount d v) ||
    (residualCount d u == residualCount d v && decide (u < v))

/-- `Me1(d)` (R138): the mode of the five residuals, ties broken by the larger value. -/
def peak (d : Fin 5 → Int) : Int :=
  epIndices.foldl (fun best i => if beatsPeak d best (d i) then d i else best) (d 0)

/-- The histogram table after one peak computation's counting (R139, 10_state.md R38): 125 counters, cleared, then
counter d[i] + 62 raised for each i. The machine computes `peak`; the table is the engine's way (log 16). -/
def histogram (d : Fin 5 → Int) : List Nat :=
  epIndices.foldl (fun t i => t.modify (d i + 62).toNat (· + 1)) (List.replicate 125 0)

/-- The highest index with the largest count, over counters `k, k+1, …` (R139). -/
def highestLargest : List Nat → (k best bestCount : Nat) → Nat
  | [], _, best, _ => best
  | c :: cs, k, best, bestCount =>
    if bestCount ≤ c then highestLargest cs (k + 1) k c else highestLargest cs (k + 1) best bestCount

/-- The peak as the engine's histogram table gives it (R139). -/
def peakByHistogram (d : Fin 5 → Int) : Int := (highestLargest (histogram d) 0 0 0 : Int) - 62

/-- A sample exceeds 255 − 8 (R137). -/
def exceedsGuard (v : Byte) : Bool := decide (247 < v.toNat)

/-- `GuardRejects` on the samples of both planes (R137). -/
def guardHolds (scope : GuardScope) (a b : Fin 9 → Byte) : Bool :=
  match scope with
  | .both => epIndices.any (fun i => exceedsGuard (a (epPos i)) || exceedsGuard (b (epPos i)))
  | .img1 => epIndices.any (fun i => exceedsGuard (a (epPos i)))

/-- The nine samples of the block at (x, y) in the plane at `base` (R130). -/
def readBlock (P : Config) (m : Memory) (base w x y : Nat) : Except Fault (Fin 9 → Byte) :=
  readEach P m 9 (sampleAddr base w x y)

/-- The five EP samples of the block at (x, y) in the plane at `base` (R131). -/
def readEps (P : Config) (m : Memory) (base w x y : Nat) : Except Fault (Fin 5 → Byte) :=
  readEach P m 5 (fun i => sampleAddr base w x y (epPos i))

/-- `GuardRejects(block)` (R137): it reads the EP samples it examines and no others (log 15). -/
def guardRejects (P : Config) (m : Memory) (pl : Planes) (x y : Nat) : Except Fault Bool := do
  let a ← readEps P m pl.p1 pl.w x y
  match P.guardScope with
  | .img1 => .ok (epIndices.any (fun i => exceedsGuard (a i)))
  | .both => do
    let b ← readEps P m pl.p2 pl.w x y
    .ok (epIndices.any (fun i => exceedsGuard (a i) || exceedsGuard (b i)))

/-- What BlockEmbed carries from EP to EP (R140). -/
structure EmbedAcc where
  mem    : Memory
  cursor : Nat
  first  : Bool
  rdu    : Bool
  cnt    : Nat
  deriving DecidableEq, Repr

/-- The bit a peak EP embeds: the payload bit at the cursor, or the filler 0 once the payload is exhausted (R140,
R179). -/
def embedBit (P : Config) (m : Memory) (src cursor total : Nat) : Except Fault Bool :=
  if cursor < total then payloadBit P m src cursor else .ok false

/-- `if bit == 1: MemWrite(a, 1, v)` (R140). -/
def writeIf (P : Config) (m : Memory) (bit : Bool) (a : Nat) (v : Byte) : Except Fault Memory :=
  if bit then memWrite P m a v else .ok m

/-- One EP of BlockEmbed (R140): a peak takes a bit, a residual above the peak is shifted, one below is unchanged. -/
def embedEp (P : Config) (pl : Planes) (x y src total : Nat) (a : Fin 9 → Byte) (d : Fin 5 → Int)
    (acc : EmbedAcc) (i : Fin 5) : Except Fault EmbedAcc :=
  let addr := sampleAddr pl.p1 pl.w x y (epPos i)
  if d i = peak d then do
    let bit ← embedBit P acc.mem src acc.cursor total
    let m ← writeIf P acc.mem bit addr (a (epPos i) + 8)
    .ok { mem := m, cursor := acc.cursor + 1, first := false,
          rdu := if acc.first then bit else acc.rdu, cnt := if acc.first then i.val else acc.cnt }
  else if peak d < d i then do
    let m ← memWrite P acc.mem addr (a (epPos i) + 8)
    .ok { acc with mem := m }
  else .ok acc

/-- The EPs in the given order, one after another. -/
def embedEps (P : Config) (pl : Planes) (x y src total : Nat) (a : Fin 9 → Byte) (d : Fin 5 → Int) :
    List (Fin 5) → EmbedAcc → Except Fault EmbedAcc
  | [], acc => .ok acc
  | i :: is, acc => do
    let acc' ← embedEp P pl x y src total a d acc i
    embedEps P pl x y src total a d is acc'

/-- `BlockEmbed(x0, y0, cursor, total)` (R140): the memory, the side-information byte and the cursor after it. All
five residuals are computed before any write. -/
def blockEmbed (P : Config) (pl : Planes) (x y src cursor total : Nat) (m : Memory) :
    Except Fault (Memory × Byte × Nat) := do
  let rejected ← guardRejects P m pl x y
  if rejected then .ok (m, packMap false false 0, cursor)
  else do
    let a ← readBlock P m pl.p1 pl.w x y
    let b ← readBlock P m pl.p2 pl.w x y
    let acc ← embedEps P pl x y src total a (dHsb a b) epIndices
      { mem := m, cursor := cursor, first := true, rdu := false, cnt := 0 }
    .ok (acc.mem, packMap true acc.rdu acc.cnt, acc.cursor)

/-- The bit a residual `v` carries when the peak was `me`: 0 for `me`, 1 for `me + 1`, else none (R142). -/
def carriedBit (me v : Int) : Option Bool :=
  if v = me then some false else if v = me + 1 then some true else none

/-- A carried bit is appended to the output and moves the cursor (R142). -/
def appendBit (P : Config) (m : Memory) (dst cursor : Nat) : Option Bool → Except Fault (Memory × Nat)
  | none => .ok (m, cursor)
  | some b => do
    let m' ← writeBit P m dst cursor b
    .ok (m', cursor + 1)

/-- One EP of BlockExtract (R142), `me` the recovered peak: the bit it carries is appended, and every residual above
`me` is shifted back, wrapping mod 256. -/
def extractEp (P : Config) (pl : Planes) (x y dst : Nat) (a : Fin 9 → Byte) (d : Fin 5 → Int) (me : Int)
    (m : Memory) (cursor : Nat) (i : Fin 5) : Except Fault (Memory × Nat) := do
  let (m1, c1) ← appendBit P m dst cursor (carriedBit me (d i))
  if me < d i then do
    let m2 ← memWrite P m1 (sampleAddr pl.p1 pl.w x y (epPos i)) (a (epPos i) - 8)
    .ok (m2, c1)
  else .ok (m1, c1)

/-- The EPs in the given order, one after another. -/
def extractEps (P : Config) (pl : Planes) (x y dst : Nat) (a : Fin 9 → Byte) (d : Fin 5 → Int) (me : Int) :
    List (Fin 5) → Memory → Nat → Except Fault (Memory × Nat)
  | [], m, cursor => .ok (m, cursor)
  | i :: is, m, cursor => do
    let (m', c') ← extractEp P pl x y dst a d me m cursor i
    extractEps P pl x y dst a d me is m' c'

/-- The EP index that COUNT_EP names; it is at most 4 where a command uses it, for MAP_FIELD is checked before
(R112, R142). -/
def countIndex (m : Byte) : Fin 5 := Fin.ofNat 5 (mapCount m)

/-- `BlockExtract(x0, y0, m, cursor)` (R142): the memory and the cursor after it. -/
def blockExtract (P : Config) (pl : Planes) (x y dst : Nat) (info : Byte) (cursor : Nat) (m : Memory) :
    Except Fault (Memory × Nat) :=
  if mapInUse info then do
    let a ← readBlock P m pl.p1 pl.w x y
    let b ← readBlock P m pl.p2 pl.w x y
    let d := dHsb a b
    let me := d (countIndex info) - (if mapRdu info then 1 else 0)
    extractEps P pl x y dst a d me epIndices m cursor
  else .ok (m, cursor)

/-- PREDICT under parameters `P` (R158): residuals, peak and guard of one block; no BUF write. -/
def predictCommand (P : Config) (s : State) : Host.Outcome State Fault Refusal :=
  runCommand P .predict s (do
    let pl := planesOf s.regs
    let a ← readBlock P s.mem pl.p1 pl.w s.regs.blkX.toNat s.regs.blkY.toNat
    let b ← readBlock P s.mem pl.p2 pl.w s.regs.blkX.toNat s.regs.blkY.toNat
    let d := dHsb a b
    .ok ({ s with regs := { s.regs with
             predDhsb0 := signedWord (d 0), predDhsb1 := signedWord (d 1), predDhsb2 := signedWord (d 2),
             predDhsb3 := signedWord (d 3), predDhsb4 := signedWord (d 4),
             predMe1 := signedWord (peak d), predGuard := guardHolds P.guardScope a b } }, .ok))

/-- BLK_EMBED under parameters `P` (R156). -/
def blkEmbedCommand (P : Config) (s : State) : Host.Outcome State Fault Refusal :=
  runCommand P .blkEmbed s (do
    let (m, info, cursor) ← blockEmbed P (planesOf s.regs) s.regs.blkX.toNat s.regs.blkY.toNat
      s.regs.srcBase.toNat s.regs.bitCursor.toNat s.regs.bitTotal.toNat s.mem
    .ok ({ s with mem := m, regs := { s.regs with mapByte := info, bitCursor := BitVec.ofNat 32 cursor } }, .ok))

/-- BLK_EXTRACT under parameters `P` (R157). -/
def blkExtractCommand (P : Config) (s : State) : Host.Outcome State Fault Refusal :=
  runCommand P .blkExtract s (do
    let (m, cursor) ← blockExtract P (planesOf s.regs) s.regs.blkX.toNat s.regs.blkY.toNat
      s.regs.dstBase.toNat s.regs.mapByte s.regs.bitCursor.toNat s.mem
    .ok ({ s with mem := m, regs := { s.regs with bitCursor := BitVec.ofNat 32 cursor } }, .ok))

/-- PREDICT (R158). -/
def execPredict (s : State) : Host.Outcome State Fault Refusal := predictCommand Config.machine s

/-- BLK_EMBED (R156). -/
def execBlkEmbed (s : State) : Host.Outcome State Fault Refusal := blkEmbedCommand Config.machine s

/-- BLK_EXTRACT (R157). -/
def execBlkExtract (s : State) : Host.Outcome State Fault Refusal := blkExtractCommand Config.machine s

end Sys2Proof.Machine
end

