-- ==== Sys2Proof/Machine/Control.lean ====
section
/-! DEFINITION. The control command (44_control.md R215). -/

namespace Sys2Proof.Machine

/-- NOP under parameters `P` (R215): no check, no effect, completion with OK. -/
def nopCommand (P : Config) (s : State) : Host.Outcome State Fault Refusal := runCommand P .nop s (.ok (s, .ok))

/-- NOP (R215). -/
def execNop (s : State) : Host.Outcome State Fault Refusal := nopCommand Config.machine s

end Sys2Proof.Machine
end

