-- ==== Sys2Proof/Machine/Driver.lean ====
section
/-! DEFINITION. The plane commands EMBED and EXTRACT (41_driver.md R170-R179): the sequencer over BlockEmbed and
BlockExtract in column-major block order. -/

namespace Sys2Proof.Machine

/-- EMBED's traversal (R172) from block `k` on, `left` blocks being left of the grid: the test for the payload's end
stands before each block. It answers the memory, the number of blocks visited and the cursor. -/
def embedLoop (P : Config) (pl : Planes) (hb src mapBase total : Nat) :
    (left k cursor : Nat) → Memory → Except Fault (Memory × Nat × Nat)
  | 0, k, cursor, m => .ok (m, k, cursor)
  | left + 1, k, cursor, m =>
    if total ≤ cursor then .ok (m, k, cursor)
    else do
      let (m1, info, c1) ← blockEmbed P pl (blockX hb k) (blockY hb k) src cursor total m
      let m2 ← memWrite P m1 (mapBase + k) info
      embedLoop P pl hb src mapBase total left (k + 1) c1 m2

/-- EXTRACT's traversal (R175) from block `k` on, `left` blocks being left of the grid: it stops once the map index
reaches the map length `n`. -/
def extractLoop (P : Config) (pl : Planes) (hb mapBase dst n : Nat) :
    (left k cursor : Nat) → Memory → Except Fault (Memory × Nat × Nat)
  | 0, k, cursor, m => .ok (m, k, cursor)
  | left + 1, k, cursor, m =>
    if n ≤ k then .ok (m, k, cursor)
    else do
      let info ← memRead P m (mapBase + k)
      let (m1, c1) ← blockExtract P pl (blockX hb k) (blockY hb k) dst info cursor m
      extractLoop P pl hb mapBase dst n left (k + 1) c1 m1

/-- EMBED under parameters `P` (R172): LEN bytes are a total of 8·LEN bits; running out of blocks is
CAPACITY_EXCEEDED, with image 1 and the map left as written (R174). -/
def embedCommand (P : Config) (s : State) : Host.Outcome State Fault Refusal :=
  runCommand P .embed s (do
    let total := 8 * s.regs.len.toNat
    let (m, k, cursor) ← embedLoop P (planesOf s.regs) (s.regs.height.toNat / 3) s.regs.srcBase.toNat
      s.regs.mapBase.toNat total (blockCount s.regs) 0 0 s.mem
    .ok ({ s with mem := m,
                  regs := { s.regs with mapLen := BitVec.ofNat 32 k, bitCursor := BitVec.ofNat 32 cursor } },
         if cursor < total then .capacityExceeded else .ok))

/-- EXTRACT under parameters `P` (R175): the output bytes that can receive bits are zero-filled first (R176).
MAP_LENGTH_MISMATCH is kept although unreachable (R177). -/
def extractCommand (P : Config) (s : State) : Host.Outcome State Fault Refusal :=
  runCommand P .extract s (do
    let n := s.regs.mapLen.toNat
    let m0 ← zeroFill P (ceilDiv (5 * n) 8) s.regs.dstBase.toNat s.mem
    let (m, k, cursor) ← extractLoop P (planesOf s.regs) (s.regs.height.toNat / 3) s.regs.mapBase.toNat
      s.regs.dstBase.toNat n (blockCount s.regs) 0 0 m0
    .ok ({ s with mem := m,
                  regs := { s.regs with outBits := BitVec.ofNat 32 cursor, bitCursor := BitVec.ofNat 32 cursor } },
         if k < n then .mapLengthMismatch else .ok))

/-- EMBED (R172). -/
def execEmbed (s : State) : Host.Outcome State Fault Refusal := embedCommand Config.machine s

/-- EXTRACT (R175). -/
def execExtract (s : State) : Host.Outcome State Fault Refusal := extractCommand Config.machine s

end Sys2Proof.Machine
end

