-- ==== Sys2Proof/Machine/Permutation.lean ====
section
/-! DEFINITION. The Permutation Engine (43_permutation.md R200-R206). -/

namespace Sys2Proof.Machine

/-- `swap idx[i], idx[j]`. -/
def swapEntries (idx : List Nat) (i j : Nat) : List Nat :=
  (idx.set i (idx.getD j 0)).set j (idx.getD i 0)

/-- The Fisher-Yates loop of R201 for i = top, top − 1, …, 1, with draws k, k + 1, …. -/
def fisherYates (draw : Nat → Word) : (top k : Nat) → List Nat → List Nat
  | 0, _, idx => idx
  | i + 1, k, idx => fisherYates draw i (k + 1) (swapEntries idx (i + 1) ((draw k).toNat % (i + 2)))

/-- `Perm(n, KEY)` with the draws that follow seeding with KEY (R200, R201): max(n − 1, 0) of them. -/
def permIndex (n : Nat) (draw : Nat → Word) : List Nat := fisherYates draw (n - 1) 0 (List.range n)

/-- SHUFFLE's moves (destination chunk, source chunk): `chunk c <- X[idx[c]]` (R202). -/
def shuffleMoves (idx : List Nat) : List (Nat × Nat) := idx.zipIdx.map (fun p => (p.2, p.1))

/-- UNSHUFFLE's moves (destination chunk, source chunk): `chunk idx[c] <- Y[c]` (R204). -/
def unshuffleMoves (idx : List Nat) : List (Nat × Nat) := idx.zipIdx

/-- SHUFFLE under parameters `P` (R202). -/
def shuffleCommand (P : Config) (s : State) : Host.Outcome State Fault Refusal :=
  runCommand P .shuffle s (do
    let m ← moveChunks P s.mem s.regs.p1Base.toNat
      (shuffleMoves (permIndex (s.regs.len.toNat / 8) (P.prng32 (keyOf s.regs)))) s.mem
    .ok ({ s with mem := m }, .ok))

/-- UNSHUFFLE under parameters `P` (R204). -/
def unshuffleCommand (P : Config) (s : State) : Host.Outcome State Fault Refusal :=
  runCommand P .unshuffle s (do
    let m ← moveChunks P s.mem s.regs.p1Base.toNat
      (unshuffleMoves (permIndex (s.regs.len.toNat / 8) (P.prng32 (keyOf s.regs)))) s.mem
    .ok ({ s with mem := m }, .ok))

/-- SHUFFLE (R202). -/
def execShuffle (s : State) : Host.Outcome State Fault Refusal := shuffleCommand Config.machine s

/-- UNSHUFFLE (R204). -/
def execUnshuffle (s : State) : Host.Outcome State Fault Refusal := unshuffleCommand Config.machine s

end Sys2Proof.Machine
end

