-- ==== Sys2Proof/Machine/Shares.lean ====
section
/-! DEFINITION. The Pixel Share Splitter and Combiner (42_split_combine.md R190-R195). -/

namespace Sys2Proof.Machine

/-- One component of the first share: `ah` from `rh` and `sh`, or `al` from `rl` and `sl` (R191). -/
def shareComponent (part : SplitPartition) (s r : Nat) : Nat :=
  match part with
  | .modulo => r % (s + 1)
  | .conj => r &&& s

/-- `SplitByte(s, r)` (R191): the high 5 and the low 3 bits are partitioned apart; the second share takes the rest. -/
def splitByte (part : SplitPartition) (s r : Byte) : Byte × Byte :=
  let sh := s.toNat / 8
  let sl := s.toNat % 8
  let ah := shareComponent part sh (r.toNat / 8)
  let al := shareComponent part sl (r.toNat % 8)
  (BitVec.ofNat 8 (8 * ah + al), BitVec.ofNat 8 (8 * (sh - ah) + (sl - al)))

/-- SPLIT's loop (R190) over the `n` source bytes from offset `i` on, in increasing order; the draw of offset i is the
RNG8 byte number `pos + i` (R195). -/
def splitLoop (P : Config) (src p1 p2 pos : Nat) : (n i : Nat) → Memory → Except Fault Memory
  | 0, _, m => .ok m
  | n + 1, i, m => do
    let s ← memRead P m (src + i)
    let m1 ← memWrite P m (p1 + i) (splitByte P.splitPartition s (P.rng8 (pos + i))).1
    let m2 ← memWrite P m1 (p2 + i) (splitByte P.splitPartition s (P.rng8 (pos + i))).2
    splitLoop P src p1 p2 pos n (i + 1) m2

/-- COMBINE's loop (R193): the sum wraps mod 256. -/
def combineLoop (P : Config) (p1 p2 dst : Nat) : (n i : Nat) → Memory → Except Fault Memory
  | 0, _, m => .ok m
  | n + 1, i, m => do
    let a ← memRead P m (p1 + i)
    let b ← memRead P m (p2 + i)
    let m' ← memWrite P m (dst + i) (a + b)
    combineLoop P p1 p2 dst n (i + 1) m'

/-- SPLIT under parameters `P` (R190): exactly LEN draws (R195). -/
def splitCommand (P : Config) (s : State) : Host.Outcome State Fault Refusal :=
  runCommand P .split s (do
    let m ← splitLoop P s.regs.srcBase.toNat s.regs.p1Base.toNat s.regs.p2Base.toNat s.rng8Pos
      s.regs.len.toNat 0 s.mem
    .ok ({ s with mem := m, rng8Pos := s.rng8Pos + s.regs.len.toNat }, .ok))

/-- COMBINE under parameters `P` (R193). -/
def combineCommand (P : Config) (s : State) : Host.Outcome State Fault Refusal :=
  runCommand P .combine s (do
    let m ← combineLoop P s.regs.p1Base.toNat s.regs.p2Base.toNat s.regs.dstBase.toNat s.regs.len.toNat 0 s.mem
    .ok ({ s with mem := m }, .ok))

/-- SPLIT (R190). -/
def execSplit (s : State) : Host.Outcome State Fault Refusal := splitCommand Config.machine s

/-- COMBINE (R193). -/
def execCombine (s : State) : Host.Outcome State Fault Refusal := combineCommand Config.machine s

end Sys2Proof.Machine
end

