-- ==== Sys2Proof/Machine/Dispatch.lean ====
section
/-! DEFINITION. The meaning of each command: the engine's completion step for it (70_reset_and_hazards.md R285). -/

namespace Sys2Proof.Machine

def exec (i : Instr) (s : State) : Host.Outcome State Fault Refusal :=
  match i with
  | .nop => Sys2Proof.Machine.execNop s
  | .predict => Sys2Proof.Machine.execPredict s
  | .blkEmbed => Sys2Proof.Machine.execBlkEmbed s
  | .blkExtract => Sys2Proof.Machine.execBlkExtract s
  | .embed => Sys2Proof.Machine.execEmbed s
  | .extract => Sys2Proof.Machine.execExtract s
  | .split => Sys2Proof.Machine.execSplit s
  | .combine => Sys2Proof.Machine.execCombine s
  | .shuffle => Sys2Proof.Machine.execShuffle s
  | .unshuffle => Sys2Proof.Machine.execUnshuffle s

end Sys2Proof.Machine
end

