-- ==== Sys2Proof/Machine/Engine.lean ====
section
/-! DEFINITION. Who moves next (70_reset_and_hazards.md R285): the head of `inputs`, and with none left the engine,
so that every accepted command completes. -/

namespace Sys2Proof.Machine

/-- The engine completes the accepted word `c`: its command's meaning, or ILLEGAL_COMMAND (30_encoding.md R102). -/
def runWord (c : Word) (s : State) : Host.Outcome State Fault Refusal :=
  match decode c with
  | .ok i => exec i s
  | .error _ => .next (completeIllegal s)

/-- The engine's turn: completion if a command is accepted (R285), else nothing (60_exceptions.md R256: idle, the
block keeps every register and BUF byte). -/
def engineTurn (s : State) : Host.Outcome State Fault Refusal :=
  match s.phase with
  | .idle => .next s
  | .busy c => runWord c s

/-- WAIT (30_encoding.md R120): while BUSY the engine moves and the host goes on waiting, for a STATUS read that sees
BUSY = 1 changes nothing (20_memory.md R76); then the read that sees BUSY = 0 is answered (log 20). -/
def pollTurn (s : State) (rest : List Input) : Host.Outcome State Fault Refusal :=
  if s.busy then engineTurn s
  else .next (regAccessRead { s with inputs := rest } .word (regOffset .status))

/-- One step in the total order of R285 under parameters `P`. -/
def takeTurn (P : Config) (s : State) : Host.Outcome State Fault Refusal :=
  match s.inputs with
  | [] => engineTurn s
  | .access a :: rest => hostAccess P { s with inputs := rest } a
  | .poll :: rest => pollTurn s rest
  | .engine :: rest => engineTurn { s with inputs := rest }
  | .hardReset :: rest => .next (hardReset { s with inputs := rest })

/-- `s` with word `c` accepted (60_exceptions.md R232) and the engine's turn next. -/
def submitted (s : State) (c : Word) : State :=
  { accept s c with inputs := .engine :: s.inputs }

end Sys2Proof.Machine
end

