-- ==== Sys2Proof/Machine/Step.lean ====
section
/-! DEFINITION. One step of the machine, and the placing of a command where the next step runs it (log 10). -/

namespace Sys2Proof.Machine

/-- One step: the next host access, reset or engine turn (70_reset_and_hazards.md R285). -/
def step (s : State) : Host.Outcome State Fault Refusal := takeTurn Config.machine s

/-- `s` with the table word accepted and the engine's turn next: the block fetches nothing (10_state.md R21), a command
comes from a host write to CMD, for which this stands (log 10). -/
def State.withFetchWord (s : State) (nbits w : Nat) : State := submitted s (BitVec.ofNat 32 (w % 2 ^ nbits))

end Sys2Proof.Machine
end

