-- ==== Sys2Proof/Machine/Script.lean ====
section
/-! DEFINITION. The host command-script syntax (30_encoding.md R120, R121): each statement as the inputs it stands for. -/

namespace Sys2Proof.Machine

/-- A host statement (R120). -/
inductive Stmt where
  /-- `WR <reg>, <v>` -/
  | wr (r : RegName) (v : Word)
  /-- `RD <reg>` -/
  | rd (r : RegName)
  /-- `SB <a>, <b0>, <b1>, ...` -/
  | sb (a : Nat) (bs : List Byte)
  /-- `<mnemonic>`: submit the command -/
  | submit (i : Instr)
  /-- `WAIT` -/
  | wait
  deriving DecidableEq, Repr

/-- Byte writes of `bs` from `a` on, one after another (R120, SB). -/
def storeBytes : (a : Nat) → List Byte → List Input
  | _, [] => []
  | a, b :: bs => .access (.bufWrite .byte a (b.zeroExtend 32)) :: storeBytes (a + 1) bs

/-- A statement's bus operations (R120). -/
def stmtInputs : Stmt → List Input
  | .wr r v => [.access (.regWrite .word (regOffset r) v)]
  | .rd r => [.access (.regRead .word (regOffset r))]
  | .sb a bs => storeBytes a bs
  | .submit i => [.access (.regWrite .word (regOffset .cmd) (encode i))]
  | .wait => [.poll]

/-- A script's bus operations, statement after statement. -/
def scriptInputs (p : List Stmt) : List Input := p.flatMap stmtInputs

/-- `GEOM w, h` (R121). -/
def stmtGeom (w h : Word) : List Stmt := [.wr .width w, .wr .height h]

/-- `PLANES a, b` (R121). -/
def stmtPlanes (a b : Word) : List Stmt := [.wr .p1Base a, .wr .p2Base b]

/-- `BLOCK x, y` (R121). -/
def stmtBlock (x y : Word) : List Stmt := [.wr .blkX x, .wr .blkY y]

/-- `SETKEY k` (R121): bits 31:0 to KEY_LO, bits 63:32 to KEY_HI. -/
def stmtSetKey (k : Key) : List Stmt := [.wr .keyLo (k.extractLsb' 0 32), .wr .keyHi (k.extractLsb' 32 32)]

/-- `RUN <mnemonic>` (R121). -/
def stmtRun (i : Instr) : List Stmt := [.submit i, .wait]

/-- `CLRDONE` (R121). -/
def stmtClrDone : List Stmt := [.wr .status 0x00000002]

/-- `CLROVR` (R121). -/
def stmtClrOvr : List Stmt := [.wr .status 0x00000004]

/-- `SRST` (R121). -/
def stmtSrst : List Stmt := [.wr .ctrl 0x00000002]

end Sys2Proof.Machine
end

