-- ==== Sys2Proof/Safety.lean ====
section
/-! DEFINITION. The terms in which claims about the MIE block are stated: what is written, what lies in a region, what a
safe run is, and the invariant of the machine. -/

namespace Sys2Proof.Machine

/-- The `len` bytes from `base` on are all written (10_state.md R36). -/
def Memory.written (m : Memory) (base len : Nat) : Prop := ∀ i, i < len → (m.read? (base + i)).isSome

/-- Every listed byte lies in BUF (10_state.md R35). -/
def Memory.inBuf (P : Config) (m : Memory) : Prop := ∀ x ∈ m, x.1 < P.bufBytes

/-- Address `a` lies in the region (base, len) (20_memory.md R81). -/
def inSpan (base len a : Nat) : Prop := base ≤ a ∧ a < base + len

/-- Address `a` lies in a region that command `i` writes (20_memory.md R83). -/
def inWritten (i : Instr) (r : Regs) (a : Nat) : Prop :=
  ∃ q ∈ regionsOf i r, q.writes = true ∧ inSpan q.base q.len a

/-- Address `a` lies in some region of command `i` (20_memory.md R83). -/
def inRegions (i : Instr) (r : Regs) (a : Nat) : Prop := ∃ q ∈ regionsOf i r, inSpan q.base q.len a

/-- Every region of command `i` is in range (20_memory.md R81). -/
def regionsInRange (P : Config) (i : Instr) (r : Regs) : Prop := ∀ q ∈ regionsOf i r, q.len = 0 ∨ q.base + q.len ≤ P.bufBytes

/-- No region that command `i` writes overlaps another of its regions (20_memory.md R82): for any two entries of the
table R83, the earlier and the later, one of which is written, the spans are disjoint. -/
def regionsApart (i : Instr) (r : Regs) : Prop :=
  (regionsOf i r).Pairwise (fun q p => (q.writes = true ∨ p.writes = true) →
    ∀ a, ¬ (inSpan q.base q.len a ∧ inSpan p.base p.len a))

/-- WIDTH and HEIGHT are multiples of 3 (10_state.md R31). -/
def planeGeometry (r : Regs) : Prop := r.width.toNat % 3 = 0 ∧ r.height.toNat % 3 = 0

/-- So they are, and the block at (BLK_X, BLK_Y) lies in the plane (60_exceptions.md R230, GEOMETRY). -/
def blockGeometry (r : Regs) : Prop :=
  planeGeometry r ∧ r.blkX.toNat + 3 ≤ r.width.toNat ∧ r.blkY.toNat + 3 ≤ r.height.toNat

/-- The checks of command `i` that come before RANGE pass (60_exceptions.md R230, R233, R234). -/
def earlyChecksPass (i : Instr) (r : Regs) : Prop :=
  match i with
  | .nop | .split | .combine => True
  | .predict | .blkEmbed => blockGeometry r
  | .blkExtract => blockGeometry r ∧ r.bitCursor.toNat + 5 ≤ 8 * r.dstCap.toNat
  | .embed => planeGeometry r
  | .extract =>
    planeGeometry r ∧ r.mapLen.toNat ≤ (r.width.toNat / 3) * (r.height.toNat / 3) ∧
      (5 * r.mapLen.toNat + 7) / 8 ≤ r.dstCap.toNat
  | .shuffle | .unshuffle => r.len.toNat % 8 = 0

/-- The cursor of the block commands has room (60_exceptions.md R230, RANGE). -/
def cursorFits (i : Instr) (r : Regs) : Prop :=
  match i with
  | .blkEmbed | .blkExtract => r.bitCursor.toNat + 5 ≤ 0xFFFFFFFF
  | _ => True

/-- The operand registers pass every check of command `i` but MAP_FIELD (60_exceptions.md R234). -/
def operandsOk (P : Config) (i : Instr) (r : Regs) : Prop :=
  earlyChecksPass i r ∧ cursorFits i r ∧ regionsInRange P i r ∧ regionsApart i r

/-- The nine samples of the block at (x, y) of the plane at `base` are `a` (40_block_codec.md R130): position p is the
sample at column x + p mod 3 and row y + p div 3 of the plane, whose rows are `w` bytes. -/
def holdsBlock (m : Memory) (base w x y : Nat) (a : Fin 9 → Byte) : Prop :=
  ∀ p : Fin 9, m.read? (base + (y + p.val / 3) * w + x + p.val % 3) = some (a p)

/-- The bits `lo` to `hi − 1` that an embedding takes are `pay`: payload bits below `total`, filler zeros from there on
(20_memory.md R84, 41_driver.md R179). -/
def payloadIs (m : Memory) (src total lo hi : Nat) (pay : Nat → Bool) : Prop :=
  ∀ j, lo ≤ j → j < hi →
    (j < total → ∃ v, m.read? (src + j / 8) = some v ∧ v.getLsbD (j % 8) = pay j) ∧ (total ≤ j → pay j = false)

/-- How many EPs before `i` satisfy `f`: the place of EP `i` among them in index order (40_block_codec.md R140). -/
def countBefore (f : Fin 5 → Bool) (i : Fin 5) : Nat := (epIndices.filter (fun j => decide (j < i) && f j)).length

/-- The engine takes its turn at this step (70_reset_and_hazards.md R285, log 9). -/
def engineMoves (s : State) : Prop :=
  s.inputs = [] ∨ (∃ rest, s.inputs = .engine :: rest) ∨ (∃ rest, s.inputs = .poll :: rest)

/-- This step is the host's write of `v` to register `n` (20_memory.md R74). -/
def writesReg (s : State) (n : RegName) (v : Word) : Prop :=
  ∃ rest, s.inputs = .access (.regWrite .word (regOffset n) v) :: rest

/-- `rst` is asserted at this step (70_reset_and_hazards.md R270). -/
def resetsHard (s : State) : Prop := ∃ rest, s.inputs = .hardReset :: rest

/-- The PRED result registers hold sign-extended values in −62..62 (10_state.md R33, 40_block_codec.md R136). -/
def predInRange (r : Regs) : Prop :=
  ∀ w ∈ [r.predMe1, r.predDhsb0, r.predDhsb1, r.predDhsb2, r.predDhsb3, r.predDhsb4], -62 ≤ w.toInt ∧ w.toInt ≤ 62

/-- A legal value of STATUS.ERR (60_exceptions.md R230): "Every other code value is never written". -/
def isErrCode (e : BitVec 8) : Prop :=
  e ∈ [0x00#8, 0x01#8, 0x02#8, 0x03#8, 0x10#8, 0x11#8, 0x12#8, 0x13#8, 0x14#8, 0x15#8, 0x16#8]

/-- The invariant of the machine: BUF is in canonical form and lists no byte outside BUF; ERR holds a legal code; and
while BUSY = 1, DONE is 0 and ERR is 0x00 (10_state.md R26, R27, R29). -/
structure State.Inv (P : Config) (s : State) : Prop where
  wf      : s.mem.wf
  inBuf   : s.mem.inBuf P
  err     : isErrCode s.err
  pending : s.busy = true → s.done = false ∧ s.err = 0

/-- The step is no fault: it goes on. -/
def goesOn : Host.Outcome State Fault Refusal → Prop
  | .next _ => True
  | .fault _ => False
  | .refused _ => False

end Sys2Proof.Machine
end

