-- ==== Sys2Proof/Certificates/Slice0/Obligations.lean ====
section
/-! DEFINITION. The statements for the provers. Each docstring names the rules of spec/ it formalises. -/

open Sys2Proof Sys2Proof.Machine

/-! ### Encoding (30_encoding.md) -/

/-- R101: the ten words of the table and some illegal ones of R103, written out from the spec. -/
def Obligations.CommandWordsDecode : Prop :=
  decode 0x00000000 = .ok .nop ∧ decode 0x00000001 = .ok .predict ∧ decode 0x00000002 = .ok .blkEmbed ∧
  decode 0x00000003 = .ok .blkExtract ∧ decode 0x00000010 = .ok .embed ∧ decode 0x00000011 = .ok .extract ∧
  decode 0x00000020 = .ok .split ∧ decode 0x00000021 = .ok .combine ∧ decode 0x00000030 = .ok .shuffle ∧
  decode 0x00000031 = .ok .unshuffle ∧ decode 0x00000004 = .error .unknownOpcode ∧
  decode 0x00000104 = .error .reservedNonzero ∧ decode 0xFFFFFFFF = .error .reservedNonzero

/-- R101: a word selects a command exactly if it is `zext_32(OPC)` of a row of the opcode map. -/
def Obligations.DecodeSelectsTableRows : Prop :=
  ∀ (w : Word) (i : Instr), decode w = .ok i ↔
    (w.toNat, i) ∈ [(0x00, Instr.nop), (0x01, .predict), (0x02, .blkEmbed), (0x03, .blkExtract), (0x10, .embed),
      (0x11, .extract), (0x20, .split), (0x21, .combine), (0x30, .shuffle), (0x31, .unshuffle)]

/-- R101, R102: decoding and encoding agree, in both directions and on every word. -/
def Obligations.DecodeEncodeAgree : Prop := ∀ (w : Word) (i : Instr), decode w = .ok i ↔ encode i = w

/-- R111, R112: packing a side-information byte and taking it apart. -/
def Obligations.MapBytePacking : Prop :=
  packMap false false 0 = 0x00 ∧
  ∀ (rdu : Bool) (c : Fin 5) (m : Byte), m.extractLsb' 0 5 = (packMap true rdu c).extractLsb' 0 5 →
    mapInUse m = true ∧ mapRdu m = rdu ∧ mapCount m = c ∧ mapMalformed m = false ∧
    (packMap true rdu c).toNat = 1 + 2 * rdu.toNat + 4 * c.val

/-! ### Reset, acceptance, completion, flags (10_state.md, 44_control.md, 60_exceptions.md, 70_reset_and_hazards.md) -/

/-- R43: what hard reset leaves, register by register as the host reads it. -/
def Obligations.ResetRegisterValues : Prop :=
  (∀ r : RegName, readReg State.reset r = if r = .id then 0x4D494507 else 0) ∧
  State.reset.phase = .idle ∧ irq State.reset = false ∧ ∀ a, State.reset.mem.read? a = none

/-- A step runs the decoded command (R232, R285): when the engine takes its turn on an accepted word that decodes to
`i`, the step is `exec i`; the model's own bookkeeping around it is the removal of an `engine` entry from `inputs`
(log 9). -/
def Obligations.StepRunsDecodedCommand : Prop :=
  (∀ (s : State) (c : Word) (i : Instr), s.phase = .busy c → decode c = .ok i →
    (s.inputs = [] → step s = exec i s) ∧
    (∀ rest, s.inputs = .engine :: rest → step s = exec i { s with inputs := rest }) ∧
    (∀ rest, s.inputs = .poll :: rest → step s = exec i s)) ∧
  ∀ (s : State) (w : Word) (i : Instr), decode w = .ok i →
    step (s.withFetchWord 32 w.toNat) = exec i { s with phase := .busy w, done := false, err := 0 }

/-- R216: an illegal word is accepted and completes with ILLEGAL_COMMAND and no other effect; after reset 0x00000104
gives STATUS = 0x00001002. -/
def Obligations.IllegalWordCompletes : Prop :=
  (∀ (s : State) (c : Word), s.phase = .idle → (∀ i, decode c ≠ .ok i) →
    ∃ t, writeReg s .cmd c = t ∧ t.phase = .busy c ∧
      engineTurn t = .next { s with phase := .idle, done := true, err := 0x10 }) ∧
  (∀ i, decode 0x00000104 ≠ .ok i) ∧
  ∃ t, engineTurn (writeReg State.reset .cmd 0x00000104) = .next t ∧ readReg t .status = 0x00001002

/-- R232: the host's write of `c` to CMD, while BUSY = 0 (acceptance) and while BUSY = 1 (R34). -/
def Obligations.CommandAcceptance : Prop :=
  ∀ (s : State) (c : Word) (rest : List Input), s.inputs = .access (.regWrite .word 0x08 c) :: rest →
    (s.phase = .idle → ∃ t, step s = .next t ∧ irq t = false ∧
      t = { s with phase := .busy c, done := false, err := 0x00, inputs := rest, resp := some .ok }) ∧
    (s.phase ≠ .idle → step s = .next { s with ovr := true, inputs := rest, resp := some .ok })

/-- R34: host writes while BUSY = 1, and reads, which return current values. -/
def Obligations.WritesWhileBusy : Prop :=
  ∀ (s : State) (n : RegName) (v : Word) (rest : List Input), s.phase ≠ .idle →
    (s.inputs = .access (.regWrite .word (regOffset n) v) :: rest →
      ((n = .cmd ∨ (n = .ctrl ∧ v.getLsbD 1 = true) ∨ accessKind n = .rw) →
        step s = .next { s with ovr := true, inputs := rest, resp := some .ok }) ∧
      ((n = .ctrl ∧ v.getLsbD 1 = false) →
        step s = .next { s with irqEn := v.getLsbD 0, inputs := rest, resp := some .ok }) ∧
      (n = .status → step s = .next { s with done := s.done && !v.getLsbD 1, ovr := s.ovr && !v.getLsbD 2,
                                              inputs := rest, resp := some .ok })) ∧
    (s.inputs = .access (.regRead .word (regOffset n)) :: rest →
      step s = .next { s with inputs := rest, resp := some (.data (readReg s n)) })

/-- R23, R24, R33: a write to an RW register while BUSY = 0 is read back (MAPBYTE keeps 8 bits), and changes no other
register and nothing else; a write to an RO register changes nothing; a write to CTRL with bit 1 = 0 updates IRQ_EN only,
in either phase, and one to STATUS clears DONE and OVR only (R27, R28). Each read returns its own register (R22); STATUS
is in StatusFieldsAndInterrupt. -/
def Obligations.RegisterWriteReadBack : Prop :=
  ∀ (s : State) (n : RegName) (v : Word),
    (s.phase = .idle → accessKind n = .rw →
      readReg (writeReg s n v) n = (if n = .mapByte then v &&& 0xFF else v) ∧
      (∀ n', n' ≠ n → readReg (writeReg s n v) n' = readReg s n') ∧
      writeReg s n v = { s with regs := (writeReg s n v).regs }) ∧
    (accessKind n = .ro → writeReg s n v = s) ∧
    (v.getLsbD 1 = false → writeReg s .ctrl v = { s with irqEn := v.getLsbD 0 }) ∧
    (writeReg s .status v = { s with done := s.done && !v.getLsbD 1, ovr := s.ovr && !v.getLsbD 2 }) ∧
    ∀ x ∈ [(RegName.id, 0x4D494507#32), (.ctrl, if s.irqEn then 1 else 0), (.cmd, 0),
        (.width, s.regs.width), (.height, s.regs.height), (.p1Base, s.regs.p1Base), (.p2Base, s.regs.p2Base),
        (.srcBase, s.regs.srcBase), (.len, s.regs.len), (.mapBase, s.regs.mapBase), (.mapLen, s.regs.mapLen),
        (.dstBase, s.regs.dstBase), (.dstCap, s.regs.dstCap), (.outBits, s.regs.outBits),
        (.bitCursor, s.regs.bitCursor), (.bitTotal, s.regs.bitTotal), (.blkX, s.regs.blkX), (.blkY, s.regs.blkY),
        (.mapByte, s.regs.mapByte.zeroExtend 32), (.keyLo, s.regs.keyLo), (.keyHi, s.regs.keyHi),
        (.predMe1, s.regs.predMe1), (.predFlags, if s.regs.predGuard then 1 else 0),
        (.predDhsb0, s.regs.predDhsb0), (.predDhsb1, s.regs.predDhsb1), (.predDhsb2, s.regs.predDhsb2),
        (.predDhsb3, s.regs.predDhsb3), (.predDhsb4, s.regs.predDhsb4)],
      readReg s x.1 = x.2

/-- R41 with R26-R29: the fields of STATUS as the host reads them, and the interrupt line: DONE AND IRQ_EN, the two as
the host reads them. -/
def Obligations.StatusFieldsAndInterrupt : Prop :=
  ∀ s : State, ((readReg s .status).getLsbD 0 = true ↔ s.phase ≠ .idle) ∧
    (readReg s .status).getLsbD 1 = s.done ∧ (readReg s .status).getLsbD 2 = s.ovr ∧
    (readReg s .status).extractLsb' 8 8 = s.err ∧ (readReg s .status).extractLsb' 3 5 = 0 ∧
    (readReg s .status).extractLsb' 16 16 = 0 ∧
    irq s = ((readReg s .status).getLsbD 1 && (readReg s .ctrl).getLsbD 0)

/-- R26: BUSY, STATUS bit 0, is 0 after reset, set only by acceptance and cleared only by completion and by reset. -/
def Obligations.BusyChanges : Prop :=
  (∀ s : State, (readReg s .status).getLsbD 0 = s.busy) ∧ State.reset.busy = false ∧
  ∀ s t : State, step s = .next t →
    (t.busy = true ↔ (s.busy = false ∧ ∃ c, writesReg s .cmd c) ∨
      (s.busy = true ∧ ¬ engineMoves s ∧ ¬ resetsHard s))

/-- R27: DONE, STATUS bit 1, is 0 after reset, set by every completion, and cleared by a host write of 1 to bit 1, by
acceptance and by reset; it drives the interrupt. -/
def Obligations.DoneChanges : Prop :=
  (∀ s : State, (readReg s .status).getLsbD 1 = s.done ∧ irq s = (s.done && s.irqEn)) ∧ State.reset.done = false ∧
  ∀ s t : State, step s = .next t →
    (t.done = true ↔ (s.busy = true ∧ engineMoves s) ∨
      (s.done = true ∧ ¬ ((∃ v, writesReg s .status v ∧ v.getLsbD 1 = true) ∨
        (s.busy = false ∧ ∃ c, writesReg s .cmd c) ∨
        (s.busy = false ∧ ∃ v, writesReg s .ctrl v ∧ v.getLsbD 1 = true) ∨ resetsHard s)))

/-- R28: OVR, STATUS bit 2, is 0 after reset, set by exactly the ignored writes, and cleared only by a host write of 1
to bit 2 and by reset. -/
def Obligations.OverrunChanges : Prop :=
  (∀ s : State, (readReg s .status).getLsbD 2 = s.ovr) ∧ State.reset.ovr = false ∧
  ∀ s t : State, step s = .next t →
    (t.ovr = true ↔
      (s.busy = true ∧ ∃ n v, writesReg s n v ∧ (n = .cmd ∨ (n = .ctrl ∧ v.getLsbD 1 = true) ∨ accessKind n = .rw)) ∨
      (s.ovr = true ∧ ¬ ((∃ v, writesReg s .status v ∧ v.getLsbD 2 = true) ∨
        (s.busy = false ∧ ∃ v, writesReg s .ctrl v ∧ v.getLsbD 1 = true) ∨ resetsHard s)))

/-- R217: soft reset, a host write to CTRL with bit 1 = 1. -/
def Obligations.SoftReset : Prop :=
  ∀ (s : State) (v : Word) (rest : List Input), s.inputs = .access (.regWrite .word 0x04 v) :: rest →
    v.getLsbD 1 = true →
    (s.phase = .idle → ∃ t, step s = .next t ∧ (∀ n, readReg t n = if n = .id then 0x4D494507 else 0) ∧
      t.phase = .idle ∧ t.mem = s.mem ∧ irq t = false ∧ t.inputs = rest) ∧
    (s.phase ≠ .idle → step s = .next { s with ovr := true, inputs := rest, resp := some .ok })

/-- R270: hard reset, in any state. -/
def Obligations.HardReset : Prop :=
  ∀ (s : State) (rest : List Input), s.inputs = .hardReset :: rest →
    ∃ t, step s = .next t ∧ (∀ n, readReg t n = if n = .id then 0x4D494507 else 0) ∧ t.phase = .idle ∧
      irq t = false ∧ (∀ a, t.mem.read? a = none) ∧ t.inputs = rest

/-- R236, R230: what a completion leaves, whichever the command, if exec goes on: the flags, and everything else that no
command writes. Where each command completes is said by its own result statement. -/
def Obligations.CompletionFrame : Prop :=
  ∀ (i : Instr) (s t : State), exec i s = .next t →
    t.phase = .idle ∧ t.done = true ∧ isErrCode t.err ∧ irq t = s.irqEn ∧ t.irqEn = s.irqEn ∧ t.ovr = s.ovr ∧
    t.inputs = s.inputs ∧ t.resp = s.resp ∧ t.freePos = s.freePos ∧ (i ≠ .split → t.rng8Pos = s.rng8Pos)

/-- R104: the registers each command writes, and no others (the frame of the register file, all ten commands). -/
def Obligations.RegistersWrittenByCommands : Prop :=
  ∀ (i : Instr) (s t : State), exec i s = .next t →
    match i with
    | .predict => t.regs = { s.regs with
        predMe1 := t.regs.predMe1, predGuard := t.regs.predGuard, predDhsb0 := t.regs.predDhsb0,
        predDhsb1 := t.regs.predDhsb1, predDhsb2 := t.regs.predDhsb2, predDhsb3 := t.regs.predDhsb3,
        predDhsb4 := t.regs.predDhsb4 }
    | .blkEmbed => t.regs = { s.regs with mapByte := t.regs.mapByte, bitCursor := t.regs.bitCursor }
    | .blkExtract => t.regs = { s.regs with bitCursor := t.regs.bitCursor }
    | .embed => t.regs = { s.regs with mapLen := t.regs.mapLen, bitCursor := t.regs.bitCursor }
    | .extract => t.regs = { s.regs with outBits := t.regs.outBits, bitCursor := t.regs.bitCursor }
    | .nop | .split | .combine | .shuffle | .unshuffle => t.regs = s.regs

/-- R235: an error found by a check (any code but OK, CAPACITY_EXCEEDED and MAP_LENGTH_MISMATCH) leaves everything but
STATUS, BUF and the draws included. -/
def Obligations.FailedCheckHasNoEffect : Prop :=
  ∀ (i : Instr) (s t : State), exec i s = .next t → t.err ≠ 0x00 → t.err ≠ 0x01 → t.err ≠ 0x03 →
    t = { s with phase := .idle, done := true, err := t.err }

/-- What the spec derives from R172, R175 and R234 (its rule R237): the only code that arises during execution;
MAP_LENGTH_MISMATCH never does (R177). -/
def Obligations.ErrorsDuringExecution : Prop :=
  ∀ (i : Instr) (s t : State), exec i s = .next t → t.err ≠ 0x03 ∧ t.err ≠ 0x10 ∧ (t.err = 0x01 → i = .embed)

/-! ### The checks (60_exceptions.md R230, R233, R234) -/

/-- GEOMETRY (R230): it comes before every other check of its commands. -/
def Obligations.GeometryErrors : Prop :=
  ∀ s : State,
    (¬ planeGeometry s.regs → ∀ i ∈ [Instr.predict, .blkEmbed, .blkExtract, .embed, .extract],
      exec i s = .next { s with phase := .idle, done := true, err := 0x11 }) ∧
    (¬ blockGeometry s.regs → ∀ i ∈ [Instr.predict, .blkEmbed, .blkExtract],
      exec i s = .next { s with phase := .idle, done := true, err := 0x11 })

/-- MAP_TOO_LARGE, LENGTH and OUT_CAPACITY (R230), in the order of R234. -/
def Obligations.LengthAndCapacityErrors : Prop :=
  ∀ s : State,
    (planeGeometry s.regs → (s.regs.width.toNat / 3) * (s.regs.height.toNat / 3) < s.regs.mapLen.toNat →
      exec .extract s = .next { s with phase := .idle, done := true, err := 0x02 }) ∧
    (planeGeometry s.regs → s.regs.mapLen.toNat ≤ (s.regs.width.toNat / 3) * (s.regs.height.toNat / 3) →
      s.regs.dstCap.toNat < (5 * s.regs.mapLen.toNat + 7) / 8 →
      exec .extract s = .next { s with phase := .idle, done := true, err := 0x16 }) ∧
    (blockGeometry s.regs → 8 * s.regs.dstCap.toNat < s.regs.bitCursor.toNat + 5 →
      exec .blkExtract s = .next { s with phase := .idle, done := true, err := 0x16 }) ∧
    (s.regs.len.toNat % 8 ≠ 0 →
      exec .shuffle s = .next { s with phase := .idle, done := true, err := 0x12 } ∧
      exec .unshuffle s = .next { s with phase := .idle, done := true, err := 0x12 })

/-- R81: a region out of range, or a block command's cursor without room, is RANGE once the checks before it pass. -/
def Obligations.RangeErrors : Prop :=
  ∀ (i : Instr) (s : State), earlyChecksPass i s.regs →
    (¬ regionsInRange Config.machine i s.regs ∨ ¬ cursorFits i s.regs) →
    exec i s = .next { s with phase := .idle, done := true, err := 0x13 }

/-- R82: a written region that overlaps another is OVERLAP once the checks before it pass. -/
def Obligations.OverlapErrors : Prop :=
  ∀ (i : Instr) (s : State), earlyChecksPass i s.regs → cursorFits i s.regs →
    regionsInRange Config.machine i s.regs → ¬ regionsApart i s.regs →
    exec i s = .next { s with phase := .idle, done := true, err := 0x14 }

/-- R112: a malformed map byte is MAP_FIELD, the last check, before any write. -/
def Obligations.MapFieldErrors : Prop :=
  ∀ s : State,
    (operandsOk Config.machine .blkExtract s.regs → s.regs.mapByte.getLsbD 0 = true →
      4 < (s.regs.mapByte.extractLsb' 2 3).toNat →
      exec .blkExtract s = .next { s with phase := .idle, done := true, err := 0x15 }) ∧
    (operandsOk Config.machine .extract s.regs → s.mem.written s.regs.mapBase.toNat s.regs.mapLen.toNat →
      (∃ k v, k < s.regs.mapLen.toNat ∧ s.mem.read? (s.regs.mapBase.toNat + k) = some v ∧
        v.getLsbD 0 = true ∧ 4 < (v.extractLsb' 2 3).toNat) →
      exec .extract s = .next { s with phase := .idle, done := true, err := 0x15 })

/-! ### Memory (20_memory.md) -/

/-- R73 with R71: a host access of n bytes at an aligned address in BUF, little-endian. -/
def Obligations.HostBufLittleEndian : Prop :=
  ∀ (s : State) (w : Width) (a : Nat) (rest : List Input), s.phase = .idle → a % w.bytes = 0 →
    a + w.bytes ≤ Config.machine.bufBytes →
    (∀ v, s.inputs = .access (.bufWrite w a v) :: rest →
      ∃ m, step s = .next { s with mem := m, inputs := rest, resp := some .ok } ∧
        (∀ k, k < w.bytes → m.read? (a + k) = some (v.extractLsb' (8 * k) 8)) ∧
        ∀ x, ¬ inSpan a w.bytes x → m.read? x = s.mem.read? x) ∧
    (s.inputs = .access (.bufRead w a) :: rest →
      ∃ v f, step s = .next { s with inputs := rest, resp := some (.data v), freePos := f } ∧
        (∀ k b, k < w.bytes → s.mem.read? (a + k) = some b → v.extractLsb' (8 * k) 8 = b) ∧
        v.toNat < 2 ^ (8 * w.bytes))

/-- R71: misaligned host accesses, those past BUF_BYTES, and legal ones while BUSY = 1 (R280). -/
def Obligations.HostBufErrors : Prop :=
  ∀ (s : State) (w : Width) (a : Nat) (v : Word) (rest : List Input),
    (s.inputs = .access (.bufRead w a) :: rest ∨ s.inputs = .access (.bufWrite w a v) :: rest) →
    (s.phase = .idle → ¬ (a % w.bytes = 0 ∧ a + w.bytes ≤ Config.machine.bufBytes) →
      step s = .next { s with inputs := rest, resp := some .busError }) ∧
    (s.phase ≠ .idle → a % w.bytes = 0 ∧ a + w.bytes ≤ Config.machine.bufBytes →
      step s = .fault (.bufAccessWhileBusy a))

/-- R74: the register window takes 32-bit aligned accesses only, a register at its offset, and its reserved offsets are
RAZ/WI. The rows (offset, register, access kind) are those of the register map (R22), written out; CTRL, RW there with a
bit that is WO (R24), is `mixed` as STATUS is. -/
def Obligations.RegisterWindowAccess : Prop :=
  (∀ n : RegName, ((regOffset n).toNat, n, accessKind n) ∈
    [(0x00, .id, .ro), (0x04, .ctrl, .mixed), (0x08, .cmd, .wo), (0x0C, .status, .mixed), (0x10, .width, .rw),
     (0x14, .height, .rw), (0x18, .p1Base, .rw), (0x1C, .p2Base, .rw), (0x20, .srcBase, .rw), (0x24, .len, .rw),
     (0x28, .mapBase, .rw), (0x2C, .mapLen, .rw), (0x30, .dstBase, .rw), (0x34, .dstCap, .rw), (0x38, .outBits, .ro),
     (0x3C, .bitCursor, .rw), (0x40, .bitTotal, .rw), (0x44, .blkX, .rw), (0x48, .blkY, .rw), (0x4C, .mapByte, .rw),
     (0x50, .keyLo, .rw), (0x54, .keyHi, .rw), (0x58, .predMe1, .ro), (0x5C, .predFlags, .ro),
     (0x60, .predDhsb0, .ro), (0x64, .predDhsb1, .ro), (0x68, .predDhsb2, .ro), (0x6C, .predDhsb3, .ro),
     (0x70, .predDhsb4, .ro)]) ∧
  ∀ (s : State) (w : Width) (off : BitVec 8) (v : Word) (rest : List Input),
    (¬ (w = .word ∧ off.toNat % 4 = 0) →
      (s.inputs = .access (.regRead w off) :: rest ∨ s.inputs = .access (.regWrite w off v) :: rest) →
      step s = .next { s with inputs := rest, resp := some .busError }) ∧
    (w = .word → off.toNat % 4 = 0 → 0x74 ≤ off.toNat →
      (s.inputs = .access (.regRead w off) :: rest →
        step s = .next { s with inputs := rest, resp := some (.data 0) }) ∧
      (s.inputs = .access (.regWrite w off v) :: rest →
        step s = .next { s with inputs := rest, resp := some .ok })) ∧
    (∀ n, w = .word → off = regOffset n →
      (s.inputs = .access (.regRead w off) :: rest →
        step s = .next { s with inputs := rest, resp := some (.data (readReg s n)) }) ∧
      (s.inputs = .access (.regWrite w off v) :: rest →
        step s = .next { writeReg { s with inputs := rest } n v with resp := some .ok }))

/-- R86, R72: a command stops the model only at a read of an unwritten byte of BUF in one of its regions; never outside
BUF, and it is never refused. -/
def Obligations.OnlyUnwrittenReadsFault : Prop :=
  ∀ (i : Instr) (s : State), (∀ r, exec i s ≠ .refused r) ∧
    ∀ f, exec i s = .fault f → ∃ a, f = .unwrittenRead a ∧ a < Config.machine.bufBytes ∧
      s.mem.read? a = none ∧ inRegions i s.regs a

/-- R86: the engine faults at a read of an unwritten byte: COMBINE of shares that are not all written. -/
def Obligations.CombineUnwrittenShareFaults : Prop :=
  ∀ s : State, operandsOk Config.machine .combine s.regs →
    ¬ (s.mem.written s.regs.p1Base.toNat s.regs.len.toNat ∧ s.mem.written s.regs.p2Base.toNat s.regs.len.toNat) →
    ∃ a, exec .combine s = .fault (.unwrittenRead a) ∧ s.mem.read? a = none

/-- R83: the regions of each command, with whether it writes them, written out; and a command stores to no byte outside
the regions it writes (the frame of BUF, all ten commands). -/
def Obligations.StoresOnlyInWrittenRegions : Prop :=
  (∀ (i : Instr) (r : Regs),
    let wh := r.width.toNat * r.height.toNat
    let nb := (r.width.toNat / 3) * (r.height.toNat / 3)
    let len := r.len.toNat
    (regionsOf i r).map (fun q => (q.base, q.len, q.writes)) =
      match i with
      | .nop => []
      | .predict => [(r.p1Base.toNat, wh, false), (r.p2Base.toNat, wh, false)]
      | .blkEmbed => [(r.p1Base.toNat, wh, true), (r.p2Base.toNat, wh, false),
          (r.srcBase.toNat, (r.bitTotal.toNat + 7) / 8, false)]
      | .blkExtract => [(r.p1Base.toNat, wh, true), (r.p2Base.toNat, wh, false),
          (r.dstBase.toNat, r.dstCap.toNat, true)]
      | .embed => [(r.p1Base.toNat, wh, true), (r.p2Base.toNat, wh, false), (r.srcBase.toNat, len, false),
          (r.mapBase.toNat, nb, true)]
      | .extract => [(r.p1Base.toNat, wh, true), (r.p2Base.toNat, wh, false), (r.mapBase.toNat, r.mapLen.toNat, false),
          (r.dstBase.toNat, r.dstCap.toNat, true)]
      | .split => [(r.srcBase.toNat, len, false), (r.p1Base.toNat, len, true), (r.p2Base.toNat, len, true)]
      | .combine => [(r.p1Base.toNat, len, false), (r.p2Base.toNat, len, false), (r.dstBase.toNat, len, true)]
      | .shuffle | .unshuffle => [(r.p1Base.toNat, len, true)]) ∧
  ∀ (i : Instr) (s t : State), exec i s = .next t →
    ∀ a, ¬ inWritten i s.regs a → t.mem.read? a = s.mem.read? a

/-- R140, R142, and what the spec derives (its rule R141): the block commands store only to the EP samples of their
block in image 1, BLK_EXTRACT also to the output bytes of the bits it appends; NOP and PREDICT store nothing. -/
def Obligations.BlockCommandFrames : Prop :=
  ∀ s t : State,
    (exec .nop s = .next t → t.mem = s.mem) ∧
    (exec .predict s = .next t → t.mem = s.mem) ∧
    (exec .blkEmbed s = .next t → ∀ a,
      (∀ i, a ≠ sampleAddr s.regs.p1Base.toNat s.regs.width.toNat s.regs.blkX.toNat s.regs.blkY.toNat (epPos i)) →
      t.mem.read? a = s.mem.read? a) ∧
    (exec .blkExtract s = .next t → ∀ a,
      (∀ i, a ≠ sampleAddr s.regs.p1Base.toNat s.regs.width.toNat s.regs.blkX.toNat s.regs.blkY.toNat (epPos i)) →
      (∀ j, s.regs.bitCursor.toNat ≤ j → j < t.regs.bitCursor.toNat → a ≠ s.regs.dstBase.toNat + j / 8) →
      t.mem.read? a = s.mem.read? a)

/-! ### The predictor (40_block_codec.md) -/

/-- R158 with R133, R134, R137 and R138 spelled out: what PREDICT computes, on every block it accepts. -/
def Obligations.PredictResult : Prop :=
  ∀ (s : State) (a b : Fin 9 → Byte), operandsOk Config.machine .predict s.regs →
    holdsBlock s.mem s.regs.p1Base.toNat s.regs.width.toNat s.regs.blkX.toNat s.regs.blkY.toNat a →
    holdsBlock s.mem s.regs.p2Base.toNat s.regs.width.toNat s.regs.blkX.toNat s.regs.blkY.toNat b →
    let h : Fin 9 → Int := fun p => ((a p).toNat / 8 : Nat) + ((b p).toNat / 8 : Nat)
    let d0 := (2 * h 1 - (h 0 + h 2)) / 2
    let d1 := (2 * h 3 - (h 0 + h 6)) / 2
    let d2 := (4 * h 4 - (h 0 + h 2 + h 6 + h 8)) / 4
    let d3 := (2 * h 5 - (h 2 + h 8)) / 2
    let d4 := (2 * h 7 - (h 6 + h 8)) / 2
    let cnt : Int → Nat := fun v => [d0, d1, d2, d3, d4].count v
    ∃ (me : Int) (g : Bool),
      me ∈ [d0, d1, d2, d3, d4] ∧ (∀ v, cnt v < cnt me ∨ (cnt v = cnt me ∧ v ≤ me)) ∧
      (g = true ↔ ∃ p ∈ [(1 : Fin 9), 3, 4, 5, 7], 247 < (a p).toNat ∨ 247 < (b p).toNat) ∧
      exec .predict s = .next { s with phase := .idle, done := true, err := 0x00, regs := { s.regs with
        predDhsb0 := BitVec.ofInt 32 d0, predDhsb1 := BitVec.ofInt 32 d1, predDhsb2 := BitVec.ofInt 32 d2,
        predDhsb3 := BitVec.ofInt 32 d3, predDhsb4 := BitVec.ofInt 32 d4, predMe1 := BitVec.ofInt 32 me,
        predGuard := g } }

/-- The range of N_i, of the residuals, of the peak and of the recovered peak, which the spec derives from R133 and R134
(its rule R136). -/
def Obligations.ResidualRange : Prop :=
  ∀ (a b : Fin 9 → Byte) (i : Fin 5),
    (i ≠ 2 → -124 ≤ residualSum a b i ∧ residualSum a b i ≤ 124) ∧
    (-248 ≤ residualSum a b 2 ∧ residualSum a b 2 ≤ 248) ∧
    (-62 ≤ dHsb a b i ∧ dHsb a b i ≤ 62) ∧
    (-62 ≤ peak (dHsb a b) ∧ peak (dHsb a b) ≤ 62) ∧
    ∀ rdu : Bool, -63 ≤ dHsb a b i - (if rdu then 1 else 0) ∧ dHsb a b i - (if rdu then 1 else 0) ≤ 62

/-- The shift property, which the spec derives from R133 and R134 (its rule R135). -/
def Obligations.ShiftProperty : Prop :=
  ∀ (a b : Fin 9 → Byte) (i : Fin 5),
    ((a (epPos i)).toNat ≤ 247 →
      hsb (a (epPos i) + 8) = hsb (a (epPos i)) + 1 ∧
      residualSum (Function.update a (epPos i) (a (epPos i) + 8)) b i
        = residualSum a b i + ((epNeighbours i).length : Int) ∧
      dHsb (Function.update a (epPos i) (a (epPos i) + 8)) b i = dHsb a b i + 1 ∧
      ∀ j, j ≠ i → dHsb (Function.update a (epPos i) (a (epPos i) + 8)) b j = dHsb a b j) ∧
    (8 ≤ (a (epPos i)).toNat →
      dHsb (Function.update a (epPos i) (a (epPos i) - 8)) b i = dHsb a b i - 1 ∧
      ∀ j, j ≠ i → dHsb (Function.update a (epPos i) (a (epPos i) - 8)) b j = dHsb a b j)

/-- R138: Me1 is one of the residuals, occurs most often, and is the largest that does. -/
def Obligations.PeakIsMode : Prop :=
  ∀ d : Fin 5 → Int, (∃ i, peak d = d i) ∧
    ∀ v, residualCount d v < residualCount d (peak d) ∨
      (residualCount d v = residualCount d (peak d) ∧ v ≤ peak d)

/-- R139: the engine's histogram table of 125 counters gives the same peak. -/
def Obligations.HistogramGivesPeak : Prop :=
  ∀ d : Fin 5 → Int, (∀ i, -62 ≤ d i ∧ d i ≤ 62) →
    (histogram d).length = 125 ∧ (∀ v, -62 ≤ v → v ≤ 62 → (histogram d)[(v + 62).toNat]? = some (residualCount d v)) ∧
    peakByHistogram d = peak d

/-- What the spec derives from R137, R140 and R142 (its rule R144, first sentence): a block the guard rejects is left
unchanged, with map byte 0x00 and the cursor as it was; and extraction with such a byte (INUSE = 0) does nothing
either. -/
def Obligations.RejectedBlockUnchanged : Prop :=
  ∀ s : State,
    (∀ a b : Fin 9 → Byte, operandsOk Config.machine .blkEmbed s.regs →
      (∀ i, s.mem.read? (sampleAddr s.regs.p1Base.toNat s.regs.width.toNat s.regs.blkX.toNat s.regs.blkY.toNat (epPos i))
        = some (a (epPos i))) →
      (∀ i, s.mem.read? (sampleAddr s.regs.p2Base.toNat s.regs.width.toNat s.regs.blkX.toNat s.regs.blkY.toNat (epPos i))
        = some (b (epPos i))) →
      (∃ i, 247 < (a (epPos i)).toNat ∨ 247 < (b (epPos i)).toNat) →
      exec .blkEmbed s = .next { s with phase := .idle, done := true, err := 0x00,
                                        regs := { s.regs with mapByte := 0x00 } }) ∧
    (operandsOk Config.machine .blkExtract s.regs → s.regs.mapByte.getLsbD 0 = false →
      exec .blkExtract s = .next { s with phase := .idle, done := true, err := 0x00 })

/-- R140 with R141 and R156: BLK_EMBED on every block the guard accepts: the bits taken, the map byte, the cursor, each
EP sample after it, and nothing else changed. -/
def Obligations.BlkEmbedResult : Prop :=
  ∀ (s : State) (a b : Fin 9 → Byte) (pay : Nat → Bool), operandsOk Config.machine .blkEmbed s.regs →
    holdsBlock s.mem s.regs.p1Base.toNat s.regs.width.toNat s.regs.blkX.toNat s.regs.blkY.toNat a →
    holdsBlock s.mem s.regs.p2Base.toNat s.regs.width.toNat s.regs.blkX.toNat s.regs.blkY.toNat b →
    (∀ i, (a (epPos i)).toNat ≤ 247 ∧ (b (epPos i)).toNat ≤ 247) →
    let d := dHsb a b
    let me := peak d
    let c := s.regs.bitCursor.toNat
    let n := residualCount d me
    payloadIs s.mem s.regs.srcBase.toNat s.regs.bitTotal.toNat c (c + n) pay →
    ∃ (m : Memory) (first : Fin 5),
      d first = me ∧ (∀ j, j < first → d j ≠ me) ∧ 1 ≤ n ∧ n ≤ 5 ∧
      exec .blkEmbed s = .next { s with phase := .idle, done := true, err := 0x00, mem := m, regs := { s.regs with
        mapByte := BitVec.ofNat 8 (1 + 2 * (pay c).toNat + 4 * first.val), bitCursor := BitVec.ofNat 32 (c + n) } } ∧
      (∀ i, m.read? (sampleAddr s.regs.p1Base.toNat s.regs.width.toNat s.regs.blkX.toNat s.regs.blkY.toNat (epPos i)) =
        some (if d i = me ∧ pay (c + countBefore (fun j => d j == me) i) = true ∨ me < d i
          then a (epPos i) + 8 else a (epPos i))) ∧
      ∀ x, (∀ i, x ≠ sampleAddr s.regs.p1Base.toNat s.regs.width.toNat s.regs.blkX.toNat s.regs.blkY.toNat (epPos i)) →
        m.read? x = s.mem.read? x

/-- R142 with R157: BLK_EXTRACT with INUSE = 1: the bits appended, the samples shifted back, and nothing else changed,
the other bits of the output bytes included. -/
def Obligations.BlkExtractResult : Prop :=
  ∀ (s : State) (a b : Fin 9 → Byte) (k : Fin 5), operandsOk Config.machine .blkExtract s.regs →
    holdsBlock s.mem s.regs.p1Base.toNat s.regs.width.toNat s.regs.blkX.toNat s.regs.blkY.toNat a →
    holdsBlock s.mem s.regs.p2Base.toNat s.regs.width.toNat s.regs.blkX.toNat s.regs.blkY.toNat b →
    s.regs.mapByte.getLsbD 0 = true → (s.regs.mapByte.extractLsb' 2 3).toNat = k.val →
    let d := dHsb a b
    let me := d k - (if s.regs.mapByte.getLsbD 1 then 1 else 0)
    let carries : Fin 5 → Bool := fun i => decide (d i = me ∨ d i = me + 1)
    let c := s.regs.bitCursor.toNat
    let n := (epIndices.filter carries).length
    (∀ j, c ≤ j → j < c + n → (s.mem.read? (s.regs.dstBase.toNat + j / 8)).isSome) →
    ∃ m : Memory,
      exec .blkExtract s = .next { s with phase := .idle, done := true, err := 0x00, mem := m,
                                          regs := { s.regs with bitCursor := BitVec.ofNat 32 (c + n) } } ∧
      (∀ i, m.read? (sampleAddr s.regs.p1Base.toNat s.regs.width.toNat s.regs.blkX.toNat s.regs.blkY.toNat (epPos i)) =
        some (if me < d i then a (epPos i) - 8 else a (epPos i))) ∧
      (∀ i, carries i = true → ∃ v,
        m.read? (s.regs.dstBase.toNat + (c + countBefore carries i) / 8) = some v ∧
        v.getLsbD ((c + countBefore carries i) % 8) = decide (d i = me + 1)) ∧
      (∀ j v, s.mem.read? (s.regs.dstBase.toNat + j / 8) = some v → j < 8 * s.regs.dstCap.toNat →
        ¬ (c ≤ j ∧ j < c + n) →
        ∃ v', m.read? (s.regs.dstBase.toNat + j / 8) = some v' ∧ v'.getLsbD (j % 8) = v.getLsbD (j % 8)) ∧
      ∀ x, (∀ i, x ≠ sampleAddr s.regs.p1Base.toNat s.regs.width.toNat s.regs.blkX.toNat s.regs.blkY.toNat (epPos i)) →
        (∀ j, c ≤ j → j < c + n → x ≠ s.regs.dstBase.toNat + j / 8) → m.read? x = s.mem.read? x

/-- The round trip of one block, which the spec derives from R135, R140 and R142 (its rule R143): BLK_EMBED, the
cursor put back, BLK_EXTRACT with the map byte it left, into any output region. -/
def Obligations.BlockRoundTrip : Prop :=
  ∀ (s t u : State) (db dc : Word), exec .blkEmbed s = .next t → t.err = 0x00 →
    exec .blkExtract { t with regs := { t.regs with bitCursor := s.regs.bitCursor, dstBase := db, dstCap := dc } } = .next u →
    u.err = 0x00 →
    u.regs.bitCursor = t.regs.bitCursor ∧
    (∀ a, inSpan s.regs.p1Base.toNat (s.regs.width.toNat * s.regs.height.toNat) a → u.mem.read? a = s.mem.read? a) ∧
    ∀ j, s.regs.bitCursor.toNat ≤ j → j < t.regs.bitCursor.toNat → ∃ v, u.mem.read? (db.toNat + j / 8) = some v ∧
      (j < s.regs.bitTotal.toNat → ∃ p, s.mem.read? (s.regs.srcBase.toNat + j / 8) = some p ∧
        v.getLsbD (j % 8) = p.getLsbD (j % 8)) ∧
      (s.regs.bitTotal.toNat ≤ j → v.getLsbD (j % 8) = false)

/-! ### The driver (41_driver.md) -/

/-- R172 with R140, R170, R179, and the properties the spec derives from it (its rule R173): what EMBED computes, block by
block, on every plane pair and payload that are written; `a k` and `b k` are the k-th visited blocks as they were, `pay` the
payload and filler bits, `cur k` the cursor before block k. It completes with one of its two codes. -/
def Obligations.EmbedResult : Prop :=
  ∀ (s : State) (a b : Nat → Fin 9 → Byte) (pay : Nat → Bool), operandsOk Config.machine .embed s.regs →
    let hb := s.regs.height.toNat / 3
    let nb := (s.regs.width.toNat / 3) * hb
    let total := 8 * s.regs.len.toNat
    let ep := fun k i => sampleAddr s.regs.p1Base.toNat s.regs.width.toNat (3 * (k / hb)) (3 * (k % hb)) (epPos i)
    (∀ k, k < nb →
      holdsBlock s.mem s.regs.p1Base.toNat s.regs.width.toNat (3 * (k / hb)) (3 * (k % hb)) (a k) ∧
      holdsBlock s.mem s.regs.p2Base.toNat s.regs.width.toNat (3 * (k / hb)) (3 * (k % hb)) (b k)) →
    payloadIs s.mem s.regs.srcBase.toNat total 0 (total + 4) pay →
    let d := fun k => dHsb (a k) (b k)
    let rejected := fun k => guardHolds .both (a k) (b k)
    let cur := fun k => ((List.range k).map fun j => if rejected j then 0 else residualCount (d j) (peak (d j))).sum
    ∃ (m : Memory) (n : Nat) (e : BitVec 8), n ≤ nb ∧ (∀ k, k < n → cur k < total) ∧ (n = nb ∨ total ≤ cur n) ∧
      exec .embed s = .next { s with phase := .idle, done := true, err := e, mem := m, regs := { s.regs with
        mapLen := BitVec.ofNat 32 n, bitCursor := BitVec.ofNat 32 (cur n) } } ∧
      n < 2 ^ 32 ∧ cur n < 2 ^ 32 ∧ cur n ≤ 5 * n ∧
      (total ≤ cur n → e = 0x00 ∧ cur n - total ≤ 4) ∧ (cur n < total → e = 0x01 ∧ n = nb) ∧
      ∀ k, k < n →
        (rejected k = true → m.read? (s.regs.mapBase.toNat + k) = some 0x00 ∧
          ∀ i, m.read? (ep k i) = some (a k (epPos i))) ∧
        (rejected k = false → ∃ first : Fin 5, d k first = peak (d k) ∧ (∀ j, j < first → d k j ≠ peak (d k)) ∧
          m.read? (s.regs.mapBase.toNat + k) =
            some (BitVec.ofNat 8 (1 + 2 * (pay (cur k)).toNat + 4 * first.val)) ∧
          ∀ i, m.read? (ep k i) = some
            (if d k i = peak (d k) ∧ pay (cur k + countBefore (fun j => d k j == peak (d k)) i) = true ∨
                peak (d k) < d k i
              then a k (epPos i) + 8 else a k (epPos i)))

/-- What the spec derives from R141 and R172 (its rule R173): EMBED stores only to EP samples of the first MAP_LEN
blocks of image 1, in the order of R170, and to the first MAP_LEN bytes of the map: image 2, the SPs and the payload
are unchanged. -/
def Obligations.EmbedFrame : Prop :=
  ∀ s t : State, exec .embed s = .next t → ∀ a,
    (∀ k i, k < t.regs.mapLen.toNat → a ≠ sampleAddr s.regs.p1Base.toNat s.regs.width.toNat
      (3 * (k / (s.regs.height.toNat / 3))) (3 * (k % (s.regs.height.toNat / 3))) (epPos i)) →
    ¬ inSpan s.regs.mapBase.toNat t.regs.mapLen.toNat a → t.mem.read? a = s.mem.read? a

/-- What the spec derives from R141 and R172 (its rule R180), with R174: EMBED succeeds exactly if the payload fits
the sum of the peak counts of the accepted blocks, each computed from the planes as they were; if not, every block has
been visited and that sum consumed. -/
def Obligations.EmbedCapacity : Prop :=
  ∀ (s : State) (a b : Nat → Fin 9 → Byte), operandsOk Config.machine .embed s.regs →
    s.mem.written s.regs.srcBase.toNat s.regs.len.toNat →
    let hb := s.regs.height.toNat / 3
    let nb := (s.regs.width.toNat / 3) * hb
    (∀ k, k < nb →
      holdsBlock s.mem s.regs.p1Base.toNat s.regs.width.toNat (3 * (k / hb)) (3 * (k % hb)) (a k) ∧
      holdsBlock s.mem s.regs.p2Base.toNat s.regs.width.toNat (3 * (k / hb)) (3 * (k % hb)) (b k)) →
    let cap := ((List.range nb).map (fun k => if guardHolds .both (a k) (b k) then 0
      else residualCount (dHsb (a k) (b k)) (peak (dHsb (a k) (b k))))).sum
    ∃ t, exec .embed s = .next t ∧
      (8 * s.regs.len.toNat ≤ cap → t.err = 0x00) ∧
      (cap < 8 * s.regs.len.toNat → t.err = 0x01 ∧ t.regs.mapLen.toNat = nb ∧ t.regs.bitCursor.toNat = cap)

/-- R175 with R142, R170, R176 and R177: what EXTRACT computes, block by block, for ANY well-formed map `info`, of the
planes or not; `a k` and `b k` are the k-th visited blocks as they were, `f k` the EP that COUNT_EP names, `cur k` the cursor
before block k. A byte with INUSE = 0 is a no-op, and neither block is asked for. It completes with OK; the bits from
OUT_BITS to the end of the zero-filled bytes are 0. -/
def Obligations.ExtractResult : Prop :=
  ∀ (s : State) (a b : Nat → Fin 9 → Byte) (info : Nat → Byte) (f : Nat → Fin 5),
    operandsOk Config.machine .extract s.regs →
    let hb := s.regs.height.toNat / 3
    let n := s.regs.mapLen.toNat
    let ep := fun k i => sampleAddr s.regs.p1Base.toNat s.regs.width.toNat (3 * (k / hb)) (3 * (k % hb)) (epPos i)
    let used := fun k => (info k).getLsbD 0
    (∀ k, k < n → s.mem.read? (s.regs.mapBase.toNat + k) = some (info k)) →
    (∀ k, k < n → used k = true → ((info k).extractLsb' 2 3).toNat = (f k).val ∧
      holdsBlock s.mem s.regs.p1Base.toNat s.regs.width.toNat (3 * (k / hb)) (3 * (k % hb)) (a k) ∧
      holdsBlock s.mem s.regs.p2Base.toNat s.regs.width.toNat (3 * (k / hb)) (3 * (k % hb)) (b k)) →
    let d := fun k => dHsb (a k) (b k)
    let me := fun k => d k (f k) - (if (info k).getLsbD 1 then 1 else 0)
    let carries : Nat → Fin 5 → Bool := fun k i => decide (d k i = me k ∨ d k i = me k + 1)
    let cur := fun k => ((List.range k).map fun j => if used j then (epIndices.filter (carries j)).length else 0).sum
    let fill := (5 * n + 7) / 8
    ∃ m : Memory, cur n ≤ 5 * n ∧ cur n < 2 ^ 32 ∧
      exec .extract s = .next { s with phase := .idle, done := true, err := 0x00, mem := m, regs := { s.regs with
        outBits := BitVec.ofNat 32 (cur n), bitCursor := BitVec.ofNat 32 (cur n) } } ∧
      m.written s.regs.dstBase.toNat fill ∧
      (∀ k, k < n → ∀ i,
        (used k = false → m.read? (ep k i) = s.mem.read? (ep k i)) ∧
        (used k = true →
          m.read? (ep k i) = some (if me k < d k i then a k (epPos i) - 8 else a k (epPos i)) ∧
          (carries k i = true → ∃ v,
            m.read? (s.regs.dstBase.toNat + (cur k + countBefore (carries k) i) / 8) = some v ∧
            v.getLsbD ((cur k + countBefore (carries k) i) % 8) = decide (d k i = me k + 1)))) ∧
      ∀ j, cur n ≤ j → j < 8 * fill → ∃ v, m.read? (s.regs.dstBase.toNat + j / 8) = some v ∧ v.getLsbD (j % 8) = false

/-- R175, R176: EXTRACT stores only to EP samples of the first MAP_LEN blocks of image 1 and to the first
ceildiv(5·MAP_LEN, 8) bytes of the output. -/
def Obligations.ExtractFrame : Prop :=
  ∀ s t : State, exec .extract s = .next t → ∀ a,
    (∀ k i, k < s.regs.mapLen.toNat → a ≠ sampleAddr s.regs.p1Base.toNat s.regs.width.toNat
      (3 * (k / (s.regs.height.toNat / 3))) (3 * (k % (s.regs.height.toNat / 3))) (epPos i)) →
    ¬ inSpan s.regs.dstBase.toNat ((5 * s.regs.mapLen.toNat + 7) / 8) a → t.mem.read? a = s.mem.read? a

/-- The plane round trip, which the spec derives from R143, R172 and R175 (its rule R178), with R179, into any output
region: after EMBED, successful or short of capacity, EXTRACT
restores image 1 and returns the payload bits it took and then filler zeros. -/
def Obligations.PlaneRoundTrip : Prop :=
  ∀ (s t u : State) (db dc : Word), exec .embed s = .next t → t.err = 0x00 ∨ t.err = 0x01 →
    exec .extract { t with regs := { t.regs with dstBase := db, dstCap := dc } } = .next u → u.err = 0x00 →
    u.regs.outBits = t.regs.bitCursor ∧
    (∀ a, inSpan s.regs.p1Base.toNat (s.regs.width.toNat * s.regs.height.toNat) a → u.mem.read? a = s.mem.read? a) ∧
    ∀ j, j < t.regs.bitCursor.toNat → ∃ v, u.mem.read? (db.toNat + j / 8) = some v ∧
      (j < 8 * s.regs.len.toNat → ∃ p, s.mem.read? (s.regs.srcBase.toNat + j / 8) = some p ∧
        v.getLsbD (j % 8) = p.getLsbD (j % 8)) ∧
      (8 * s.regs.len.toNat ≤ j → v.getLsbD (j % 8) = false)

/-! ### The shares (42_split_combine.md) -/

/-- What the spec derives from R191 (its rule R192): the two shares of a byte, under either partition and for every
random byte. -/
def Obligations.SharesSumToSource : Prop :=
  ∀ (part : SplitPartition) (s r : Byte),
    (splitByte part s r).1.toNat / 8 + (splitByte part s r).2.toNat / 8 = s.toNat / 8 ∧
    (splitByte part s r).1.toNat % 8 + (splitByte part s r).2.toNat % 8 = s.toNat % 8 ∧
    (splitByte part s r).1.toNat + (splitByte part s r).2.toNat = s.toNat ∧
    (splitByte part s r).1.toNat ≤ s.toNat ∧ (splitByte part s r).2.toNat ≤ s.toNat

/-- R190, R191 with SPLIT_PARTITION = MOD, and R195: SPLIT's shares, its LEN draws, and nothing else changed. -/
def Obligations.SplitResult : Prop :=
  ∀ s : State, operandsOk Config.machine .split s.regs → s.mem.written s.regs.srcBase.toNat s.regs.len.toNat →
    ∃ m : Memory,
      exec .split s = .next { s with phase := .idle, done := true, err := 0x00, mem := m,
                                     rng8Pos := s.rng8Pos + s.regs.len.toNat } ∧
      (∀ k v, k < s.regs.len.toNat → s.mem.read? (s.regs.srcBase.toNat + k) = some v →
        let r := Config.machine.rng8 (s.rng8Pos + k)
        let ah := (r.toNat / 8) % (v.toNat / 8 + 1)
        let al := (r.toNat % 8) % (v.toNat % 8 + 1)
        m.read? (s.regs.p1Base.toNat + k) = some (BitVec.ofNat 8 (8 * ah + al)) ∧
        m.read? (s.regs.p2Base.toNat + k) = some (BitVec.ofNat 8 (8 * (v.toNat / 8 - ah) + (v.toNat % 8 - al)))) ∧
      ∀ a, ¬ inSpan s.regs.p1Base.toNat s.regs.len.toNat a → ¬ inSpan s.regs.p2Base.toNat s.regs.len.toNat a →
        m.read? a = s.mem.read? a

/-- R193: COMBINE's bytes, wrapping mod 256, and nothing else changed; the two shares may be one. -/
def Obligations.CombineResult : Prop :=
  ∀ s : State, operandsOk Config.machine .combine s.regs →
    s.mem.written s.regs.p1Base.toNat s.regs.len.toNat → s.mem.written s.regs.p2Base.toNat s.regs.len.toNat →
    ∃ m : Memory,
      exec .combine s = .next { s with phase := .idle, done := true, err := 0x00, mem := m } ∧
      (∀ k v w, k < s.regs.len.toNat → s.mem.read? (s.regs.p1Base.toNat + k) = some v →
        s.mem.read? (s.regs.p2Base.toNat + k) = some w →
        m.read? (s.regs.dstBase.toNat + k) = some (BitVec.ofNat 8 ((v.toNat + w.toNat) % 256))) ∧
      ∀ a, ¬ inSpan s.regs.dstBase.toNat s.regs.len.toNat a → m.read? a = s.mem.read? a

/-- What the spec derives from R192 and R193 (its rule R194): COMBINE of the two shares that SPLIT wrote gives the
source back, for every configuration: either partition, every sequence of draws. -/
def Obligations.ShareReversibility : Prop :=
  ∀ (P : Config) (s t u : State) (db : Word), splitCommand P s = .next t → t.err = 0x00 →
    combineCommand P { t with regs := { t.regs with dstBase := db } } = .next u → u.err = 0x00 →
    ∀ k, k < s.regs.len.toNat →
      (s.mem.read? (s.regs.srcBase.toNat + k)).isSome ∧
      u.mem.read? (db.toNat + k) = s.mem.read? (s.regs.srcBase.toNat + k)

/-! ### The permutation engine (43_permutation.md) -/

/-- R201: `Perm(n, KEY)` as the loop computes it, said as a recurrence on the array after k swaps (swap k is for
i = n − 1 − k); it is a permutation of 0..n−1 and uses draws 0 to n − 2 only. -/
def Obligations.PermIsPermutation : Prop :=
  ∀ (n : Nat) (draw : Nat → Word),
    (∃ idx : Nat → Nat → Nat, (∀ c, idx 0 c = c) ∧
      (∀ i k j, k < n - 1 → i = n - 1 - k → j = (draw k).toNat % (i + 1) →
        idx (k + 1) i = idx k j ∧ idx (k + 1) j = idx k i ∧ ∀ c, c ≠ i → c ≠ j → idx (k + 1) c = idx k c) ∧
      permIndex n draw = (List.range n).map (idx (n - 1))) ∧
    (permIndex n draw).Perm (List.range n) ∧
    ∀ draw' : Nat → Word, (∀ k, k < n - 1 → draw' k = draw k) → permIndex n draw' = permIndex n draw

/-- R202: SHUFFLE puts X[idx[c]] in chunk c, and changes nothing else. -/
def Obligations.ShuffleResult : Prop :=
  ∀ s : State, operandsOk Config.machine .shuffle s.regs → s.mem.written s.regs.p1Base.toNat s.regs.len.toNat →
    let idx := permIndex (s.regs.len.toNat / 8) (Config.machine.prng32 (s.regs.keyHi ++ s.regs.keyLo))
    ∃ m : Memory,
      exec .shuffle s = .next { s with phase := .idle, done := true, err := 0x00, mem := m } ∧
      (∀ c j k, idx[c]? = some j → k < 8 →
        m.read? (s.regs.p1Base.toNat + 8 * c + k) = s.mem.read? (s.regs.p1Base.toNat + 8 * j + k)) ∧
      ∀ a, ¬ inSpan s.regs.p1Base.toNat s.regs.len.toNat a → m.read? a = s.mem.read? a

/-- R204: UNSHUFFLE puts Y[c] in chunk idx[c], and changes nothing else. -/
def Obligations.UnshuffleResult : Prop :=
  ∀ s : State, operandsOk Config.machine .unshuffle s.regs → s.mem.written s.regs.p1Base.toNat s.regs.len.toNat →
    let idx := permIndex (s.regs.len.toNat / 8) (Config.machine.prng32 (s.regs.keyHi ++ s.regs.keyLo))
    ∃ m : Memory,
      exec .unshuffle s = .next { s with phase := .idle, done := true, err := 0x00, mem := m } ∧
      (∀ c j k, idx[c]? = some j → k < 8 →
        m.read? (s.regs.p1Base.toNat + 8 * j + k) = s.mem.read? (s.regs.p1Base.toNat + 8 * c + k)) ∧
      ∀ a, ¬ inSpan s.regs.p1Base.toNat s.regs.len.toNat a → m.read? a = s.mem.read? a

/-- What the spec derives from R202 and R204 (its rule R206): SHUFFLE then UNSHUFFLE, and UNSHUFFLE then SHUFFLE, with
the same registers restore every byte, for every configuration: every generator. -/
def Obligations.PermutationReversibility : Prop :=
  ∀ (P : Config) (s t : State), t.err = 0x00 →
    (shuffleCommand P s = .next t →
      ∃ u, unshuffleCommand P t = .next u ∧ u.err = 0x00 ∧ ∀ a, u.mem.read? a = s.mem.read? a) ∧
    (unshuffleCommand P s = .next t →
      ∃ u, shuffleCommand P t = .next u ∧ u.err = 0x00 ∧ ∀ a, u.mem.read? a = s.mem.read? a)

/-! ### NOP, scripts and the invariants -/

/-- R215: NOP completes in every state, and only STATUS changes, OVR excepted; while BUSY = 1 it is not accepted and
sets OVR. -/
def Obligations.NopResult : Prop :=
  ∀ s : State, exec .nop s = .next { s with phase := .idle, done := true, err := 0x00 } ∧
    (s.phase ≠ .idle → writeReg s .cmd 0x00000000 = { s with ovr := true })

/-- R120, R121: SETKEY loads the key; RUN submits a command, the engine runs it, and WAIT ends with the STATUS read
that sees BUSY = 0. That the engine moves while the host waits is the model's choice (log 20). -/
def Obligations.ScriptStatements : Prop :=
  (∀ (s : State) (k : Key) (rest : List Input), s.phase = .idle → s.inputs = scriptInputs (stmtSetKey k) ++ rest →
    ∃ t u, step s = .next t ∧ step t = .next u ∧ keyOf u.regs = k ∧ u.inputs = rest) ∧
  ∀ (s : State) (i : Instr) (rest : List Input), s.phase = .idle → s.inputs = scriptInputs (stmtRun i) ++ rest →
    ∃ t, step s = .next t ∧ t.phase = .busy (encode i) ∧ step t = exec i t ∧
      ∀ u, exec i t = .next u →
        step u = .next { u with inputs := rest, resp := some (.data (readReg u .status)) } ∧
        (readReg u .status).getLsbD 0 = false

/-- The invariants hold after reset. -/
def Obligations.ResetMeetsInvariants : Prop :=
  State.reset.Inv Config.machine ∧ predInRange State.reset.regs

/-- Every step keeps the invariant: BUF stays canonical and inside BUF_BYTES (R35), ERR stays a legal code (R230), and
while BUSY = 1, DONE = 0 and ERR = 0x00 (R26, R27, R29). -/
def Obligations.StepKeepsInvariant : Prop :=
  ∀ s t : State, s.Inv Config.machine → step s = .next t → t.Inv Config.machine

/-- Every step keeps the PRED registers in the range of R136. -/
def Obligations.StepKeepsPredRange : Prop :=
  ∀ s t : State, predInRange s.regs → step s = .next t → predInRange t.regs
end

