-- ==== Sys2Proof/Laws/Memory.lean ====
section
/-! SUPPORT. The laws of one byte of BUF: read after write, the canonical form, and equality by reading. -/

namespace Sys2Proof.Machine

@[simp] theorem read?_nil (a : Nat) : Memory.read? [] a = none := rfl

@[simp] theorem read?_write_same (m : Memory) (a : Nat) (v : Byte) : (m.write a v).read? a = some v := by
  induction m with
  | nil => simp [Memory.write, Memory.read?]
  | cons x m ih =>
    obtain ⟨b, w⟩ := x
    simp only [Memory.write]
    split
    · simp [Memory.read?]
    · split
      · simp [Memory.read?]
      · next h => simpa [Memory.read?, h] using ih

theorem read?_write_other (m : Memory) {a b : Nat} (v : Byte) (h : b ≠ a) :
    (m.write a v).read? b = m.read? b := by
  induction m with
  | nil => simp [Memory.write, Memory.read?, h]
  | cons x m ih =>
    obtain ⟨c, w⟩ := x
    simp only [Memory.write]
    split
    · simp [Memory.read?, h]
    · split
      · next hac => subst hac; simp [Memory.read?, h]
      · simp only [Memory.read?]; split
        · rfl
        · exact ih

theorem read?_write (m : Memory) (a b : Nat) (v : Byte) :
    (m.write a v).read? b = if b = a then some v else m.read? b := by
  by_cases h : b = a
  · subst h; simp
  · simp [h, read?_write_other m v h]

/-- A write lists nothing but its own cell beside the cells there were. -/
theorem mem_write {m : Memory} {a : Nat} {v : Byte} {x : Host.Cell} (h : x ∈ m.write a v) : x = (a, v) ∨ x ∈ m := by
  induction m with
  | nil => simpa [Memory.write] using h
  | cons y m ih =>
    obtain ⟨b, w⟩ := y
    simp only [Memory.write] at h
    split at h
    · simpa using h
    · split at h
      · rcases List.mem_cons.1 h with h | h
        · exact .inl h
        · exact .inr (List.mem_cons_of_mem _ h)
      · rcases List.mem_cons.1 h with h | h
        · exact .inr (h ▸ List.mem_cons_self)
        · exact (ih h).imp id (List.mem_cons_of_mem _)

theorem write_wf {m : Memory} (hm : m.wf) (a : Nat) (v : Byte) : (m.write a v).wf := by
  induction m with
  | nil => simp [Memory.write, Memory.wf]
  | cons y m ih =>
    obtain ⟨b, w⟩ := y
    have hc := List.pairwise_cons.1 hm
    simp only [Memory.write]
    split
    · next hlt =>
      refine List.pairwise_cons.2 ⟨fun x hx => ?_, hm⟩
      rcases List.mem_cons.1 hx with rfl | hx
      · exact hlt
      · exact hlt.trans (hc.1 x hx)
    · split
      · next heq => subst heq; exact List.pairwise_cons.2 ⟨hc.1, hc.2⟩
      · refine List.pairwise_cons.2 ⟨fun x hx => ?_, ih hc.2⟩
        rcases mem_write hx with rfl | hx
        · simp only; omega
        · exact hc.1 x hx

theorem mem_of_read? {m : Memory} {a : Nat} {v : Byte} (h : m.read? a = some v) : (a, v) ∈ m := by
  induction m with
  | nil => simp at h
  | cons y m ih =>
    obtain ⟨b, w⟩ := y
    simp only [Memory.read?] at h
    split at h
    · next hab => cases h; subst hab; exact List.mem_cons_self
    · exact List.mem_cons_of_mem _ (ih h)

theorem read?_of_mem {m : Memory} (hm : m.wf) {a : Nat} {v : Byte} (h : (a, v) ∈ m) : m.read? a = some v := by
  induction m with
  | nil => simp at h
  | cons y m ih =>
    obtain ⟨b, w⟩ := y
    have hc := List.pairwise_cons.1 hm
    rcases List.mem_cons.1 h with h | h
    · cases h; simp [Memory.read?]
    · have hlt : b < a := hc.1 _ h
      simpa [Memory.read?, Nat.ne_of_gt hlt] using ih hc.2 h

/-- In canonical form, memories that read alike are equal data. -/
theorem Memory.ext_read {m m' : Memory} (hm : m.wf) (hm' : m'.wf) (h : ∀ a, m.read? a = m'.read? a) : m = m' := by
  have key : ∀ {l : Memory}, l.wf → l.Nodup := fun hl => hl.imp (fun hxy he => by subst he; exact lt_irrefl _ hxy)
  refine List.Perm.eq_of_pairwise (le := fun x y => x.1 < y.1) ?_ hm hm' ?_
  · intro x y _ _ hxy hyx; exact absurd hxy (by omega)
  · refine (List.perm_ext_iff_of_nodup (key hm) (key hm')).2 fun ⟨a, v⟩ => ⟨fun hx => ?_, fun hx => ?_⟩
    · exact mem_of_read? ((h a) ▸ read?_of_mem hm hx)
    · exact mem_of_read? ((h a).symm ▸ read?_of_mem hm' hx)

end Sys2Proof.Machine
end

