-- ==== Sys2Proof/Laws/Access.lean ====
section
/-! SUPPORT. What an operation of the engine can do to BUF, said once per operation: `Touches P T S m x f` says that `x`,
started on memory `m`, accesses only addresses in `T`, stores only to addresses in `S`, keeps the canonical form and
every written mark, and stops only for an access in `T` that is unwritten or outside BUF. -/

namespace Sys2Proof.Machine

/-- `m'` comes from `m` by stores to addresses in `S` inside BUF. -/
structure Kept (P : Config) (S : Nat → Prop) (m m' : Memory) : Prop where
  wf    : m.wf → m'.wf
  inBuf : m.inBuf P → m'.inBuf P
  frame : ∀ a, ¬ S a → m'.read? a = m.read? a
  marks : ∀ a, (m.read? a).isSome → (m'.read? a).isSome

/-- `f` stops the engine for an access in `T`: of a byte unwritten in `m`, or of an address outside BUF. -/
def FaultIn (P : Config) (T : Nat → Prop) (m : Memory) (f : Fault) : Prop :=
  ∃ a, T a ∧ ((f = .unwrittenRead a ∧ a < P.bufBytes ∧ m.read? a = none) ∨ (f = .outsideBuf a ∧ P.bufBytes ≤ a))

/-- What an operation on memory does, whichever way it ends. -/
def Touches {α : Type} (P : Config) (T S : Nat → Prop) (m : Memory) (x : Except Fault α) (mem : α → Memory) : Prop :=
  match x with
  | .ok a => Kept P S m (mem a)
  | .error f => FaultIn P T m f

variable {α β : Type} {P : Config} {T S T' S' : Nat → Prop} {m m' m'' : Memory}

theorem Kept.refl (P : Config) (S : Nat → Prop) (m : Memory) : Kept P S m m := ⟨id, id, fun _ _ => rfl, fun _ h => h⟩

theorem Kept.trans (h : Kept P S m m') (h' : Kept P S m' m'') : Kept P S m m'' :=
  ⟨h'.wf ∘ h.wf, h'.inBuf ∘ h.inBuf, fun a ha => (h'.frame a ha).trans (h.frame a ha),
   fun a ha => h'.marks a (h.marks a ha)⟩

theorem Kept.mono (h : Kept P S m m') (hS : ∀ a, S a → S' a) : Kept P S' m m' :=
  ⟨h.wf, h.inBuf, fun a ha => h.frame a (fun hs => ha (hS a hs)), h.marks⟩

theorem FaultIn.mono {f : Fault} (h : FaultIn P T m f) (hT : ∀ a, T a → T' a) : FaultIn P T' m f := by
  obtain ⟨a, ha, h⟩ := h; exact ⟨a, hT a ha, h⟩

/-- A fault met after some stores is one the memory before them has as well. -/
theorem FaultIn.before {f : Fault} (hk : Kept P S m m') (h : FaultIn P T m' f) : FaultIn P T m f := by
  obtain ⟨a, ha, (⟨hf, hlt, hn⟩ | h)⟩ := h
  · refine ⟨a, ha, .inl ⟨hf, hlt, ?_⟩⟩
    by_contra hne
    have := hk.marks a (Option.isSome_iff_ne_none.2 hne)
    simp [hn] at this
  · exact ⟨a, ha, .inr h⟩

theorem Touches.mono {x : Except Fault α} {g : α → Memory} (h : Touches P T S m x g)
    (hT : ∀ a, T a → T' a) (hS : ∀ a, S a → S' a) : Touches P T' S' m x g := by
  cases x with
  | ok a => exact Kept.mono h hS
  | error f => exact FaultIn.mono h hT

theorem Touches.pure (a : α) (g : α → Memory) (hg : g a = m) : Touches P T S m (.ok a) g := by
  show Kept P S m (g a); rw [hg]; exact Kept.refl P S m

theorem Touches.kept {x : Except Fault α} {g : α → Memory} (h : Touches P T S m x g) {a : α} (hx : x = .ok a) :
    Kept P S m (g a) := by subst hx; exact h

theorem Touches.faultIn {x : Except Fault α} {g : α → Memory} (h : Touches P T S m x g) {f : Fault}
    (hx : x = .error f) : FaultIn P T m f := by subst hx; exact h

/-- An operation whose every access is in BUF and written succeeds. -/
theorem Touches.succeeds {x : Except Fault α} {g : α → Memory} (h : Touches P T S m x g)
    (hT : ∀ a, T a → a < P.bufBytes ∧ (m.read? a).isSome) : ∃ a, x = .ok a := by
  cases x with
  | ok a => exact ⟨a, rfl⟩
  | error f =>
    obtain ⟨a, ha, (⟨-, -, hn⟩ | ⟨-, hge⟩)⟩ := h
    · have := (hT a ha).2; simp [hn] at this
    · have := (hT a ha).1; omega

/-- Two operations one after the other. -/
theorem Touches.bind {x : Except Fault α} {k : α → Except Fault β} {f : α → Memory} {g : β → Memory}
    (hx : Touches P T S m x f) (hk : ∀ a, x = .ok a → Touches P T S (f a) (k a) g) :
    Touches P T S m (x >>= k) g := by
  cases x with
  | error e => exact hx
  | ok a =>
    have h1 : Kept P S m (f a) := hx
    have h2 := hk a rfl
    show Touches P T S m (k a) g
    cases hka : k a with
    | ok b => rw [hka] at h2; exact h1.trans h2
    | error e => rw [hka] at h2; exact FaultIn.before h1 h2

/-- A choice between two operations. -/
theorem Touches.ite {c : Prop} [Decidable c] {x y : Except Fault α} {g : α → Memory}
    (hx : c → Touches P T S m x g) (hy : ¬ c → Touches P T S m y g) :
    Touches P T S m (if c then x else y) g := by
  split
  · next h => exact hx h
  · next h => exact hy h

/-- When a bind succeeds, both parts do. -/
theorem bind_ok_iff {x : Except Fault α} {k : α → Except Fault β} {b : β} :
    (x >>= k) = .ok b ↔ ∃ a, x = .ok a ∧ k a = .ok b := by
  cases x with
  | ok a => exact ⟨fun h => ⟨a, rfl, h⟩, fun ⟨_, ha, hb⟩ => by cases ha; exact hb⟩
  | error e => exact ⟨fun h => (by cases h), fun ⟨_, ha, _⟩ => (by cases ha)⟩

/-- When a bind stops, one of its parts does. -/
theorem bind_error_iff {x : Except Fault α} {k : α → Except Fault β} {f : Fault} :
    (x >>= k) = .error f ↔ x = .error f ∨ ∃ a, x = .ok a ∧ k a = .error f := by
  cases x with
  | ok a =>
    refine ⟨fun h => .inr ⟨a, rfl, h⟩, ?_⟩
    rintro (h | ⟨_, ha, h⟩)
    · cases h
    · cases ha; exact h
  | error e =>
    refine ⟨fun h => .inl (by cases h; rfl), ?_⟩
    rintro (h | ⟨_, ha, -⟩)
    · cases h; rfl
    · cases ha

/-! ### One byte -/

theorem memRead_ok_iff {a : Nat} {v : Byte} :
    memRead P m a = .ok v ↔ a < P.bufBytes ∧ m.read? a = some v := by
  unfold memRead
  split
  · next h => cases hr : m.read? a <;> simp [h]
  · next h => simp [h]

theorem memWrite_ok_iff {a : Nat} {v : Byte} :
    memWrite P m a v = .ok m' ↔ a < P.bufBytes ∧ m' = m.write a v := by
  unfold memWrite
  split
  · next h => simp [h, eq_comm]
  · next h => simp [h]

/-- A byte of BUF that is written can be read. -/
theorem memRead_eq {a : Nat} {v : Byte} (ha : a < P.bufBytes) (hv : m.read? a = some v) : memRead P m a = .ok v :=
  memRead_ok_iff.2 ⟨ha, hv⟩

/-- A byte of BUF can be written. -/
theorem memWrite_eq {a : Nat} (v : Byte) (ha : a < P.bufBytes) : memWrite P m a v = .ok (m.write a v) :=
  memWrite_ok_iff.2 ⟨ha, rfl⟩

/-- Reading an unwritten byte of BUF is the fault R86 asks for. -/
theorem memRead_unwritten {a : Nat} (ha : a < P.bufBytes) (hn : m.read? a = none) :
    memRead P m a = .error (.unwrittenRead a) := by
  simp [memRead, ha, hn]

theorem Kept.write {a : Nat} (v : Byte) (ha : a < P.bufBytes) (hS : S a) : Kept P S m (m.write a v) where
  wf h := write_wf h a v
  inBuf h x hx := by
    rcases mem_write hx with rfl | hx
    · exact ha
    · exact h x hx
  frame b hb := read?_write_other m v (fun hab => hb (hab ▸ hS))
  marks b hb := by rw [read?_write]; split <;> simp [hb]

theorem memRead_touches {a : Nat} (hT : T a) : Touches P T S m (memRead P m a) (fun _ => m) := by
  unfold memRead
  split
  · next h =>
    cases hr : m.read? a with
    | some v => exact Touches.pure v _ rfl
    | none => exact ⟨a, hT, .inl ⟨rfl, h, hr⟩⟩
  · next h => exact ⟨a, hT, .inr ⟨rfl, by omega⟩⟩

theorem memWrite_touches {a : Nat} (v : Byte) (hT : T a) (hS : S a) :
    Touches P T S m (memWrite P m a v) id := by
  unfold memWrite
  split
  · next h => exact Kept.write v h hS
  · next h => exact ⟨a, hT, .inr ⟨rfl, by omega⟩⟩

/-! ### Several bytes -/

/-- Reading several bytes gives the byte at each address, and only if all can be read. -/
theorem readEach_ok_iff : ∀ {n : Nat} {addr : Fin n → Nat} {g : Fin n → Byte},
    readEach P m n addr = .ok g ↔ ∀ i, memRead P m (addr i) = .ok (g i)
  | 0, _, g => ⟨fun _ i => i.elim0, fun _ => congrArg Except.ok (funext fun i : Fin 0 => i.elim0)⟩
  | n + 1, addr, g => by
    constructor
    · intro h i
      unfold readEach at h
      cases h0 : memRead P m (addr 0) with
      | error e => simp [h0] at h
      | ok b =>
        cases h1 : readEach P m n (fun i => addr i.succ) with
        | error e => simp [h0, h1] at h
        | ok bs =>
          simp only [h0, h1, Except.ok.injEq] at h
          subst h
          refine Fin.cases ?_ (fun j => ?_) i
          · simpa using h0
          · simpa using readEach_ok_iff.1 h1 j
    · intro h
      have h1 : readEach P m n (fun i => addr i.succ) = .ok (fun i => g i.succ) :=
        readEach_ok_iff.2 (fun i => h i.succ)
      unfold readEach
      simp only [h 0, h1]
      exact congrArg _ (Fin.cons_self_tail g)

theorem readEach_touches : ∀ {n : Nat} {addr : Fin n → Nat}, (∀ i, T (addr i)) →
    Touches P T S m (readEach P m n addr) (fun _ => m)
  | 0, _, _ => Touches.pure _ _ rfl
  | n + 1, addr, h => by
    unfold readEach
    have h0 : Touches P T S m (memRead P m (addr 0)) (fun _ => m) := memRead_touches (h 0)
    cases hr : memRead P m (addr 0) with
    | error e => exact h0.faultIn hr
    | ok b =>
      have h1 : Touches P T S m (readEach P m n (fun i => addr i.succ)) (fun _ => m) :=
        readEach_touches (fun i => h i.succ)
      cases hr1 : readEach P m n (fun i => addr i.succ) with
      | error e => exact h1.faultIn hr1
      | ok bs => exact Touches.pure _ _ rfl

theorem payloadBit_ok_iff {src j : Nat} {b : Bool} :
    payloadBit P m src j = .ok b ↔
      ∃ v, src + j / 8 < P.bufBytes ∧ m.read? (src + j / 8) = some v ∧ b = v.getLsbD (j % 8) := by
  unfold payloadBit
  rw [bind_ok_iff]
  constructor
  · rintro ⟨v, hv, hb⟩
    cases hb
    exact ⟨v, (memRead_ok_iff.1 hv).1, (memRead_ok_iff.1 hv).2, rfl⟩
  · rintro ⟨v, h1, h2, rfl⟩
    exact ⟨v, memRead_ok_iff.2 ⟨h1, h2⟩, rfl⟩

theorem payloadBit_touches {src j : Nat} (hT : T (src + j / 8)) :
    Touches P T S m (payloadBit P m src j) (fun _ => m) :=
  (memRead_touches hT).bind fun _ _ => Touches.pure _ _ rfl

theorem writeBit_touches {dst j : Nat} (b : Bool) (hT : T (dst + j / 8)) (hS : S (dst + j / 8)) :
    Touches P T S m (writeBit P m dst j b) id :=
  (memRead_touches hT).bind fun _ _ => memWrite_touches _ hT hS

theorem zeroFill_touches : ∀ {n a : Nat} {m : Memory}, (∀ i, i < n → T (a + i) ∧ S (a + i)) →
    Touches P T S m (zeroFill P n a m) id
  | 0, _, _, _ => Touches.pure _ _ rfl
  | n + 1, a, m, h =>
    (memWrite_touches 0 (h 0 (by omega)).1 (h 0 (by omega)).2).bind fun _ _ =>
      zeroFill_touches fun i hi => by
        have := h (i + 1) (by omega)
        rwa [show a + 1 + i = a + (i + 1) by omega]

/-- After the zero fill its bytes are 0 (41_driver.md R176). -/
theorem zeroFill_zero : ∀ {n a : Nat} {m m' : Memory}, zeroFill P n a m = .ok m' →
    ∀ i, i < n → m'.read? (a + i) = some 0
  | 0, _, _, _, _, i, hi => by omega
  | n + 1, a, m, m', h, i, hi => by
    obtain ⟨m1, h1, h2⟩ := bind_ok_iff.1 h
    obtain ⟨-, rfl⟩ := memWrite_ok_iff.1 h1
    rcases Nat.eq_zero_or_pos i with rfl | hpos
    · have hk := (zeroFill_touches (P := P) (T := fun b => a + 1 ≤ b) (S := fun b => a + 1 ≤ b)
        (m := m.write a 0) (fun i _ => ⟨by omega, by omega⟩)).kept h2
      have := hk.frame a (by omega)
      simpa using this
    · have := zeroFill_zero h2 (i - 1) (by omega)
      rwa [show a + 1 + (i - 1) = a + i by omega] at this

/-- Copying reads the source in `m0` and writes the destination; `m0` may be an earlier memory than `m`. -/
theorem copyBytes_ok_iff {m0 : Memory} : ∀ {n src dst : Nat} {m m' : Memory},
    copyBytes P m0 n src dst m = .ok m' →
      Kept P (inSpan dst n) m m' ∧ (∀ i, i < n → (m0.read? (src + i)).isSome ∧ m'.read? (dst + i) = m0.read? (src + i))
  | 0, _, _, m, m', h => by
    cases h
    exact ⟨Kept.refl _ _ _, fun i hi => by omega⟩
  | n + 1, src, dst, m, m', h => by
    obtain ⟨v, hv, h⟩ := bind_ok_iff.1 h
    obtain ⟨m1, h1, h2⟩ := bind_ok_iff.1 h
    obtain ⟨hlt, rfl⟩ := memWrite_ok_iff.1 h1
    obtain ⟨-, hv⟩ := memRead_ok_iff.1 hv
    obtain ⟨hk, hr⟩ := copyBytes_ok_iff h2
    refine ⟨?_, fun i hi => ?_⟩
    · exact (Kept.write v hlt ⟨by omega, by omega⟩).trans
        (hk.mono fun a ha => ⟨by have := ha.1; omega, by have := ha.2; omega⟩)
    · rcases Nat.eq_zero_or_pos i with rfl | hpos
      · refine ⟨by simp [hv], ?_⟩
        have := hk.frame dst (fun h => by have := h.1; omega)
        simpa [hv] using this
      · have := hr (i - 1) (by omega)
        rwa [show src + 1 + (i - 1) = src + i by omega, show dst + 1 + (i - 1) = dst + i by omega] at this

/-- Copying inside BUF from bytes written in `m0` succeeds. -/
theorem copyBytes_succeeds {m0 : Memory} : ∀ {n src dst : Nat} {m : Memory},
    (∀ i, i < n → src + i < P.bufBytes ∧ (m0.read? (src + i)).isSome ∧ dst + i < P.bufBytes) →
      ∃ m', copyBytes P m0 n src dst m = .ok m'
  | 0, _, _, m, _ => ⟨m, rfl⟩
  | n + 1, src, dst, m, h => by
    obtain ⟨h1, h2, h3⟩ := h 0 (by omega)
    obtain ⟨v, hv⟩ := Option.isSome_iff_exists.1 h2
    obtain ⟨m', hm'⟩ := copyBytes_succeeds (m0 := m0) (n := n) (src := src + 1) (dst := dst + 1) (m := m.write dst v)
      (fun i hi => by
        have := h (i + 1) (by omega)
        rwa [show src + 1 + i = src + (i + 1) by omega, show dst + 1 + i = dst + (i + 1) by omega])
    refine ⟨m', bind_ok_iff.2 ⟨v, memRead_eq (by simpa using h1) (by simpa using hv), bind_ok_iff.2 ⟨_, ?_, hm'⟩⟩⟩
    exact memWrite_eq v (by simpa using h3)

/-- Copying from the memory `m0` itself, after stores that brought it to `m'`. -/
theorem copyBytes_touches {m0 : Memory} : ∀ {n src dst : Nat} {m' : Memory}, Kept P S m0 m' →
    (∀ i, i < n → T (src + i) ∧ T (dst + i) ∧ S (dst + i)) → Touches P T S m0 (copyBytes P m0 n src dst m') id
  | 0, _, _, _, hk, _ => hk
  | n + 1, src, dst, m', hk, h => by
    obtain ⟨h1, h2, h3⟩ := h 0 (by omega)
    unfold copyBytes
    refine (memRead_touches (a := src) h1).bind fun v _ => ?_
    have hw' := memWrite_touches (P := P) (T := T) (S := S) (m := m') (a := dst) v h2 h3
    cases hw : memWrite P m' dst v with
    | error f => exact FaultIn.before hk (hw'.faultIn hw)
    | ok m1 =>
      exact copyBytes_touches (hk.trans (hw'.kept hw)) fun i hi => by
        have := h (i + 1) (by omega)
        rwa [show src + 1 + i = src + (i + 1) by omega, show dst + 1 + i = dst + (i + 1) by omega]

theorem moveChunks_touches {m0 : Memory} {base : Nat} : ∀ {moves : List (Nat × Nat)} {m' : Memory}, Kept P S m0 m' →
    (∀ p ∈ moves, ∀ i, i < 8 → T (base + 8 * p.2 + i) ∧ T (base + 8 * p.1 + i) ∧ S (base + 8 * p.1 + i)) →
    Touches P T S m0 (moveChunks P m0 base moves m') id
  | [], _, hk, _ => hk
  | (d, c) :: rest, m', hk, h => by
    unfold moveChunks
    have hc := copyBytes_touches (n := 8) (src := base + 8 * c) (dst := base + 8 * d) hk
      (h (d, c) List.mem_cons_self)
    cases hx : copyBytes P m0 8 (base + 8 * c) (base + 8 * d) m' with
    | error f => exact hc.faultIn hx
    | ok m1 => exact moveChunks_touches (hc.kept hx) fun p hp => h p (List.mem_cons_of_mem _ hp)

/-- What moving chunks leaves: each chunk moved to, if no chunk is moved to twice, holds its source chunk of `m0`; and
only the chunks moved to are stored to. -/
theorem moveChunks_ok {m0 : Memory} {base : Nat} : ∀ {moves : List (Nat × Nat)} {m m' : Memory},
    moveChunks P m0 base moves m = .ok m' → (moves.map Prod.fst).Nodup →
      (∀ p ∈ moves, ∀ i, i < 8 → m'.read? (base + 8 * p.1 + i) = m0.read? (base + 8 * p.2 + i)) ∧
      Kept P (fun a => ∃ p ∈ moves, inSpan (base + 8 * p.1) 8 a) m m'
  | [], m, m', h, _ => by
    cases h
    exact ⟨fun p hp => absurd hp List.not_mem_nil, Kept.refl _ _ _⟩
  | (d, c) :: rest, m, m', h, hnd => by
    obtain ⟨m1, h1, h2⟩ := bind_ok_iff.1 h
    obtain ⟨hk1, hr1⟩ := copyBytes_ok_iff h1
    have hnd' := List.nodup_cons.1 (show (d :: rest.map Prod.fst).Nodup from hnd)
    obtain ⟨hr2, hk2⟩ := moveChunks_ok h2 hnd'.2
    refine ⟨fun p hp i hi => ?_, ?_⟩
    · rcases List.mem_cons.1 hp with rfl | hp
      · have hout : ¬ ∃ p ∈ rest, inSpan (base + 8 * p.1) 8 (base + 8 * d + i) := by
          rintro ⟨p, hp, hlo, hhi⟩
          exact hnd'.1 (List.mem_map.2 ⟨p, hp, by omega⟩)
        exact (hk2.frame _ hout).trans (hr1 i hi).2
      · exact hr2 p hp i hi
    · refine (hk1.mono fun a ha => ⟨(d, c), List.mem_cons_self, ha⟩).trans (hk2.mono ?_)
      rintro a ⟨p, hp, ha⟩
      exact ⟨p, List.mem_cons_of_mem _ hp, ha⟩

end Sys2Proof.Machine
end

