-- ==== Sys2Proof/Laws/Codec.lean ====
section
/-! SUPPORT. What the Block Codec, the driver and the shares can do to BUF: one `Touches` lemma per operation, and how
far the cursor moves. -/

namespace Sys2Proof.Machine

variable {P : Config} {T S : Nat → Prop} {m m' : Memory} {pl : Planes} {x y : Nat}

theorem readBlock_touches {base w : Nat} (h : ∀ p, T (sampleAddr base w x y p)) :
    Touches P T S m (readBlock P m base w x y) (fun _ => m) := readEach_touches h

/-- Reading a block gives the byte at each of its nine addresses (40_block_codec.md R130). -/
theorem readBlock_ok_iff {base w : Nat} {a : Fin 9 → Byte} :
    readBlock P m base w x y = .ok a ↔ ∀ p, sampleAddr base w x y p < P.bufBytes ∧
      m.read? (sampleAddr base w x y p) = some (a p) :=
  readEach_ok_iff.trans (forall_congr' fun _ => memRead_ok_iff)

theorem readEps_ok_iff {base w : Nat} {a : Fin 5 → Byte} :
    readEps P m base w x y = .ok a ↔ ∀ i, sampleAddr base w x y (epPos i) < P.bufBytes ∧
      m.read? (sampleAddr base w x y (epPos i)) = some (a i) :=
  readEach_ok_iff.trans (forall_congr' fun _ => memRead_ok_iff)

theorem guardRejects_touches (h1 : ∀ p, T (sampleAddr pl.p1 pl.w x y p)) (h2 : ∀ p, T (sampleAddr pl.p2 pl.w x y p)) :
    Touches P T S m (guardRejects P m pl x y) (fun _ => m) := by
  unfold guardRejects
  refine (readEach_touches fun i => h1 (epPos i)).bind fun a _ => ?_
  cases P.guardScope with
  | img1 => exact Touches.pure _ _ rfl
  | both => exact (readEach_touches fun i => h2 (epPos i)).bind fun b _ => Touches.pure _ _ rfl

/-- The guard is decided by the EP samples (R137), whenever the blocks can be read whole. -/
theorem guardRejects_eq {a b : Fin 9 → Byte} (ha : readBlock P m pl.p1 pl.w x y = .ok a)
    (hb : readBlock P m pl.p2 pl.w x y = .ok b) :
    guardRejects P m pl x y = .ok (guardHolds P.guardScope a b) := by
  have h1 : readEps P m pl.p1 pl.w x y = .ok (fun i => a (epPos i)) :=
    readEps_ok_iff.2 fun i => readBlock_ok_iff.1 ha (epPos i)
  have h2 : readEps P m pl.p2 pl.w x y = .ok (fun i => b (epPos i)) :=
    readEps_ok_iff.2 fun i => readBlock_ok_iff.1 hb (epPos i)
  unfold guardRejects guardHolds
  rw [h1]
  cases P.guardScope with
  | img1 => rfl
  | both => rw [h2]; rfl

theorem embedBit_touches {src cursor total : Nat} (h : ∀ j, j < total → T (src + j / 8)) :
    Touches P T S m (embedBit P m src cursor total) (fun _ => m) :=
  Touches.ite (fun hc => payloadBit_touches (h _ hc)) fun _ => Touches.pure _ _ rfl

theorem writeIf_touches {bit : Bool} {a : Nat} {v : Byte} (hT : T a) (hS : S a) :
    Touches P T S m (writeIf P m bit a v) id :=
  Touches.ite (fun _ => memWrite_touches v hT hS) fun _ => Touches.pure _ _ rfl

theorem embedEp_touches {src total : Nat} {a : Fin 9 → Byte} {d : Fin 5 → Int} {acc : EmbedAcc} {i : Fin 5}
    (h : ∀ j, j < total → T (src + j / 8))
    (hT : T (sampleAddr pl.p1 pl.w x y (epPos i))) (hS : S (sampleAddr pl.p1 pl.w x y (epPos i))) :
    Touches P T S acc.mem (embedEp P pl x y src total a d acc i) EmbedAcc.mem := by
  unfold embedEp
  refine Touches.ite (fun _ => ?_) fun _ => Touches.ite (fun _ => ?_) fun _ => Touches.pure _ _ rfl
  · refine (embedBit_touches h).bind fun bit _ => ?_
    exact (writeIf_touches hT hS).bind fun m1 _ => Touches.pure _ _ rfl
  · exact (memWrite_touches _ hT hS).bind fun m1 _ => Touches.pure _ _ rfl

theorem embedEps_touches {src total : Nat} {a : Fin 9 → Byte} {d : Fin 5 → Int}
    (h : ∀ j, j < total → T (src + j / 8))
    (hT : ∀ i, T (sampleAddr pl.p1 pl.w x y (epPos i))) (hS : ∀ i, S (sampleAddr pl.p1 pl.w x y (epPos i))) :
    ∀ {is : List (Fin 5)} {acc : EmbedAcc},
      Touches P T S acc.mem (embedEps P pl x y src total a d is acc) EmbedAcc.mem
  | [], _ => Touches.pure _ _ rfl
  | _ :: _, _ => (embedEp_touches h (hT _) (hS _)).bind fun _ _ => embedEps_touches h hT hS

/-- Each EP moves the cursor by one if it is a peak, else not at all (R140). -/
theorem embedEp_cursor {src total : Nat} {a : Fin 9 → Byte} {d : Fin 5 → Int} {acc acc' : EmbedAcc} {i : Fin 5}
    (h : embedEp P pl x y src total a d acc i = .ok acc') :
    acc'.cursor = acc.cursor + if d i = peak d then 1 else 0 := by
  unfold embedEp at h
  split at h
  · next hd =>
    obtain ⟨bit, -, h⟩ := bind_ok_iff.1 h
    obtain ⟨m1, -, h⟩ := bind_ok_iff.1 h
    cases h; simp [hd]
  · next hd =>
    split at h
    · obtain ⟨m1, -, h⟩ := bind_ok_iff.1 h
      cases h; simp [hd]
    · cases h; simp [hd]

/-- The cursor moves by the number of peaks (R141). -/
theorem embedEps_cursor {src total : Nat} {a : Fin 9 → Byte} {d : Fin 5 → Int} :
    ∀ {is : List (Fin 5)} {acc acc' : EmbedAcc}, embedEps P pl x y src total a d is acc = .ok acc' →
      acc'.cursor = acc.cursor + (is.filter (fun i => d i == peak d)).length
  | [], acc, acc', h => by cases h; simp
  | i :: is, acc, acc', h => by
    obtain ⟨acc1, h1, h2⟩ := bind_ok_iff.1 h
    rw [embedEps_cursor h2, embedEp_cursor h1]
    by_cases hd : d i = peak d
    · simp [hd]; omega
    · simp [hd]

theorem blockEmbed_touches {src cursor total : Nat}
    (h1 : ∀ p, T (sampleAddr pl.p1 pl.w x y p)) (h2 : ∀ p, T (sampleAddr pl.p2 pl.w x y p))
    (h : ∀ j, j < total → T (src + j / 8)) (hS : ∀ i, S (sampleAddr pl.p1 pl.w x y (epPos i))) :
    Touches P T S m (blockEmbed P pl x y src cursor total m) Prod.fst := by
  unfold blockEmbed
  refine (guardRejects_touches h1 h2).bind fun r _ => Touches.ite (fun _ => Touches.pure _ _ rfl) fun _ => ?_
  refine (readBlock_touches h1).bind fun a _ => (readBlock_touches h2).bind fun b _ => ?_
  exact (embedEps_touches (acc := { mem := m, cursor := cursor, first := true, rdu := false, cnt := 0 })
    h (fun i => h1 (epPos i)) hS).bind fun acc _ => Touches.pure _ _ rfl

theorem appendBit_touches {dst cursor : Nat} {b : Option Bool}
    (hW : T (dst + cursor / 8) ∧ S (dst + cursor / 8)) :
    Touches P T S m (appendBit P m dst cursor b) Prod.fst := by
  cases b with
  | none => exact Touches.pure _ _ rfl
  | some b => exact (writeBit_touches b hW.1 hW.2).bind fun _ _ => Touches.pure _ _ rfl

theorem appendBit_cursor {dst cursor : Nat} {b : Option Bool} {r : Memory × Nat}
    (h : appendBit P m dst cursor b = .ok r) : r.2 = cursor + if b.isSome then 1 else 0 := by
  cases b with
  | none => cases h; rfl
  | some b => obtain ⟨m1, -, h⟩ := bind_ok_iff.1 h; cases h; rfl

/-- An EP carries a bit exactly for the peak and the value above it (R142). -/
theorem carriedBit_isSome (me v : Int) : (carriedBit me v).isSome = (v == me || v == me + 1) := by
  unfold carriedBit
  split
  · next h => simp [h]
  · next h => split
              · next h' => simp [h']
              · next h' => simp [h, h']

theorem extractEp_touches {dst : Nat} {a : Fin 9 → Byte} {d : Fin 5 → Int} {me : Int} {cursor : Nat} {i : Fin 5}
    (hW : T (dst + cursor / 8) ∧ S (dst + cursor / 8))
    (hT : T (sampleAddr pl.p1 pl.w x y (epPos i))) (hS : S (sampleAddr pl.p1 pl.w x y (epPos i))) :
    Touches P T S m (extractEp P pl x y dst a d me m cursor i) Prod.fst :=
  (appendBit_touches hW).bind fun _ _ =>
    Touches.ite (fun _ => (memWrite_touches _ hT hS).bind fun _ _ => Touches.pure _ _ rfl)
      fun _ => Touches.pure _ _ rfl

/-- Each EP moves the cursor by one if it carries a bit (R142). -/
theorem extractEp_cursor {dst : Nat} {a : Fin 9 → Byte} {d : Fin 5 → Int} {me : Int} {cursor : Nat} {i : Fin 5}
    {r : Memory × Nat} (h : extractEp P pl x y dst a d me m cursor i = .ok r) :
    r.2 = cursor + if d i == me || d i == me + 1 then 1 else 0 := by
  obtain ⟨⟨m1, c1⟩, h1, h2⟩ := bind_ok_iff.1 h
  have hc := appendBit_cursor h1
  rw [carriedBit_isSome] at hc
  simp only at h2 hc
  split at h2
  · obtain ⟨m2, -, h2⟩ := bind_ok_iff.1 h2; cases h2; exact hc
  · cases h2; exact hc

theorem extractEps_touches {dst : Nat} {a : Fin 9 → Byte} {d : Fin 5 → Int} {me : Int}
    (hT : ∀ i, T (sampleAddr pl.p1 pl.w x y (epPos i))) (hS : ∀ i, S (sampleAddr pl.p1 pl.w x y (epPos i))) :
    ∀ {is : List (Fin 5)} {m : Memory} {cursor : Nat},
      (∀ j, cursor ≤ j → j < cursor + is.length → T (dst + j / 8) ∧ S (dst + j / 8)) →
      Touches P T S m (extractEps P pl x y dst a d me is m cursor) Prod.fst
  | [], _, _, _ => Touches.pure _ _ rfl
  | i :: is, m, cursor, hW => by
    unfold extractEps
    refine (extractEp_touches (hW cursor le_rfl (by simp)) (hT i) (hS i)).bind fun r hr => ?_
    refine extractEps_touches hT hS fun j hj hj' => ?_
    have hc := extractEp_cursor hr
    refine hW j (by omega) ?_
    simp only [List.length_cons]
    split at hc <;> omega

/-- The cursor moves by the number of EPs that carry a bit (R142). -/
theorem extractEps_cursor {dst : Nat} {a : Fin 9 → Byte} {d : Fin 5 → Int} {me : Int} :
    ∀ {is : List (Fin 5)} {m : Memory} {cursor : Nat} {r : Memory × Nat},
      extractEps P pl x y dst a d me is m cursor = .ok r →
      r.2 = cursor + (is.filter (fun i => d i == me || d i == me + 1)).length
  | [], _, _, _, h => by cases h; simp
  | i :: is, m, cursor, r, h => by
    obtain ⟨r1, h1, h2⟩ := bind_ok_iff.1 h
    rw [extractEps_cursor h2, extractEp_cursor h1, List.filter_cons]
    split <;> simp
    omega

theorem blockExtract_touches {dst cursor : Nat} {info : Byte}
    (h1 : ∀ p, T (sampleAddr pl.p1 pl.w x y p)) (h2 : ∀ p, T (sampleAddr pl.p2 pl.w x y p))
    (hW : ∀ j, cursor ≤ j → j < cursor + 5 → T (dst + j / 8) ∧ S (dst + j / 8))
    (hS : ∀ i, S (sampleAddr pl.p1 pl.w x y (epPos i))) :
    Touches P T S m (blockExtract P pl x y dst info cursor m) Prod.fst := by
  unfold blockExtract
  refine Touches.ite (fun _ => ?_) fun _ => Touches.pure _ _ rfl
  refine (readBlock_touches h1).bind fun a _ => (readBlock_touches h2).bind fun b _ => ?_
  exact extractEps_touches (fun i => h1 (epPos i)) hS hW

/-- A block appends at most five bits (R176). -/
theorem blockExtract_cursor {dst cursor : Nat} {info : Byte} {r : Memory × Nat}
    (h : blockExtract P pl x y dst info cursor m = .ok r) : cursor ≤ r.2 ∧ r.2 ≤ cursor + 5 := by
  unfold blockExtract at h
  split at h
  · obtain ⟨a, -, h⟩ := bind_ok_iff.1 h
    obtain ⟨b, -, h⟩ := bind_ok_iff.1 h
    rw [extractEps_cursor h]
    have := List.length_filter_le (fun i => dHsb a b i == dHsb a b (countIndex info) - (if mapRdu info then 1 else 0)
      || dHsb a b i == dHsb a b (countIndex info) - (if mapRdu info then 1 else 0) + 1) epIndices
    have h5 : epIndices.length = 5 := rfl
    omega
  · cases h; simp

/-- A block takes at most five bits (R141). -/
theorem blockEmbed_cursor {src cursor total : Nat} {r : Memory × Byte × Nat}
    (h : blockEmbed P pl x y src cursor total m = .ok r) : cursor ≤ r.2.2 ∧ r.2.2 ≤ cursor + 5 := by
  unfold blockEmbed at h
  obtain ⟨g, -, h⟩ := bind_ok_iff.1 h
  split at h
  · cases h; simp
  · obtain ⟨a, -, h⟩ := bind_ok_iff.1 h
    obtain ⟨b, -, h⟩ := bind_ok_iff.1 h
    obtain ⟨acc, hacc, h⟩ := bind_ok_iff.1 h
    cases h
    have hc := embedEps_cursor hacc
    have := List.length_filter_le (fun i => dHsb a b i == peak (dHsb a b)) epIndices
    have h5 : epIndices.length = 5 := rfl
    simp only at hc ⊢
    omega

theorem embedLoop_touches {hb src mapBase total : Nat} (h : ∀ j, j < total → T (src + j / 8)) :
    ∀ {left k cursor : Nat} {m : Memory},
      (∀ k', k ≤ k' → k' < k + left →
        (∀ p, T (sampleAddr pl.p1 pl.w (blockX hb k') (blockY hb k') p)) ∧
        (∀ p, T (sampleAddr pl.p2 pl.w (blockX hb k') (blockY hb k') p)) ∧
        (∀ i, S (sampleAddr pl.p1 pl.w (blockX hb k') (blockY hb k') (epPos i))) ∧
        T (mapBase + k') ∧ S (mapBase + k')) →
      Touches P T S m (embedLoop P pl hb src mapBase total left k cursor m) Prod.fst
  | 0, _, _, _, _ => Touches.pure _ _ rfl
  | left + 1, k, cursor, m, hk => by
    unfold embedLoop
    obtain ⟨h1, h2, h3, h4, h5⟩ := hk k le_rfl (by omega)
    refine Touches.ite (fun _ => Touches.pure _ _ rfl) fun _ => ?_
    refine (blockEmbed_touches h1 h2 h h3).bind fun r _ => (memWrite_touches _ h4 h5).bind fun m2 _ => ?_
    exact embedLoop_touches h fun k' hk1 hk2 => hk k' (by omega) (by omega)

theorem extractLoop_touches {hb mapBase dst n : Nat} :
    ∀ {left k cursor : Nat} {m : Memory}, cursor ≤ 5 * k →
      (∀ k', k ≤ k' → k' < k + left → k' < n →
        (∀ p, T (sampleAddr pl.p1 pl.w (blockX hb k') (blockY hb k') p)) ∧
        (∀ p, T (sampleAddr pl.p2 pl.w (blockX hb k') (blockY hb k') p)) ∧
        (∀ i, S (sampleAddr pl.p1 pl.w (blockX hb k') (blockY hb k') (epPos i))) ∧ T (mapBase + k')) →
      (∀ j, j < 5 * n → T (dst + j / 8) ∧ S (dst + j / 8)) →
      Touches P T S m (extractLoop P pl hb mapBase dst n left k cursor m) Prod.fst
  | 0, _, _, _, _, _, _ => Touches.pure _ _ rfl
  | left + 1, k, cursor, m, hc, hk, hW => by
    unfold extractLoop
    refine Touches.ite (fun _ => Touches.pure _ _ rfl) fun hn => ?_
    obtain ⟨h1, h2, h3, h4⟩ := hk k le_rfl (by omega) (by omega)
    refine (memRead_touches h4).bind fun info _ => ?_
    refine (blockExtract_touches h1 h2 (fun j _ hj => hW j (by omega)) h3).bind fun r hr => ?_
    have := blockExtract_cursor hr
    exact extractLoop_touches (by omega) (fun k' hk1 hk2 => hk k' (by omega) (by omega)) hW

/-- EMBED's traversal: how far it goes and why it stops (R172, R173). -/
theorem embedLoop_ends {hb src mapBase total : Nat} :
    ∀ {left k cursor : Nat} {m : Memory} {r : Memory × Nat × Nat},
      embedLoop P pl hb src mapBase total left k cursor m = .ok r →
      k ≤ r.2.1 ∧ r.2.1 ≤ k + left ∧ cursor ≤ r.2.2 ∧ r.2.2 ≤ cursor + 5 * (r.2.1 - k) ∧
      (r.2.1 = k + left ∨ total ≤ r.2.2) ∧ (r.2.2 < total + 5 ∨ r.2.2 = cursor)
  | 0, k, cursor, m, r, h => by cases h; simp
  | left + 1, k, cursor, m, r, h => by
    unfold embedLoop at h
    split at h
    · next hc => cases h; exact ⟨le_rfl, by simp, le_rfl, by simp, .inr hc, .inr rfl⟩
    · next hc =>
      obtain ⟨⟨m1, info, c1⟩, h1, h⟩ := bind_ok_iff.1 h
      obtain ⟨m2, -, h⟩ := bind_ok_iff.1 h
      have hb := blockEmbed_cursor h1
      have := embedLoop_ends h
      simp only at hb
      omega

/-- EXTRACT's traversal visits min(n, blocks left) blocks (R175, R177). -/
theorem extractLoop_ends {hb mapBase dst n : Nat} :
    ∀ {left k cursor : Nat} {m : Memory} {r : Memory × Nat × Nat},
      extractLoop P pl hb mapBase dst n left k cursor m = .ok r →
      r.2.1 = max k (min n (k + left)) ∧ cursor ≤ r.2.2 ∧ r.2.2 ≤ cursor + 5 * (r.2.1 - k)
  | 0, k, cursor, m, r, h => by cases h; simp
  | left + 1, k, cursor, m, r, h => by
    unfold extractLoop at h
    split at h
    · next hc => cases h; simp only; omega
    · next hc =>
      obtain ⟨info, -, h⟩ := bind_ok_iff.1 h
      obtain ⟨⟨m1, c1⟩, h1, h⟩ := bind_ok_iff.1 h
      have hb := blockExtract_cursor h1
      have := extractLoop_ends h
      simp only at hb
      omega

theorem mapFieldBad_touches : ∀ {n a : Nat}, (∀ i, i < n → T (a + i)) →
    Touches P T S m (mapFieldBad P m n a) (fun _ => m)
  | 0, _, _ => Touches.pure _ _ rfl
  | n + 1, a, h =>
    (memRead_touches (h 0 (by omega))).bind fun _ _ => Touches.ite (fun _ => Touches.pure _ _ rfl) fun _ =>
      mapFieldBad_touches fun i hi => by
        have := h (i + 1) (by omega)
        rwa [show a + 1 + i = a + (i + 1) by omega]

theorem splitLoop_touches {src p1 p2 pos : Nat} : ∀ {n i : Nat} {m : Memory},
    (∀ j, i ≤ j → j < i + n → T (src + j) ∧ T (p1 + j) ∧ S (p1 + j) ∧ T (p2 + j) ∧ S (p2 + j)) →
    Touches P T S m (splitLoop P src p1 p2 pos n i m) id
  | 0, _, _, _ => Touches.pure _ _ rfl
  | n + 1, i, m, h => by
    obtain ⟨h1, h2, h3, h4, h5⟩ := h i le_rfl (by omega)
    exact (memRead_touches h1).bind fun _ _ => (memWrite_touches _ h2 h3).bind fun _ _ =>
      (memWrite_touches _ h4 h5).bind fun _ _ => splitLoop_touches fun j hj hj' => h j (by omega) (by omega)

theorem combineLoop_touches {p1 p2 dst : Nat} : ∀ {n i : Nat} {m : Memory},
    (∀ j, i ≤ j → j < i + n → T (p1 + j) ∧ T (p2 + j) ∧ T (dst + j) ∧ S (dst + j)) →
    Touches P T S m (combineLoop P p1 p2 dst n i m) id
  | 0, _, _, _ => Touches.pure _ _ rfl
  | n + 1, i, m, h => by
    obtain ⟨h1, h2, h3, h4⟩ := h i le_rfl (by omega)
    exact (memRead_touches h1).bind fun _ _ => (memRead_touches h2).bind fun _ _ =>
      (memWrite_touches _ h3 h4).bind fun _ _ => combineLoop_touches fun j hj hj' => h j (by omega) (by omega)

end Sys2Proof.Machine
end

