-- ==== Sys2Proof/Laws/State.lean ====
section
/-! SUPPORT. Each field after each named update of State, so that no proof unfolds a record update. -/

namespace Sys2Proof.Machine

@[simp] theorem setOvr_phase (s : State) : (setOvr s).phase = s.phase := rfl
@[simp] theorem setOvr_irqEn (s : State) : (setOvr s).irqEn = s.irqEn := rfl
@[simp] theorem setOvr_done (s : State) : (setOvr s).done = s.done := rfl
@[simp] theorem setOvr_ovr (s : State) : (setOvr s).ovr = true := rfl
@[simp] theorem setOvr_err (s : State) : (setOvr s).err = s.err := rfl
@[simp] theorem setOvr_regs (s : State) : (setOvr s).regs = s.regs := rfl
@[simp] theorem setOvr_mem (s : State) : (setOvr s).mem = s.mem := rfl
@[simp] theorem setOvr_inputs (s : State) : (setOvr s).inputs = s.inputs := rfl
@[simp] theorem setOvr_resp (s : State) : (setOvr s).resp = s.resp := rfl
@[simp] theorem setOvr_rng8Pos (s : State) : (setOvr s).rng8Pos = s.rng8Pos := rfl
@[simp] theorem setOvr_freePos (s : State) : (setOvr s).freePos = s.freePos := rfl

@[simp] theorem statusWrite_phase (s : State) (v : Word) : (statusWrite s v).phase = s.phase := rfl
@[simp] theorem statusWrite_irqEn (s : State) (v : Word) : (statusWrite s v).irqEn = s.irqEn := rfl
@[simp] theorem statusWrite_done (s : State) (v : Word) : (statusWrite s v).done = (s.done && !v.getLsbD 1) := rfl
@[simp] theorem statusWrite_ovr (s : State) (v : Word) : (statusWrite s v).ovr = (s.ovr && !v.getLsbD 2) := rfl
@[simp] theorem statusWrite_err (s : State) (v : Word) : (statusWrite s v).err = s.err := rfl
@[simp] theorem statusWrite_regs (s : State) (v : Word) : (statusWrite s v).regs = s.regs := rfl
@[simp] theorem statusWrite_mem (s : State) (v : Word) : (statusWrite s v).mem = s.mem := rfl
@[simp] theorem statusWrite_inputs (s : State) (v : Word) : (statusWrite s v).inputs = s.inputs := rfl
@[simp] theorem statusWrite_resp (s : State) (v : Word) : (statusWrite s v).resp = s.resp := rfl
@[simp] theorem statusWrite_rng8Pos (s : State) (v : Word) : (statusWrite s v).rng8Pos = s.rng8Pos := rfl
@[simp] theorem statusWrite_freePos (s : State) (v : Word) : (statusWrite s v).freePos = s.freePos := rfl

@[simp] theorem accept_phase (s : State) (c : Word) : (accept s c).phase = .busy c := rfl
@[simp] theorem accept_irqEn (s : State) (c : Word) : (accept s c).irqEn = s.irqEn := rfl
@[simp] theorem accept_done (s : State) (c : Word) : (accept s c).done = false := rfl
@[simp] theorem accept_ovr (s : State) (c : Word) : (accept s c).ovr = s.ovr := rfl
@[simp] theorem accept_err (s : State) (c : Word) : (accept s c).err = 0x00 := rfl
@[simp] theorem accept_regs (s : State) (c : Word) : (accept s c).regs = s.regs := rfl
@[simp] theorem accept_mem (s : State) (c : Word) : (accept s c).mem = s.mem := rfl
@[simp] theorem accept_inputs (s : State) (c : Word) : (accept s c).inputs = s.inputs := rfl
@[simp] theorem accept_resp (s : State) (c : Word) : (accept s c).resp = s.resp := rfl
@[simp] theorem accept_rng8Pos (s : State) (c : Word) : (accept s c).rng8Pos = s.rng8Pos := rfl
@[simp] theorem accept_freePos (s : State) (c : Word) : (accept s c).freePos = s.freePos := rfl

@[simp] theorem complete_phase (s : State) (e : ErrCode) : (complete s e).phase = .idle := rfl
@[simp] theorem complete_irqEn (s : State) (e : ErrCode) : (complete s e).irqEn = s.irqEn := rfl
@[simp] theorem complete_done (s : State) (e : ErrCode) : (complete s e).done = true := rfl
@[simp] theorem complete_ovr (s : State) (e : ErrCode) : (complete s e).ovr = s.ovr := rfl
@[simp] theorem complete_err (s : State) (e : ErrCode) : (complete s e).err = e.code := rfl
@[simp] theorem complete_regs (s : State) (e : ErrCode) : (complete s e).regs = s.regs := rfl
@[simp] theorem complete_mem (s : State) (e : ErrCode) : (complete s e).mem = s.mem := rfl
@[simp] theorem complete_inputs (s : State) (e : ErrCode) : (complete s e).inputs = s.inputs := rfl
@[simp] theorem complete_resp (s : State) (e : ErrCode) : (complete s e).resp = s.resp := rfl
@[simp] theorem complete_rng8Pos (s : State) (e : ErrCode) : (complete s e).rng8Pos = s.rng8Pos := rfl
@[simp] theorem complete_freePos (s : State) (e : ErrCode) : (complete s e).freePos = s.freePos := rfl

@[simp] theorem completeIllegal_phase (s : State) : (completeIllegal s).phase = .idle := rfl
@[simp] theorem completeIllegal_irqEn (s : State) : (completeIllegal s).irqEn = s.irqEn := rfl
@[simp] theorem completeIllegal_done (s : State) : (completeIllegal s).done = true := rfl
@[simp] theorem completeIllegal_ovr (s : State) : (completeIllegal s).ovr = s.ovr := rfl
@[simp] theorem completeIllegal_err (s : State) : (completeIllegal s).err = 0x10 := rfl
@[simp] theorem completeIllegal_regs (s : State) : (completeIllegal s).regs = s.regs := rfl
@[simp] theorem completeIllegal_mem (s : State) : (completeIllegal s).mem = s.mem := rfl
@[simp] theorem completeIllegal_inputs (s : State) : (completeIllegal s).inputs = s.inputs := rfl
@[simp] theorem completeIllegal_resp (s : State) : (completeIllegal s).resp = s.resp := rfl
@[simp] theorem completeIllegal_rng8Pos (s : State) : (completeIllegal s).rng8Pos = s.rng8Pos := rfl
@[simp] theorem completeIllegal_freePos (s : State) : (completeIllegal s).freePos = s.freePos := rfl

@[simp] theorem softReset_phase (s : State) : (softReset s).phase = .idle := rfl
@[simp] theorem softReset_irqEn (s : State) : (softReset s).irqEn = false := rfl
@[simp] theorem softReset_done (s : State) : (softReset s).done = false := rfl
@[simp] theorem softReset_ovr (s : State) : (softReset s).ovr = false := rfl
@[simp] theorem softReset_err (s : State) : (softReset s).err = 0 := rfl
@[simp] theorem softReset_regs (s : State) : (softReset s).regs = Regs.reset := rfl
@[simp] theorem softReset_mem (s : State) : (softReset s).mem = s.mem := rfl
@[simp] theorem softReset_inputs (s : State) : (softReset s).inputs = s.inputs := rfl
@[simp] theorem softReset_resp (s : State) : (softReset s).resp = s.resp := rfl
@[simp] theorem softReset_rng8Pos (s : State) : (softReset s).rng8Pos = s.rng8Pos := rfl
@[simp] theorem softReset_freePos (s : State) : (softReset s).freePos = s.freePos := rfl

@[simp] theorem hardReset_phase (s : State) : (hardReset s).phase = .idle := rfl
@[simp] theorem hardReset_irqEn (s : State) : (hardReset s).irqEn = false := rfl
@[simp] theorem hardReset_done (s : State) : (hardReset s).done = false := rfl
@[simp] theorem hardReset_ovr (s : State) : (hardReset s).ovr = false := rfl
@[simp] theorem hardReset_err (s : State) : (hardReset s).err = 0 := rfl
@[simp] theorem hardReset_regs (s : State) : (hardReset s).regs = Regs.reset := rfl
@[simp] theorem hardReset_mem (s : State) : (hardReset s).mem = [] := rfl
@[simp] theorem hardReset_inputs (s : State) : (hardReset s).inputs = s.inputs := rfl
@[simp] theorem hardReset_resp (s : State) : (hardReset s).resp = s.resp := rfl
@[simp] theorem hardReset_rng8Pos (s : State) : (hardReset s).rng8Pos = s.rng8Pos := rfl
@[simp] theorem hardReset_freePos (s : State) : (hardReset s).freePos = s.freePos := rfl

@[simp] theorem respond_phase (s : State) (r : Response) : (respond s r).phase = s.phase := rfl
@[simp] theorem respond_irqEn (s : State) (r : Response) : (respond s r).irqEn = s.irqEn := rfl
@[simp] theorem respond_done (s : State) (r : Response) : (respond s r).done = s.done := rfl
@[simp] theorem respond_ovr (s : State) (r : Response) : (respond s r).ovr = s.ovr := rfl
@[simp] theorem respond_err (s : State) (r : Response) : (respond s r).err = s.err := rfl
@[simp] theorem respond_regs (s : State) (r : Response) : (respond s r).regs = s.regs := rfl
@[simp] theorem respond_mem (s : State) (r : Response) : (respond s r).mem = s.mem := rfl
@[simp] theorem respond_inputs (s : State) (r : Response) : (respond s r).inputs = s.inputs := rfl
@[simp] theorem respond_resp (s : State) (r : Response) : (respond s r).resp = some r := rfl
@[simp] theorem respond_rng8Pos (s : State) (r : Response) : (respond s r).rng8Pos = s.rng8Pos := rfl
@[simp] theorem respond_freePos (s : State) (r : Response) : (respond s r).freePos = s.freePos := rfl

/-- STATUS.BUSY is decided by the phase alone (R26, R37). -/
theorem busy_eq_false_iff (s : State) : s.busy = false ↔ s.phase = .idle := by
  cases h : s.phase <;> simp [State.busy, h]

theorem busy_eq_true_iff (s : State) : s.busy = true ↔ ∃ c, s.phase = .busy c := by
  cases h : s.phase <;> simp [State.busy, h]

@[simp] theorem complete_busy (s : State) (e : ErrCode) : (complete s e).busy = false := rfl
@[simp] theorem accept_busy (s : State) (c : Word) : (accept s c).busy = true := rfl
@[simp] theorem softReset_busy (s : State) : (softReset s).busy = false := rfl
@[simp] theorem hardReset_busy (s : State) : (hardReset s).busy = false := rfl

end Sys2Proof.Machine
end

