-- ==== Sys2Proof/Laws/Command.lean ====
section
/-! SUPPORT. What a command's checks and its completion can do (60_exceptions.md R234-R236), and where the addresses of
its operands lie (20_memory.md R80-R84). -/

namespace Sys2Proof.Machine

variable {P : Config} {i : Instr} {s t : State} {body : Except Fault (State × ErrCode)}

/-- A command goes on in two ways only: it reports a failed check with no other effect, or all checks pass and its
pseudocode ends. -/
theorem runCommand_next_iff : runCommand P i s body = .next t ↔
    (∃ e, firstError P i s = .ok (some e) ∧ t = complete s e) ∨
    (firstError P i s = .ok none ∧ ∃ s' e, body = .ok (s', e) ∧ t = complete s' e) := by
  unfold runCommand
  cases hf : firstError P i s with
  | error f => simp [finish, bind, Except.bind]
  | ok o =>
    cases o with
    | some e => simp [finish, bind, Except.bind, eq_comm]
    | none =>
      cases body with
      | error f => simp [finish, bind, Except.bind]
      | ok r => obtain ⟨s', e⟩ := r; simp [finish, bind, Except.bind, eq_comm]

theorem runCommand_fault_iff {f : Fault} : runCommand P i s body = .fault f ↔
    firstError P i s = .error f ∨ (firstError P i s = .ok none ∧ body = .error f) := by
  unfold runCommand
  cases hf : firstError P i s with
  | error f => simp [finish, bind, Except.bind]
  | ok o =>
    cases o with
    | some e => simp [finish, bind, Except.bind]
    | none =>
      cases body with
      | error f => simp [finish, bind, Except.bind]
      | ok r => obtain ⟨s', e⟩ := r; simp [finish, bind, Except.bind]

theorem runCommand_not_refused {r : Refusal} : runCommand P i s body ≠ .refused r := by
  unfold runCommand finish
  split <;> simp

/-- A command whose checks pass and whose pseudocode ends goes on. -/
theorem runCommand_eq {s' : State} {e : ErrCode} (hc : firstError P i s = .ok none) (hb : body = .ok (s', e)) :
    runCommand P i s body = .next (complete s' e) := runCommand_next_iff.2 (.inr ⟨hc, s', e, hb, rfl⟩)

/-- A command whose check fails reports it. -/
theorem runCommand_failed {e : ErrCode} (hc : firstError P i s = .ok (some e)) :
    runCommand P i s body = .next (complete s e) := runCommand_next_iff.2 (.inl ⟨e, hc, rfl⟩)

/-- No check of a list fails exactly if each that applies passes (R234). -/
theorem firstFailing_none_iff : ∀ {es : List ErrCode},
    firstFailing P i s es = .ok none ↔ ∀ e ∈ es, checkApplies e i = true → checkFails P i s e = .ok false
  | [] => by simp [firstFailing]
  | e :: es => by
    unfold firstFailing
    split
    · next ha =>
      rw [bind_ok_iff]
      constructor
      · rintro ⟨b, hb, h⟩ e' he' ha'
        cases b with
        | true => simp at h
        | false =>
          rcases List.mem_cons.1 he' with rfl | he'
          · exact hb
          · exact firstFailing_none_iff.1 (by simpa using h) e' he' ha'
      · intro h
        exact ⟨false, h e List.mem_cons_self ha, by
          simpa using firstFailing_none_iff.2 fun e' he' => h e' (List.mem_cons_of_mem _ he')⟩
    · next ha =>
      rw [firstFailing_none_iff]
      constructor
      · intro h e' he' ha'
        rcases List.mem_cons.1 he' with rfl | he'
        · exact absurd ha' ha
        · exact h e' he' ha'
      · exact fun h e' he' => h e' (List.mem_cons_of_mem _ he')

/-- The first failing check of a list: it applies and fails, and each before it that applies passes (R234). -/
theorem firstFailing_some {e : ErrCode} : ∀ {es : List ErrCode}, firstFailing P i s es = .ok (some e) →
    ∃ pre post, es = pre ++ e :: post ∧ checkApplies e i = true ∧ checkFails P i s e = .ok true ∧
      ∀ e' ∈ pre, checkApplies e' i = true → checkFails P i s e' = .ok false
  | [], h => by simp [firstFailing] at h
  | e' :: es, h => by
    unfold firstFailing at h
    split at h
    · next ha =>
      obtain ⟨b, hb, h⟩ := bind_ok_iff.1 h
      cases b with
      | true =>
        simp only [if_true, Except.ok.injEq, Option.some.injEq] at h
        subst h
        exact ⟨[], es, rfl, ha, hb, fun _ h => absurd h List.not_mem_nil⟩
      | false =>
        obtain ⟨pre, post, he, h1, h2, h3⟩ := firstFailing_some (by simpa using h)
        refine ⟨e' :: pre, post, by rw [he]; rfl, h1, h2, fun e'' he'' ha'' => ?_⟩
        rcases List.mem_cons.1 he'' with rfl | he''
        · exact hb
        · exact h3 e'' he'' ha''
    · next ha =>
      obtain ⟨pre, post, he, h1, h2, h3⟩ := firstFailing_some h
      refine ⟨e' :: pre, post, by rw [he]; rfl, h1, h2, fun e'' he'' ha'' => ?_⟩
      rcases List.mem_cons.1 he'' with rfl | he''
      · exact absurd ha'' ha
      · exact h3 e'' he'' ha''

/-- A list of checks of which those before `e` pass reports `e` if it fails. -/
theorem firstFailing_eq_some {e : ErrCode} : ∀ {pre post : List ErrCode},
    checkApplies e i = true → checkFails P i s e = .ok true →
    (∀ e' ∈ pre, checkApplies e' i = true → checkFails P i s e' = .ok false) →
    firstFailing P i s (pre ++ e :: post) = .ok (some e)
  | [], post, ha, hf, _ => by
    simp [firstFailing, ha, hf, bind, Except.bind]
  | e' :: pre, post, ha, hf, h => by
    have ih := firstFailing_eq_some (pre := pre) (post := post) ha hf fun e'' he'' => h e'' (List.mem_cons_of_mem _ he'')
    by_cases ha' : checkApplies e' i = true
    · simp [firstFailing, ha', h e' List.mem_cons_self ha', bind, Except.bind, ih]
    · simp [firstFailing, ha', ih]

/-- The checks of a command pass exactly if each that applies passes (R233, R234). -/
theorem firstError_none_iff :
    firstError P i s = .ok none ↔ ∀ e ∈ checkOrder, checkApplies e i = true → checkFails P i s e = .ok false :=
  firstFailing_none_iff

/-- Only MAP_FIELD of EXTRACT can stop in its checks, for it alone reads BUF (R235). -/
theorem checkFails_total (h : i ≠ .extract) (e : ErrCode) : ∃ b, checkFails P i s e = .ok b := by
  cases e <;> first
    | exact ⟨_, rfl⟩
    | (cases i <;> first | exact ⟨_, rfl⟩ | exact absurd rfl h)

/-! ### Regions -/

theorem Region.inRange_iff {q : Region} : q.inRange P = true ↔ q.len = 0 ∨ q.base + q.len ≤ P.bufBytes := by
  simp [Region.inRange]

/-- Overlap in the sense of R82 is a common address. -/
theorem Region.overlaps_iff {q p : Region} :
    q.overlaps p = true ↔ ∃ a, inSpan q.base q.len a ∧ inSpan p.base p.len a := by
  simp only [Region.overlaps, Bool.and_eq_true, decide_eq_true_eq, inSpan]
  constructor
  · rintro ⟨⟨⟨h1, h2⟩, h3⟩, h4⟩
    exact ⟨max q.base p.base, by omega, by omega⟩
  · rintro ⟨a, h1, h2⟩
    omega

/-- The OVERLAP check passes exactly if no written region shares an address with another (R82). -/
theorem anyOverlap_false_iff : ∀ {rs : List Region}, anyOverlap rs = false ↔
    rs.Pairwise (fun q p => (q.writes = true ∨ p.writes = true) → ∀ a, ¬ (inSpan q.base q.len a ∧ inSpan p.base p.len a))
  | [] => by simp [anyOverlap]
  | r :: rs => by
    rw [anyOverlap, Bool.or_eq_false_iff, List.pairwise_cons, anyOverlap_false_iff (rs := rs), List.any_eq_false]
    refine and_congr_left fun _ => forall₂_congr fun q _ => ?_
    rw [Bool.and_eq_true, Bool.or_eq_true, Region.overlaps_iff]
    constructor
    · exact fun h hw a ha => h ⟨hw, a, ha⟩
    · exact fun h ⟨hw, a, ha⟩ => h hw a ha

theorem regionsApart_iff {r : Regs} : anyOverlap (regionsOf i r) = false ↔ regionsApart i r := anyOverlap_false_iff

/-- Where the RANGE check applies and passes, every region is in range (R81). -/
theorem regionsInRange_of_rangeFails {r : Regs} (h : rangeFails P i r = false) : regionsInRange P i r := by
  intro q hq
  have := (Bool.or_eq_false_iff.1 h).2
  rw [List.any_eq_false] at this
  simpa [Region.inRange_iff] using this q hq

/-- An address of a region in range is in BUF (R81). -/
theorem lt_bufBytes_of_inRegions {r : Regs} (h : regionsInRange P i r) {a : Nat} (ha : inRegions i r a) :
    a < P.bufBytes := by
  obtain ⟨q, hq, h1, h2⟩ := ha
  have := h q hq
  omega

/-- Every sample of a block that lies in the plane is in the plane's region (R80, R130). -/
theorem sampleAddr_inSpan {base w h x y : Nat} (hx : x + 3 ≤ w) (hy : y + 3 ≤ h) (p : Fin 9) :
    inSpan base (w * h) (sampleAddr base w x y p) := by
  have hp := p.isLt
  unfold inSpan sampleAddr
  have h1 : y + p.val / 3 + 1 ≤ h := by omega
  have h2 : x + p.val % 3 < w := by omega
  have h3 : (y + p.val / 3 + 1) * w ≤ h * w := Nat.mul_le_mul_right w h1
  rw [Nat.mul_comm w h]
  constructor
  · omega
  · have : (y + p.val / 3 + 1) * w = (y + p.val / 3) * w + w := by ring
    omega

/-- The k-th visited block lies in the plane (41_driver.md R170, R171). -/
theorem block_inPlane {w h k : Nat} (hw : w % 3 = 0) (hh : h % 3 = 0) (hk : k < (w / 3) * (h / 3)) :
    blockX (h / 3) k + 3 ≤ w ∧ blockY (h / 3) k + 3 ≤ h := by
  have hpos : 0 < h / 3 := by
    rcases Nat.eq_zero_or_pos (h / 3) with h0 | h0
    · simp [h0] at hk
    · exact h0
  have h1 : k / (h / 3) < w / 3 := (Nat.div_lt_iff_lt_mul hpos).2 hk
  have h2 : k % (h / 3) < h / 3 := Nat.mod_lt _ hpos
  unfold blockX blockY
  omega

/-- The bytes that hold bits below `n` (R84): there are ceildiv(n, 8) of them. -/
theorem bit_byte_lt {n j : Nat} (h : j < n) : j / 8 < ceilDiv n 8 := by unfold ceilDiv; omega

/-- Rows and columns of a block read each sample from the bytes of the region. -/
theorem written_of_inSpan {m : Memory} {base len a : Nat} (h : m.written base len) (ha : inSpan base len a) :
    (m.read? a).isSome := by
  obtain ⟨h1, h2⟩ := ha
  have := h (a - base) (by omega)
  rwa [Nat.add_sub_cancel' h1] at this

/-- BUF_BYTES of the machine is within the bounds of 00_scope.md R6. -/
theorem bufBytes_bounds : 64 ≤ Config.machine.bufBytes ∧ Config.machine.bufBytes ≤ 2 ^ 32 := by
  show 64 ≤ Config.bufSize ∧ Config.bufSize ≤ 2 ^ 32
  unfold Config.bufSize
  split <;> omega

/-- The machine's parameters are well-formed (00_scope.md R6). -/
theorem machine_wf : Config.machine.wf = true := by
  simp only [Config.wf, Bool.and_eq_true, decide_eq_true_eq]
  exact bufBytes_bounds

/-! ### The operands that pass every check but MAP_FIELD -/

/-- The RANGE check passes exactly if the cursor has room and every region is in range (R81, R230). -/
theorem rangeFails_false_iff {r : Regs} : rangeFails P i r = false ↔ cursorFits i r ∧ regionsInRange P i r := by
  unfold rangeFails regionsInRange
  rw [Bool.or_eq_false_iff, List.any_eq_false]
  refine and_congr ?_ (forall₂_congr fun q _ => by simp [Region.inRange_iff])
  cases i <;> simp [cursorFits]

/-- The checks before MAP_FIELD pass exactly if the operands do (R230, R233, R234). -/
theorem operandsOk_iff :
    (∀ e ∈ checkOrder, e ≠ .mapField → checkApplies e i = true → checkFails P i s e = .ok false) ↔
      operandsOk P i s.regs := by
  have hn : ∀ r, rangeFails P .nop r = false := fun r => rfl
  have h1 : ∀ r, anyOverlap (regionsOf .nop r) = false := fun r => rfl
  have h2 : ∀ r, anyOverlap (regionsOf .predict r) = false := fun r => by simp [regionsOf, anyOverlap]
  have h3 : ∀ r, anyOverlap (regionsOf .shuffle r) = false := fun r => by simp [regionsOf, anyOverlap]
  have h4 : ∀ r, anyOverlap (regionsOf .unshuffle r) = false := fun r => by simp [regionsOf, anyOverlap]
  simp only [operandsOk, ← regionsApart_iff]
  rw [← and_assoc (a := cursorFits i s.regs), ← rangeFails_false_iff]
  cases i <;> simp [checkOrder, checkApplies, checkFails, earlyChecksPass, geometryFails, outCapacityFails,
    blockGeometry, planeGeometry, and_assoc, hn, h1, h2, h3, h4]
  simp only [ceilDiv, blockCount]
  exact fun _ _ => Iff.rfl

/-- The checks of a command pass exactly if its operands do and no map byte it reads is malformed (R234). -/
theorem firstError_none_iff_operandsOk : firstError P i s = .ok none ↔
    operandsOk P i s.regs ∧ (checkApplies .mapField i = true → checkFails P i s .mapField = .ok false) := by
  rw [firstError_none_iff, ← operandsOk_iff]
  constructor
  · exact fun h => ⟨fun e he _ ha => h e he ha, fun ha => h _ (by decide) ha⟩
  · rintro ⟨h1, h2⟩ e he ha
    by_cases hm : e = .mapField
    · exact hm ▸ h2 (hm ▸ ha)
    · exact h1 e he hm ha

/-- Operands that pass, with the pseudocode ending: the command completes with its own effect (R234, R236). -/
theorem runCommand_of_operandsOk {s' : State} {e : ErrCode} (ho : operandsOk P i s.regs)
    (hm : checkApplies .mapField i = true → checkFails P i s .mapField = .ok false) (hb : body = .ok (s', e)) :
    runCommand P i s body = .next (complete s' e) :=
  runCommand_eq (firstError_none_iff_operandsOk.2 ⟨ho, hm⟩) hb

end Sys2Proof.Machine
end

