-- ==== Sys2Proof/Laws/Block.lean ====
section
/-! SUPPORT. What embedding and extracting one block leave (40_block_codec.md R140-R143): the samples, the bits and the
side information, said once per operation. -/

namespace Sys2Proof.Machine

variable {P : Config} {pl : Planes} {x y : Nat}

/-- The BUF address of EP `i` of the block at (x, y) in image 1 (R130, R131). -/
def epAddr (pl : Planes) (x y : Nat) (i : Fin 5) : Nat := sampleAddr pl.p1 pl.w x y (epPos i)

/-- Bit `j` of the bit stream at `base`, none in an unwritten byte (20_memory.md R84). -/
def bitAt (m : Memory) (base j : Nat) : Option Bool := (m.read? (base + j / 8)).map (fun v => v.getLsbD (j % 8))

theorem bitAt_congr {m m' : Memory} {base j : Nat} (h : m'.read? (base + j / 8) = m.read? (base + j / 8)) :
    bitAt m' base j = bitAt m base j := by rw [bitAt, bitAt, h]

theorem bitAt_eq_some_iff {m : Memory} {base j : Nat} {b : Bool} :
    bitAt m base j = some b ↔ ∃ v, m.read? (base + j / 8) = some v ∧ v.getLsbD (j % 8) = b := by
  simp [bitAt]

/-- Distinct positions of a block have distinct addresses, in a plane at least three samples wide (R130). -/
theorem sampleAddr_injective {base w : Nat} (hw : 3 ≤ w) {p q : Fin 9}
    (h : sampleAddr base w x y p = sampleAddr base w x y q) : p = q := by
  have hp := p.isLt
  have hq := q.isLt
  unfold sampleAddr at h
  have h1 : ∀ r, r < 9 → (y + r / 3) * w = y * w + r / 3 * w := fun r _ => Nat.add_mul _ _ _
  rw [h1 _ hp, h1 _ hq] at h
  have hrow : p.val / 3 = q.val / 3 := by
    rcases lt_trichotomy (p.val / 3) (q.val / 3) with hlt | heq | hlt
    · have := Nat.mul_le_mul_right w (show p.val / 3 + 1 ≤ q.val / 3 from hlt)
      rw [Nat.add_mul] at this
      omega
    · exact heq
    · have := Nat.mul_le_mul_right w (show q.val / 3 + 1 ≤ p.val / 3 from hlt)
      rw [Nat.add_mul] at this
      omega
  rw [hrow] at h
  exact Fin.ext (by omega)

theorem epPos_injective {i j : Fin 5} (h : epPos i = epPos j) : i = j := by
  revert i j; decide

theorem epAddr_injective (hw : 3 ≤ pl.w) {i j : Fin 5} (h : epAddr pl x y i = epAddr pl x y j) : i = j :=
  epPos_injective (sampleAddr_injective hw h)

/-- `WriteBit(j, b)` sets bit `j` of the stream and leaves every other bit of it and every other byte (R85). -/
theorem writeBit_ok {m m' : Memory} {dst j : Nat} {b : Bool} (h : writeBit P m dst j b = .ok m') :
    (m.read? (dst + j / 8)).isSome ∧ bitAt m' dst j = some b ∧ (∀ k, k ≠ j → bitAt m' dst k = bitAt m dst k) ∧
      ∀ a, a ≠ dst + j / 8 → m'.read? a = m.read? a := by
  obtain ⟨v, hv, h⟩ := bind_ok_iff.1 h
  obtain ⟨-, hv⟩ := memRead_ok_iff.1 hv
  obtain ⟨-, rfl⟩ := memWrite_ok_iff.1 h
  have hbit : ∀ k, k < 8 → ((v &&& ~~~(1#8 <<< (j % 8))) ||| (BitVec.zeroExtend 8 (BitVec.ofBool b) <<< (j % 8))).getLsbD k
      = if k = j % 8 then b else v.getLsbD k := by
    have hj : j % 8 < 8 := Nat.mod_lt _ (by decide)
    intro k hk
    generalize j % 8 = r at hj
    interval_cases r <;> interval_cases k <;> cases b <;> simp
  refine ⟨by simp [hv], ?_, fun k hk => ?_, fun a ha => read?_write_other _ _ ha⟩
  · rw [bitAt, read?_write_same, Option.map_some, hbit _ (Nat.mod_lt _ (by decide)), if_pos rfl]
  · by_cases hb : dst + k / 8 = dst + j / 8
    · rw [bitAt, hb, read?_write_same, Option.map_some, hbit _ (Nat.mod_lt _ (by decide)), if_neg (by omega), bitAt, hb, hv]
      rfl
    · exact bitAt_congr (read?_write_other _ _ hb)

/-- The EPs of a list before `i` that satisfy `f`. -/
def countIn (f : Fin 5 → Bool) (is : List (Fin 5)) (i : Fin 5) : Nat := ((is.takeWhile (fun j => j != i)).filter f).length

theorem countIn_epIndices (f : Fin 5 → Bool) (i : Fin 5) : countIn f epIndices i = countBefore f i := by
  revert f i; decide

/-- One EP of BlockEmbed (R140), said whole. -/
theorem embedEp_ok {src total : Nat} {a : Fin 9 → Byte} {d : Fin 5 → Int} {acc acc' : EmbedAcc} {i : Fin 5}
    (h : embedEp P pl x y src total a d acc i = .ok acc') :
    (∀ z, z ≠ epAddr pl x y i → acc'.mem.read? z = acc.mem.read? z) ∧
    (d i = peak d → ∃ bit, embedBit P acc.mem src acc.cursor total = .ok bit ∧ acc'.cursor = acc.cursor + 1 ∧
      acc'.first = false ∧ acc'.rdu = (if acc.first then bit else acc.rdu) ∧
      acc'.cnt = (if acc.first then i.val else acc.cnt) ∧
      acc'.mem.read? (epAddr pl x y i) = if bit then some (a (epPos i) + 8) else acc.mem.read? (epAddr pl x y i)) ∧
    (d i ≠ peak d → acc'.cursor = acc.cursor ∧ acc'.first = acc.first ∧ acc'.rdu = acc.rdu ∧ acc'.cnt = acc.cnt ∧
      acc'.mem.read? (epAddr pl x y i) =
        if peak d < d i then some (a (epPos i) + 8) else acc.mem.read? (epAddr pl x y i)) := by
  have hframe : ∀ z, z ≠ epAddr pl x y i → acc'.mem.read? z = acc.mem.read? z := by
    have ht : Touches P (fun _ => True) (fun z => z = epAddr pl x y i) acc.mem
      (embedEp P pl x y src total a d acc i) EmbedAcc.mem := embedEp_touches (fun _ _ => trivial) trivial rfl
    exact (ht.kept h).frame
  refine ⟨hframe, fun hd => ?_, fun hd => ?_⟩
  · unfold embedEp at h
    simp only [hd, if_true] at h
    obtain ⟨bit, hbit, h⟩ := bind_ok_iff.1 h
    obtain ⟨m1, hm1, h⟩ := bind_ok_iff.1 h
    cases h
    refine ⟨bit, hbit, rfl, rfl, rfl, rfl, ?_⟩
    cases bit with
    | false => cases hm1; rfl
    | true => obtain ⟨-, rfl⟩ := memWrite_ok_iff.1 hm1; exact read?_write_same _ _ _
  · unfold embedEp at h
    simp only [hd, if_false] at h
    split at h
    · next hlt =>
      obtain ⟨m1, hm1, h⟩ := bind_ok_iff.1 h
      cases h
      obtain ⟨-, rfl⟩ := memWrite_ok_iff.1 hm1
      exact ⟨rfl, rfl, rfl, rfl, by rw [if_pos hlt]; exact read?_write_same _ _ _⟩
    · next hlt => cases h; exact ⟨rfl, rfl, rfl, rfl, by rw [if_neg hlt]⟩

/-- What the EPs of BlockEmbed leave (R140): `pay` are the bits the peaks take, whatever the EP samples hold meanwhile. -/
theorem embedEps_values {src total : Nat} {a : Fin 9 → Byte} {d : Fin 5 → Int} {m : Memory} {pay : Nat → Bool}
    (hinj : ∀ i j, epAddr pl x y i = epAddr pl x y j → i = j) :
    ∀ {is : List (Fin 5)} {acc acc' : EmbedAcc}, is.Nodup → embedEps P pl x y src total a d is acc = .ok acc' →
      (∀ z, (∀ i, z ≠ epAddr pl x y i) → acc.mem.read? z = m.read? z) →
      (∀ i ∈ is, acc.mem.read? (epAddr pl x y i) = some (a (epPos i))) →
      (∀ j m', acc.cursor ≤ j → j < acc.cursor + (is.filter (fun i => d i == peak d)).length →
        (∀ z, (∀ i, z ≠ epAddr pl x y i) → m'.read? z = m.read? z) → embedBit P m' src j total = .ok (pay j)) →
      (∀ z, (∀ i ∈ is, z ≠ epAddr pl x y i) → acc'.mem.read? z = acc.mem.read? z) ∧
      (∀ i ∈ is, acc'.mem.read? (epAddr pl x y i) = some
        (if d i = peak d ∧ pay (acc.cursor + countIn (fun j => d j == peak d) is i) = true ∨ peak d < d i
          then a (epPos i) + 8 else a (epPos i))) ∧
      (acc.first = false → acc'.rdu = acc.rdu ∧ acc'.cnt = acc.cnt) ∧
      (acc.first = true → ∀ i, is.find? (fun j => d j == peak d) = some i →
        acc'.rdu = pay acc.cursor ∧ acc'.cnt = i.val)
  | [], acc, acc', _, h, _, _, _ => by
    cases h
    exact ⟨fun _ _ => rfl, fun i hi => absurd hi List.not_mem_nil, fun _ => ⟨rfl, rfl⟩, fun _ i hi => by simp at hi⟩
  | i :: is, acc, acc', hnd, h, hagree, hsamp, hpay => by
    obtain ⟨acc1, h1, h2⟩ := bind_ok_iff.1 h
    obtain ⟨hni, hnd'⟩ := List.nodup_cons.1 hnd
    obtain ⟨hframe, hpk, hnpk⟩ := embedEp_ok h1
    have hc := embedEp_cursor h1
    have hagree1 : ∀ z, (∀ i, z ≠ epAddr pl x y i) → acc1.mem.read? z = m.read? z :=
      fun z hz => (hframe z (hz i)).trans (hagree z hz)
    have hsamp1 : ∀ j ∈ is, acc1.mem.read? (epAddr pl x y j) = some (a (epPos j)) := fun j hj => by
      rw [hframe _ (fun he => hni (hinj _ _ he ▸ hj))]
      exact hsamp j (List.mem_cons_of_mem _ hj)
    have hlen : (((i :: is).filter (fun i => d i == peak d)).length) =
        (if d i = peak d then 1 else 0) + (is.filter (fun i => d i == peak d)).length := by
      by_cases hd : d i = peak d
      · simp [hd]; omega
      · simp [hd]
    obtain ⟨hfr, hv, hf, ht⟩ := embedEps_values hinj hnd' h2 hagree1 hsamp1
      (fun j m' hj hj' hm' => hpay j m' (by omega) (by rw [hlen]; omega) hm')
    have hlast : acc'.mem.read? (epAddr pl x y i) = acc1.mem.read? (epAddr pl x y i) :=
      hfr _ fun j hj he => hni (hinj _ _ he ▸ hj)
    have hi := hsamp i List.mem_cons_self
    refine ⟨fun z hz => ?_, fun j hj => ?_, fun hfirst => ?_, fun hfirst j hj => ?_⟩
    · rw [hfr z fun j hj => hz j (List.mem_cons_of_mem _ hj), hframe z (hz i List.mem_cons_self)]
    · rcases List.mem_cons.1 hj with rfl | hj
      · rw [hlast, show countIn (fun k => d k == peak d) (j :: is) j = 0 by simp [countIn], Nat.add_zero]
        by_cases hd : d j = peak d
        · obtain ⟨bit, hbit, -, -, -, -, hr⟩ := hpk hd
          have hb := hpay acc.cursor acc.mem le_rfl (by rw [hlen, if_pos hd]; omega) hagree
          rw [hbit] at hb
          cases hb
          rw [hr, hi]
          cases hp : pay acc.cursor <;> simp [hd]
        · obtain ⟨-, -, -, -, hr⟩ := hnpk hd
          rw [hr, hi]
          by_cases hlt : peak d < d j <;> simp [hd, hlt]
      · have hne : i ≠ j := fun he => hni (he ▸ hj)
        rw [hv j hj]
        have : countIn (fun k => d k == peak d) (i :: is) j =
            (if d i = peak d then 1 else 0) + countIn (fun k => d k == peak d) is j := by
          unfold countIn
          rw [List.takeWhile_cons_of_pos (by simpa using hne)]
          by_cases hd : d i = peak d
          · simp [hd]; omega
          · simp [hd]
        rw [this, hc, Nat.add_assoc]
    · by_cases hd : d i = peak d
      · obtain ⟨bit, -, -, hf1, hr, hcn, -⟩ := hpk hd
        have := hf hf1
        rw [this.1, this.2, hr, hcn, hfirst]
        exact ⟨rfl, rfl⟩
      · obtain ⟨-, hf1, hr, hcn, -⟩ := hnpk hd
        have := hf (hf1.trans hfirst)
        rw [this.1, this.2, hr, hcn]
        exact ⟨rfl, rfl⟩
    · by_cases hd : d i = peak d
      · rw [List.find?_cons_of_pos (by simpa using hd)] at hj
        cases hj
        obtain ⟨bit, hbit, -, hf1, hr, hcn, -⟩ := hpk hd
        have hb := hpay acc.cursor acc.mem le_rfl (by rw [hlen, if_pos hd]; omega) hagree
        rw [hbit] at hb
        cases hb
        have := hf hf1
        rw [this.1, this.2, hr, hcn, hfirst]
        exact ⟨rfl, rfl⟩
      · rw [List.find?_cons_of_neg (by simpa using hd)] at hj
        obtain ⟨hc1, hf1, -, -, -⟩ := hnpk hd
        have := ht (hf1.trans hfirst) j hj
        rwa [hc1] at this

/-- The peak is one of the residuals (R138). -/
theorem peak_mem (d : Fin 5 → Int) : ∃ i, d i = peak d := by
  have key : ∀ (is : List (Fin 5)) (b : Int), (∃ i, d i = b) →
      ∃ i, d i = is.foldl (fun best i => if beatsPeak d best (d i) then d i else best) b := by
    intro is
    induction is with
    | nil => exact fun b h => h
    | cons i is ih =>
      intro b h
      refine ih _ ?_
      dsimp only
      split
      · exact ⟨i, rfl⟩
      · exact h
  exact key epIndices _ ⟨0, rfl⟩

/-- The first EP at the peak, in index order (R140). -/
theorem exists_firstPeak (d : Fin 5 → Int) : ∃ i, epIndices.find? (fun j => d j == peak d) = some i ∧ d i = peak d ∧
    ∀ j, j < i → d j ≠ peak d := by
  obtain ⟨k, hk⟩ := peak_mem d
  generalize peak d = v at *
  have h : ∀ (k : Fin 5) (f : Fin 5 → Bool), f k = true →
      ∃ i, epIndices.find? f = some i ∧ f i = true ∧ ∀ j, j < i → f j = false := by decide
  obtain ⟨i, h1, h2, h3⟩ := h k (fun j => d j == v) (by simpa using hk)
  exact ⟨i, h1, by simpa using h2, fun j hj => by simpa using h3 j hj⟩

/-- BlockEmbed on a block the guard rejects (R144). -/
theorem blockEmbed_rejected {src cursor total : Nat} {m : Memory} (hg : guardRejects P m pl x y = .ok true) :
    blockEmbed P pl x y src cursor total m = .ok (m, 0x00, cursor) := by
  unfold blockEmbed
  rw [hg]
  rfl

/-- BlockEmbed on a block the guard accepts (R140): side information, cursor, EP samples, and nothing else changed. -/
theorem blockEmbed_accepted {src cursor total : Nat} {m : Memory} {r : Memory × Byte × Nat} {a b : Fin 9 → Byte}
    {pay : Nat → Bool} (hw : 3 ≤ pl.w) (ha : readBlock P m pl.p1 pl.w x y = .ok a)
    (hb : readBlock P m pl.p2 pl.w x y = .ok b) (hg : guardHolds P.guardScope a b = false)
    (hpay : ∀ j m', cursor ≤ j → j < cursor + residualCount (dHsb a b) (peak (dHsb a b)) →
      (∀ z, (∀ i, z ≠ epAddr pl x y i) → m'.read? z = m.read? z) → embedBit P m' src j total = .ok (pay j))
    (h : blockEmbed P pl x y src cursor total m = .ok r) :
    r.2.2 = cursor + residualCount (dHsb a b) (peak (dHsb a b)) ∧
    (∃ first, dHsb a b first = peak (dHsb a b) ∧ (∀ j, j < first → dHsb a b j ≠ peak (dHsb a b)) ∧
      r.2.1 = packMap true (pay cursor) first.val) ∧
    (∀ i, r.1.read? (epAddr pl x y i) = some
      (if dHsb a b i = peak (dHsb a b) ∧
          pay (cursor + countBefore (fun j => dHsb a b j == peak (dHsb a b)) i) = true ∨
          peak (dHsb a b) < dHsb a b i
        then a (epPos i) + 8 else a (epPos i))) ∧
    ∀ z, (∀ i, z ≠ epAddr pl x y i) → r.1.read? z = m.read? z := by
  unfold blockEmbed at h
  rw [guardRejects_eq ha hb, hg] at h
  obtain ⟨g, hg', h⟩ := bind_ok_iff.1 h
  cases hg'
  rw [if_neg Bool.false_ne_true] at h
  obtain ⟨a', ha', h⟩ := bind_ok_iff.1 h
  rw [ha] at ha'
  cases ha'
  obtain ⟨b', hb', h⟩ := bind_ok_iff.1 h
  rw [hb] at hb'
  cases hb'
  obtain ⟨acc, hacc, h⟩ := bind_ok_iff.1 h
  cases h
  have hsamp : ∀ i ∈ epIndices, m.read? (epAddr pl x y i) = some (a (epPos i)) :=
    fun i _ => (readBlock_ok_iff.1 ha (epPos i)).2
  obtain ⟨hfr, hv, -, hfirst⟩ := embedEps_values (m := m) (fun i j => epAddr_injective hw) (by decide) hacc
    (fun _ _ => rfl) hsamp hpay
  have hall : ∀ i : Fin 5, i ∈ epIndices := by decide
  obtain ⟨first, hf1, hf2, hf3⟩ := exists_firstPeak (dHsb a b)
  refine ⟨embedEps_cursor hacc, ⟨first, hf2, hf3, ?_⟩, fun i => ?_, fun z hz => hfr z fun i _ => hz i⟩
  · have := hfirst rfl first hf1
    simp only [this.1, this.2]
  · have := hv i (hall i)
    rwa [countIn_epIndices] at this

/-- One EP of BlockExtract (R142), said whole; bit positions below `cap` lie outside the EP samples. -/
theorem extractEp_ok {dst cap : Nat} {a : Fin 9 → Byte} {d : Fin 5 → Int} {me : Int} {m : Memory} {cursor : Nat}
    {i : Fin 5} {r : Memory × Nat} (hap : ∀ j i, j < cap → dst + j / 8 ≠ epAddr pl x y i) (hc : cursor < cap)
    (h : extractEp P pl x y dst a d me m cursor i = .ok r) :
    r.1.read? (epAddr pl x y i) = (if me < d i then some (a (epPos i) - 8) else m.read? (epAddr pl x y i)) ∧
    ((d i == me || d i == me + 1) = true → (m.read? (dst + cursor / 8)).isSome ∧
      r.2 = cursor + 1 ∧ bitAt r.1 dst cursor = some (d i == me + 1)) ∧
    ((d i == me || d i == me + 1) = false → r.2 = cursor ∧ bitAt r.1 dst cursor = bitAt m dst cursor) ∧
    (∀ k, k < cap → k ≠ cursor → bitAt r.1 dst k = bitAt m dst k) ∧
    ∀ z, z ≠ epAddr pl x y i → ((d i == me || d i == me + 1) = true → z ≠ dst + cursor / 8) →
      r.1.read? z = m.read? z := by
  obtain ⟨⟨m1, c1⟩, h1, h2⟩ := bind_ok_iff.1 h
  have hstore : (∀ z, z ≠ epAddr pl x y i → r.1.read? z = m1.read? z) ∧ r.2 = c1 ∧
      r.1.read? (epAddr pl x y i) = if me < d i then some (a (epPos i) - 8) else m1.read? (epAddr pl x y i) := by
    simp only at h2
    split at h2
    · next hlt =>
      obtain ⟨m2, hm2, h2⟩ := bind_ok_iff.1 h2
      cases h2
      obtain ⟨-, rfl⟩ := memWrite_ok_iff.1 hm2
      exact ⟨fun z hz => read?_write_other _ _ hz, rfl, by rw [if_pos hlt]; exact read?_write_same _ _ _⟩
    · next hlt => cases h2; exact ⟨fun _ _ => rfl, rfl, by rw [if_neg hlt]⟩
  obtain ⟨hfr, hr2, hval⟩ := hstore
  have hbits : ∀ k, k < cap → bitAt r.1 dst k = bitAt m1 dst k := fun k hk => bitAt_congr (hfr _ (hap k i hk))
  have hcar := carriedBit_isSome me (d i)
  cases hb : carriedBit me (d i) with
  | none =>
    rw [hb] at h1 hcar
    cases h1
    refine ⟨hval, fun hc' => ?_, fun _ => ⟨hr2, hbits _ hc⟩, fun k hk _ => hbits k hk, fun z hz _ => hfr z hz⟩
    rw [hc'] at hcar
    simp at hcar
  | some b =>
    rw [hb] at h1 hcar
    obtain ⟨m1', hm1, h1⟩ := bind_ok_iff.1 h1
    cases h1
    obtain ⟨hw, hbit, hother, hz'⟩ := writeBit_ok hm1
    have hbv : b = (d i == me + 1) := by
      unfold carriedBit at hb
      split at hb
      · next he => cases hb; simp [he]
      · split at hb
        · next he => cases hb; simp [he]
        · cases hb
    refine ⟨?_, fun _ => ⟨hw, hr2, ?_⟩, fun hc' => ?_, fun k hk hne => ?_, fun z hz hzd => ?_⟩
    · rw [hval, hz' _ (fun he => hap cursor i hc he.symm)]
    · rw [hbits _ hc, hbit, hbv]
    · rw [hc'] at hcar
      simp at hcar
    · rw [hbits k hk, hother k hne]
    · rw [hfr z hz, hz' z (hzd (by rw [← hcar]; rfl))]

/-- What the EPs of BlockExtract leave (R142): samples, appended bits, the other bits, and nothing else changed. -/
theorem extractEps_values {dst cap : Nat} {a : Fin 9 → Byte} {d : Fin 5 → Int} {me : Int}
    (hinj : ∀ i j, epAddr pl x y i = epAddr pl x y j → i = j)
    (hap : ∀ j i, j < cap → dst + j / 8 ≠ epAddr pl x y i) :
    ∀ {is : List (Fin 5)} {m : Memory} {cursor : Nat} {r : Memory × Nat}, is.Nodup → cursor + is.length ≤ cap →
      extractEps P pl x y dst a d me is m cursor = .ok r →
      (∀ i ∈ is, r.1.read? (epAddr pl x y i) =
        if me < d i then some (a (epPos i) - 8) else m.read? (epAddr pl x y i)) ∧
      (∀ i ∈ is, (d i == me || d i == me + 1) = true →
        bitAt r.1 dst (cursor + countIn (fun j => d j == me || d j == me + 1) is i) = some (d i == me + 1)) ∧
      (∀ k, k < cap → ¬ (cursor ≤ k ∧ k < r.2) → bitAt r.1 dst k = bitAt m dst k) ∧
      ∀ z, (∀ i ∈ is, z ≠ epAddr pl x y i) → (∀ k, cursor ≤ k → k < r.2 → z ≠ dst + k / 8) → r.1.read? z = m.read? z
  | [], m, cursor, r, _, _, h => by
    cases h
    exact ⟨fun i hi => absurd hi List.not_mem_nil, fun i hi => absurd hi List.not_mem_nil, fun _ _ _ => rfl,
      fun _ _ _ => rfl⟩
  | i :: is, m, cursor, r, hnd, hcap, h => by
    obtain ⟨r1, h1, h2⟩ := bind_ok_iff.1 h
    obtain ⟨hni, hnd'⟩ := List.nodup_cons.1 hnd
    rw [List.length_cons] at hcap
    obtain ⟨hv, hyes, hno, hoth, hfr⟩ := extractEp_ok hap (by omega) h1
    have hcur := extractEp_cursor h1
    have hle : cursor ≤ r1.2 ∧ r1.2 ≤ cursor + 1 := by split at hcur <;> omega
    have hle2 : r1.2 ≤ r.2 := by rw [extractEps_cursor h2]; omega
    obtain ⟨hv2, hb2, ho2, hf2⟩ := extractEps_values hinj hap hnd' (by omega) h2
    have hne : ∀ j ∈ is, epAddr pl x y j ≠ epAddr pl x y i := fun j hj he => hni (hinj _ _ he ▸ hj)
    refine ⟨fun j hj => ?_, fun j hj hcar => ?_, fun k hk hkc => ?_, fun z hz hzd => ?_⟩
    · rcases List.mem_cons.1 hj with rfl | hj
      · rw [hf2 _ (fun k hk he => hne k hk he.symm) (fun k _ hk he => hap k j ?_ he.symm), hv]
        have := extractEps_cursor h2
        have := List.length_filter_le (fun i => d i == me || d i == me + 1) is
        omega
      · rw [hv2 j hj, hfr _ (hne j hj) (fun _ he => hap cursor j (by omega) he.symm)]
    · rcases List.mem_cons.1 hj with rfl | hj
      · rw [show countIn (fun k => d k == me || d k == me + 1) (j :: is) j = 0 by simp [countIn], Nat.add_zero]
        obtain ⟨-, hr, hbit⟩ := hyes hcar
        rw [ho2 cursor (by omega) (by omega), hbit]
      · have hij : i ≠ j := fun he => hni (he ▸ hj)
        have hcount : countIn (fun k => d k == me || d k == me + 1) (i :: is) j =
            (if d i == me || d i == me + 1 then 1 else 0) + countIn (fun k => d k == me || d k == me + 1) is j := by
          unfold countIn
          rw [List.takeWhile_cons_of_pos (by simpa using hij), List.filter_cons]
          split
          · rw [List.length_cons]; omega
          · omega
        rw [hcount, ← Nat.add_assoc, ← hcur]
        exact hb2 j hj hcar
    · rw [ho2 k hk (by omega)]
      by_cases hkc' : k = cursor
      · subst hkc'
        cases hcar : (d i == me || d i == me + 1) with
        | true => have := (hyes hcar).2.1; omega
        | false => exact (hno hcar).2
      · exact hoth k hk hkc'
    · rw [hf2 z (fun j hj => hz j (List.mem_cons_of_mem _ hj)) (fun k h1 h2 => hzd k (by omega) h2),
        hfr z (hz i List.mem_cons_self) (fun hcar => hzd cursor le_rfl (by have := (hyes hcar).2.1; omega))]

/-- BlockExtract with INUSE = 0 (R142). -/
theorem blockExtract_unused {dst cursor : Nat} {info : Byte} {m : Memory} (hi : mapInUse info = false) :
    blockExtract P pl x y dst info cursor m = .ok (m, cursor) := by
  unfold blockExtract
  rw [hi]
  rfl

/-- BlockExtract with INUSE = 1 (R142): samples, appended bits, the other bits, and nothing else changed. -/
theorem blockExtract_used {dst cap cursor : Nat} {info : Byte} {m : Memory} {r : Memory × Nat} {a b : Fin 9 → Byte}
    {me : Int} (hw : 3 ≤ pl.w) (ha : readBlock P m pl.p1 pl.w x y = .ok a) (hb : readBlock P m pl.p2 pl.w x y = .ok b)
    (hi : mapInUse info = true) (hme : me = dHsb a b (countIndex info) - (if mapRdu info then 1 else 0))
    (hap : ∀ j i, j < cap → dst + j / 8 ≠ epAddr pl x y i) (hcap : cursor + 5 ≤ cap)
    (h : blockExtract P pl x y dst info cursor m = .ok r) :
    r.2 = cursor + (epIndices.filter (fun i => dHsb a b i == me || dHsb a b i == me + 1)).length ∧
    (∀ i, r.1.read? (epAddr pl x y i) = some (if me < dHsb a b i then a (epPos i) - 8 else a (epPos i))) ∧
    (∀ i, (dHsb a b i == me || dHsb a b i == me + 1) = true →
      bitAt r.1 dst (cursor + countBefore (fun j => dHsb a b j == me || dHsb a b j == me + 1) i)
        = some (dHsb a b i == me + 1)) ∧
    (∀ k, k < cap → ¬ (cursor ≤ k ∧ k < r.2) → bitAt r.1 dst k = bitAt m dst k) ∧
    ∀ z, (∀ i, z ≠ epAddr pl x y i) → (∀ k, cursor ≤ k → k < r.2 → z ≠ dst + k / 8) → r.1.read? z = m.read? z := by
  unfold blockExtract at h
  rw [if_pos hi] at h
  obtain ⟨a', ha', h⟩ := bind_ok_iff.1 h
  rw [ha] at ha'
  cases ha'
  obtain ⟨b', hb', h⟩ := bind_ok_iff.1 h
  rw [hb] at hb'
  cases hb'
  simp only [← hme] at h
  have hall : ∀ i : Fin 5, i ∈ epIndices := by decide
  obtain ⟨h1, h2, h3, h4⟩ := extractEps_values (fun i j => epAddr_injective hw) hap (by decide) hcap h
  refine ⟨extractEps_cursor h, fun i => ?_, fun i hc => ?_, h3, fun z hz => h4 z fun i _ => hz i⟩
  · rw [h1 i (hall i)]
    have : m.read? (epAddr pl x y i) = some (a (epPos i)) := (readBlock_ok_iff.1 ha (epPos i)).2
    rw [this]
    split <;> rfl
  · have := h2 i (hall i) hc
    rwa [countIn_epIndices] at this

/-- The EPs of BlockEmbed succeed once each bit a peak asks for is there (R140). -/
theorem embedEps_succeeds {src total : Nat} {a : Fin 9 → Byte} {d : Fin 5 → Int} {m : Memory} {pay : Nat → Bool}
    (hbuf : ∀ i, epAddr pl x y i < P.bufBytes) : ∀ {is : List (Fin 5)} {acc : EmbedAcc},
      (∀ z, (∀ i, z ≠ epAddr pl x y i) → acc.mem.read? z = m.read? z) →
      (∀ j m', acc.cursor ≤ j → j < acc.cursor + (is.filter (fun i => d i == peak d)).length →
        (∀ z, (∀ i, z ≠ epAddr pl x y i) → m'.read? z = m.read? z) → embedBit P m' src j total = .ok (pay j)) →
      ∃ acc', embedEps P pl x y src total a d is acc = .ok acc'
  | [], acc, _, _ => ⟨acc, rfl⟩
  | i :: is, acc, hagree, hpay => by
    have hlen : (((i :: is).filter (fun i => d i == peak d)).length) =
        (if d i = peak d then 1 else 0) + (is.filter (fun i => d i == peak d)).length := by
      by_cases hd : d i = peak d
      · simp [hd]; omega
      · simp [hd]
    have h1 : ∃ acc1, embedEp P pl x y src total a d acc i = .ok acc1 := by
      have hw : ∀ (m : Memory) (v : Byte), memWrite P m (epAddr pl x y i) v = .ok (m.write (epAddr pl x y i) v) :=
        fun m v => memWrite_eq v (hbuf i)
      unfold embedEp
      split
      · next hd =>
        have hb := hpay acc.cursor acc.mem le_rfl (by rw [hlen, if_pos hd]; omega) hagree
        cases hp : pay acc.cursor with
        | true => exact ⟨_, bind_ok_iff.2 ⟨true, by rw [hb, hp], bind_ok_iff.2 ⟨_, hw _ _, rfl⟩⟩⟩
        | false => exact ⟨_, bind_ok_iff.2 ⟨false, by rw [hb, hp], bind_ok_iff.2 ⟨_, rfl, rfl⟩⟩⟩
      · split
        · exact ⟨_, bind_ok_iff.2 ⟨_, hw _ _, rfl⟩⟩
        · exact ⟨_, rfl⟩
    obtain ⟨acc1, h1⟩ := h1
    have hc := embedEp_cursor h1
    obtain ⟨acc', h2⟩ := embedEps_succeeds (a := a) (d := d) hbuf (is := is) (acc := acc1)
      (fun z hz => ((embedEp_ok h1).1 z (hz i)).trans (hagree z hz))
      (fun j m' hj hj' hm' => hpay j m' (by omega) (by rw [hlen]; omega) hm')
    exact ⟨acc', bind_ok_iff.2 ⟨acc1, h1, h2⟩⟩

/-- BlockEmbed succeeds on a block the guard accepts, once each bit a peak asks for is there (R140). -/
theorem blockEmbed_succeeds {src cursor total : Nat} {m : Memory} {a b : Fin 9 → Byte} {pay : Nat → Bool}
    (ha : readBlock P m pl.p1 pl.w x y = .ok a) (hb : readBlock P m pl.p2 pl.w x y = .ok b)
    (hg : guardHolds P.guardScope a b = false)
    (hpay : ∀ j m', cursor ≤ j → j < cursor + residualCount (dHsb a b) (peak (dHsb a b)) →
      (∀ z, (∀ i, z ≠ epAddr pl x y i) → m'.read? z = m.read? z) → embedBit P m' src j total = .ok (pay j)) :
    ∃ r, blockEmbed P pl x y src cursor total m = .ok r := by
  obtain ⟨acc, hacc⟩ := embedEps_succeeds (P := P) (pl := pl) (x := x) (y := y) (src := src) (total := total) (a := a)
    (d := dHsb a b) (m := m) (pay := pay) (is := epIndices)
    (acc := { mem := m, cursor := cursor, first := true, rdu := false, cnt := 0 })
    (fun i => (readBlock_ok_iff.1 ha (epPos i)).1) (fun _ _ => rfl) hpay
  exact ⟨_, bind_ok_iff.2 ⟨false, by rw [guardRejects_eq ha hb, hg], bind_ok_iff.2 ⟨a, ha, bind_ok_iff.2 ⟨b, hb,
    bind_ok_iff.2 ⟨acc, hacc, rfl⟩⟩⟩⟩⟩

/-- The EPs of BlockExtract succeed once each output byte that takes a bit is written (R142). -/
theorem extractEps_succeeds {dst : Nat} {a : Fin 9 → Byte} {d : Fin 5 → Int} {me : Int}
    (hbuf : ∀ i, epAddr pl x y i < P.bufBytes) : ∀ {is : List (Fin 5)} {m : Memory} {cursor : Nat},
      (∀ j, cursor ≤ j → j < cursor + (is.filter (fun i => d i == me || d i == me + 1)).length →
        dst + j / 8 < P.bufBytes ∧ (m.read? (dst + j / 8)).isSome) →
      ∃ r, extractEps P pl x y dst a d me is m cursor = .ok r
  | [], m, cursor, _ => ⟨(m, cursor), rfl⟩
  | i :: is, m, cursor, hout => by
    rw [List.filter_cons] at hout
    have hb : ∃ r, appendBit P m dst cursor (carriedBit me (d i)) = .ok r := by
      have hcar := carriedBit_isSome me (d i)
      cases hb : carriedBit me (d i) with
      | none => exact ⟨_, rfl⟩
      | some b =>
        rw [hb, Option.isSome_some] at hcar
        rw [if_pos hcar.symm, List.length_cons] at hout
        obtain ⟨h1, h2⟩ := hout cursor le_rfl (by omega)
        obtain ⟨v, hv⟩ := Option.isSome_iff_exists.1 h2
        exact ⟨_, bind_ok_iff.2 ⟨_, bind_ok_iff.2 ⟨v, memRead_eq h1 hv, memWrite_eq _ h1⟩, rfl⟩⟩
    obtain ⟨⟨m1, c1⟩, hb⟩ := hb
    have h1 : ∃ r1, extractEp P pl x y dst a d me m cursor i = .ok r1 := by
      unfold extractEp
      by_cases hlt : me < d i
      · exact ⟨_, bind_ok_iff.2 ⟨_, hb, by
          simp only [if_pos hlt]
          exact bind_ok_iff.2 ⟨_, memWrite_eq _ (hbuf i), rfl⟩⟩⟩
      · exact ⟨(m1, c1), bind_ok_iff.2 ⟨_, hb, by simp only [if_neg hlt]⟩⟩
    obtain ⟨r1, h1⟩ := h1
    have hc := extractEp_cursor h1
    have hk : Kept P (fun _ => True) m r1.1 :=
      (extractEp_touches (T := fun _ => True) (S := fun _ => True) ⟨trivial, trivial⟩ trivial trivial).kept h1
    obtain ⟨r, h2⟩ := extractEps_succeeds hbuf (dst := dst) (a := a) (d := d) (me := me) (is := is) (m := r1.1)
      (cursor := r1.2) fun j hj hj' => by
        have := hout j (by omega) (by
          split at hc
          · next hcar => rw [if_pos hcar, List.length_cons]; omega
          · next hcar => rw [if_neg hcar]; omega)
        exact ⟨this.1, hk.marks _ this.2⟩
    exact ⟨r, bind_ok_iff.2 ⟨r1, h1, h2⟩⟩

/-- BlockExtract with INUSE = 1 succeeds once each output byte that takes a bit is written (R142). -/
theorem blockExtract_succeeds {dst cursor : Nat} {info : Byte} {m : Memory} {a b : Fin 9 → Byte} {me : Int}
    (ha : readBlock P m pl.p1 pl.w x y = .ok a) (hb : readBlock P m pl.p2 pl.w x y = .ok b) (hi : mapInUse info = true)
    (hme : me = dHsb a b (countIndex info) - (if mapRdu info then 1 else 0))
    (hout : ∀ j, cursor ≤ j →
      j < cursor + (epIndices.filter (fun i => dHsb a b i == me || dHsb a b i == me + 1)).length →
      dst + j / 8 < P.bufBytes ∧ (m.read? (dst + j / 8)).isSome) :
    ∃ r, blockExtract P pl x y dst info cursor m = .ok r := by
  obtain ⟨r, hr⟩ := extractEps_succeeds (P := P) (pl := pl) (x := x) (y := y) (dst := dst) (a := a)
    (d := dHsb a b) (me := me) (is := epIndices) (m := m) (cursor := cursor)
    (fun i => (readBlock_ok_iff.1 ha (epPos i)).1) hout
  unfold blockExtract
  rw [if_pos hi]
  exact ⟨r, bind_ok_iff.2 ⟨a, ha, bind_ok_iff.2 ⟨b, hb, by simp only [← hme]; exact hr⟩⟩⟩

/-- Raising the high part of one EP of image 1 by δ raises its residual by δ, its neighbours standing still (R134). -/
theorem dHsb_shift {a a' b : Fin 9 → Byte} {i : Fin 5} {δ : Int} (hs : ∀ s ∈ epNeighbours i, a' s = a s)
    (he : hsb (a' (epPos i)) = hsb (a (epPos i)) + δ) : dHsb a' b i = dHsb a b i + δ := by
  have hk : ((epNeighbours i).length : Int) ≠ 0 := by clear hs he; revert i; decide
  have hsum : residualSum a' b i = residualSum a b i + ((epNeighbours i).length : Int) * δ := by
    have hm : (epNeighbours i).map (fun s => hsb (a' s) + hsb (b s)) = (epNeighbours i).map (fun s => hsb (a s) + hsb (b s)) :=
      List.map_congr_left fun s h => by rw [hs s h]
    unfold residualSum
    rw [hm, he]
    ring
  unfold dHsb
  rw [hsum, Int.add_mul_ediv_left _ _ hk]

/-- Adding 8 to a sample the guard accepts raises its high part by one (R135). -/
theorem hsb_add_eight {v : Byte} (h : v.toNat ≤ 247) : hsb (v + 8) = hsb v + 1 := by
  unfold hsb
  rw [BitVec.toNat_ushiftRight, BitVec.toNat_ushiftRight, BitVec.toNat_add, Nat.shiftRight_eq_div_pow,
    Nat.shiftRight_eq_div_pow]
  have h8 : (8 : Byte).toNat = 8 := rfl
  rw [h8]
  omega

/-- The neighbours of an EP are no EPs (R131, R132). -/
theorem epNeighbours_not_ep {i j : Fin 5} {s : Fin 9} (hs : s ∈ epNeighbours i) : s ≠ epPos j := by
  revert i j s; decide

/-- The residuals of a block whose EPs marked by `up` were shifted by 8 (R135). -/
theorem dHsb_embedded {a a' b : Fin 9 → Byte} {up : Fin 5 → Bool} (hsp : ∀ p, (∀ i, p ≠ epPos i) → a' p = a p)
    (hep : ∀ i, a' (epPos i) = if up i then a (epPos i) + 8 else a (epPos i)) (hg : ∀ i, (a (epPos i)).toNat ≤ 247)
    (i : Fin 5) : dHsb a' b i = dHsb a b i + if up i then 1 else 0 := by
  refine dHsb_shift (fun s hs => hsp s fun j => epNeighbours_not_ep hs) ?_
  rw [hep i]
  split
  · exact hsb_add_eight (hg i)
  · exact (add_zero _).symm

/-- The map byte of a block that embedded bits, taken apart (30_encoding.md R111, R112). -/
theorem packMap_fields (rdu : Bool) (i : Fin 5) : mapInUse (packMap true rdu i.val) = true ∧
    mapRdu (packMap true rdu i.val) = rdu ∧ countIndex (packMap true rdu i.val) = i ∧
    packMap true rdu i.val = BitVec.ofNat 8 (1 + 2 * rdu.toNat + 4 * i.val) := by
  revert rdu i; decide

/-- Extraction of a block that embedding left, wherever the rest of BUF stands: the samples come back, and the appended
bits are those embedded (R143). -/
theorem blockExtract_of_embedded {dst cap c : Nat} {info : Byte} {m' : Memory} {r : Memory × Nat} {a a' b : Fin 9 → Byte} {pay : Nat → Bool}
   (hw : 3 ≤ pl.w) (hg : ∀ i, (a (epPos i)).toNat ≤ 247)
   {first : Fin 5} (hf : dHsb a b first = peak (dHsb a b)) (hfm : ∀ j, j < first → dHsb a b j ≠ peak (dHsb a b))
   (hi : info = packMap true (pay c) first.val)
   (hsp : ∀ p, (∀ i, p ≠ epPos i) → a' p = a p)
   (hep : ∀ i, a' (epPos i) = if dHsb a b i = peak (dHsb a b) ∧
          pay (c + countBefore (fun j => dHsb a b j == peak (dHsb a b)) i) = true ∨
          peak (dHsb a b) < dHsb a b i then a (epPos i) + 8 else a (epPos i))
   (ha : readBlock P m' pl.p1 pl.w x y = .ok a') (hb : readBlock P m' pl.p2 pl.w x y = .ok b)
   (hap : ∀ j i, j < cap → dst + j / 8 ≠ epAddr pl x y i) (hcap : c + 5 ≤ cap)
   (h : blockExtract P pl x y dst info c m' = .ok r) :
   r.2 = c + residualCount (dHsb a b) (peak (dHsb a b)) ∧
   (∀ i, r.1.read? (epAddr pl x y i) = some (a (epPos i))) ∧
   (∀ j, c ≤ j → j < r.2 → bitAt r.1 dst j = some (pay j)) ∧
   (∀ k, k < cap → ¬ (c ≤ k ∧ k < r.2) → bitAt r.1 dst k = bitAt m' dst k) ∧
    ∀ z, (∀ i, z ≠ epAddr pl x y i) → (∀ k, c ≤ k → k < r.2 → z ≠ dst + k / 8) → r.1.read? z = m'.read? z := by
  let d := dHsb a b
  let me := peak d
  let up : Fin 5 → Bool := fun i => decide (d i = me ∧ pay (c + countBefore (fun j => d j == me) i) = true ∨ me < d i)
  have hd' : ∀ i, dHsb a' b i = d i + if up i then 1 else 0 := dHsb_embedded hsp (fun i => by rw [hep i]; simp [up, d, me]) hg
  obtain ⟨f1, f2, f3, -⟩ := packMap_fields (pay c) first
  rw [← hi] at f1 f2 f3
  have hc0 : countBefore (fun j => d j == me) first = 0 := by
    unfold countBefore
    rw [List.length_eq_zero_iff, List.filter_eq_nil_iff]
    intro j _ hj
    simp at hj
    exact hfm j hj.1 hj.2
  have hme : me = dHsb a' b (countIndex info) - (if mapRdu info then 1 else 0) := by
    rw [f2, f3, hd' first]
    have : d first = me := hf
    simp only [up, hc0, this]
    cases pay c <;> simp
  obtain ⟨h1, h2, h3, h4, h5⟩ := blockExtract_used hw ha hb f1 hme hap hcap h
  have hcar : ∀ i, (dHsb a' b i == me || dHsb a' b i == me + 1) = (d i == me) := by
    intro i
    rw [hd' i, Bool.eq_iff_iff]
    simp only [up, Bool.or_eq_true, beq_iff_eq]
    by_cases hlt : me < d i
    · simp [hlt]; omega
    · by_cases he : d i = me
      · by_cases hp : pay (c + countBefore (fun j => d j == me) i) = true <;> simp [he, hp]
      · simp [hlt, he]; omega
  have hcar' : (fun i => (dHsb a' b i == me || dHsb a' b i == me + 1)) = (fun i => d i == me) := funext hcar
  rw [hcar'] at h1 h3
  refine ⟨h1, fun i => ?_, fun j hj hj' => ?_, h4, h5⟩
  · rw [h2 i, hd' i, hep i]
    have h8 : ∀ v : Byte, v + 8 - 8 = v := fun v => by simp
    by_cases hu : (d i = me ∧ pay (c + countBefore (fun j => d j == me) i) = true ∨ me < d i)
    · have : up i = true := by simp [up, hu]
      rw [this, if_pos hu, if_pos rfl, if_pos (by rcases hu with h | h <;> omega), h8]
    · have : up i = false := by simp [up]; push Not at hu; exact ⟨fun h => by simpa using hu.1 h, hu.2⟩
      rw [this, if_neg hu, if_neg Bool.false_ne_true, if_neg (by push Not at hu; omega)]
  · have key : ∀ (f : Fin 5 → Bool) (k : Nat), k < (epIndices.filter f).length → ∃ i, f i = true ∧ countBefore f i = k := by
      have : ∀ (f : Fin 5 → Bool) (k : Fin 6), k.val < (epIndices.filter f).length → ∃ i, f i = true ∧ countBefore f i = k.val := by decide
      intro f k hk
      exact this f ⟨k, by have := List.length_filter_le f epIndices; have h5 : epIndices.length = 5 := rfl; omega⟩ hk
    obtain ⟨i, hi1, hi2⟩ := key (fun i => d i == me) (j - c) (by rw [h1] at hj'; omega)
    have hx := h3 i ((hcar i).trans hi1)
    rw [hi2, show c + (j - c) = j by omega] at hx
    have he : d i = me := by simpa using hi1
    have hj0 : c + (j - c) = j := by omega
    rw [hx, hd' i]
    simp only [up, he, hi2, hj0]
    cases pay j <;> simp

/-- The bits that the EPs of BlockEmbed took could be read when they were (R140). -/
theorem embedEps_reads {src total : Nat} {a : Fin 9 → Byte} {d : Fin 5 → Int} {m : Memory} :
    ∀ {is : List (Fin 5)} {acc acc' : EmbedAcc}, embedEps P pl x y src total a d is acc = .ok acc' →
      (∀ z, (∀ i, z ≠ epAddr pl x y i) → acc.mem.read? z = m.read? z) → ∀ j, acc.cursor ≤ j → j < acc'.cursor →
      ∃ m' bit, (∀ z, (∀ i, z ≠ epAddr pl x y i) → m'.read? z = m.read? z) ∧ embedBit P m' src j total = .ok bit
  | [], acc, acc', h, _, j, h1, h2 => by cases h; omega
  | i :: is, acc, acc', h, hagree, j, h1, h2 => by
    obtain ⟨acc1, he, ht⟩ := bind_ok_iff.1 h
    obtain ⟨hframe, hpk, hnpk⟩ := embedEp_ok he
    have hc := embedEp_cursor he
    by_cases hj : acc1.cursor ≤ j
    · exact embedEps_reads ht (fun z hz => (hframe z (hz i)).trans (hagree z hz)) j hj h2
    · have hd : d i = peak d := by
        by_contra hd
        rw [if_neg hd] at hc
        omega
      rw [if_pos hd] at hc
      obtain ⟨bit, hb, -⟩ := hpk hd
      exact ⟨acc.mem, bit, hagree, by rwa [show j = acc.cursor by omega]⟩

end Sys2Proof.Machine
end

