-- ==== Sys2Proof/Laws/Bus.lean ====
section
/-! SUPPORT. What a host access can do: the register window (10_state.md R22, R23) and the bytes of a BUF access
(20_memory.md R73). -/

namespace Sys2Proof.Machine

variable {P : Config} {m : Memory}

/-- The window's offset of a register names that register (R22). -/
@[simp] theorem regAt_regOffset (n : RegName) : regAt (regOffset n) = some n := by cases n <;> decide

/-- A register's offset is reached by a 32-bit access (R74). -/
@[simp] theorem regAccessOk_regOffset (n : RegName) : regAccessOk .word (regOffset n) = true := by cases n <;> decide

/-- The offsets from 0x74 on are reserved (R22). -/
theorem regAt_reserved {off : BitVec 8} (h : 0x74 ≤ off.toNat) : regAt off = none := by
  refine List.find?_eq_none.2 fun n _ hn => ?_
  have he : regOffset n = off := by simpa using hn
  have hlt : (regOffset n).toNat < 0x74 := by cases n <;> decide
  rw [he] at hlt
  omega

/-- BUSY, DONE and OVR after a register write (R24-R28, R34). -/
theorem writeReg_flags (s : State) (n : RegName) (v : Word) :
    (writeReg s n v).busy = (s.busy || n == .cmd) ∧
    (writeReg s n v).done =
      (s.done && !((n == .status && v.getLsbD 1) || (!s.busy && (n == .cmd || (n == .ctrl && v.getLsbD 1))))) ∧
    (writeReg s n v).ovr =
      ((s.busy && (n == .cmd || (n == .ctrl && v.getLsbD 1) || accessKind n == .rw)) ||
        (s.ovr && !((n == .status && v.getLsbD 2) || (!s.busy && n == .ctrl && v.getLsbD 1)))) := by
  obtain ⟨ph, ie, dn, ov, er, rg, mm, inp, rs, r8, fp⟩ := s
  cases ph <;> cases n <;> simp only [writeReg, cmdWrite, ctrlWrite, rwWrite, statusWrite] <;>
    generalize v.getLsbD 0 = b0 <;> generalize v.getLsbD 1 = b1 <;> generalize v.getLsbD 2 = b2 <;>
    cases dn <;> cases ov <;> cases b1 <;> cases b2 <;> exact ⟨rfl, rfl, rfl⟩

/-- The bytes a write of `n` bytes leaves, and nothing else changed (R73). -/
theorem read?_writeLittle : ∀ {n a : Nat} {v : Word} {m : Memory} (x : Nat), (writeLittle n a v m).read? x =
    if a ≤ x ∧ x < a + n then some (v.extractLsb' (8 * (x - a)) 8) else m.read? x
  | 0, a, v, m, x => by rw [if_neg (by omega)]; rfl
  | n + 1, a, v, m, x => by
    rw [writeLittle, read?_writeLittle (n := n)]
    by_cases hx : a + 1 ≤ x ∧ x < a + 1 + n
    · rw [if_pos hx, if_pos (by omega), show 8 * (x - a) = 8 + 8 * (x - (a + 1)) by omega]
      congr 1
      ext i hi
      simp [Nat.add_assoc]
    · rw [if_neg hx, read?_write]
      by_cases hxa : x = a
      · rw [if_pos hxa, if_pos (by omega), hxa]
        simp
      · rw [if_neg hxa, if_neg (by omega)]

/-- A host write inside BUF keeps the canonical form and lists no byte outside BUF. -/
theorem writeLittle_kept {P : Config} : ∀ {n a : Nat} {v : Word} {m : Memory}, a + n ≤ P.bufBytes →
    Kept P (inSpan a n) m (writeLittle n a v m)
  | 0, _, _, _, _ => Kept.refl _ _ _
  | n + 1, a, v, m, h =>
    (Kept.write _ (by omega) ⟨le_rfl, by omega⟩).trans
      ((writeLittle_kept (n := n) (a := a + 1) (by omega)).mono fun x hx => ⟨by have := hx.1; omega, by have := hx.2; omega⟩)

/-- What a host read returns lies in its bytes (R73). -/
theorem readLittle_lt : ∀ {n a free : Nat}, n ≤ 4 → (readLittle P m n a free).1.toNat < 2 ^ (8 * n)
  | 0, _, _, _ => by simp [readLittle]
  | n + 1, a, free, hn => by
    have key : ∀ (w : Word) (b : Byte), w.toNat < 2 ^ (8 * n) →
        ((w <<< 8) ||| b.zeroExtend 32).toNat < 2 ^ (8 * (n + 1)) := by
      intro w b hw
      rw [BitVec.toNat_or, BitVec.toNat_shiftLeft]
      refine Nat.or_lt_two_pow ?_ ?_
      · refine lt_of_le_of_lt (Nat.mod_le _ _) ?_
        rw [Nat.shiftLeft_eq, show 8 * (n + 1) = 8 * n + 8 by ring, pow_add]
        exact Nat.mul_lt_mul_of_pos_right hw (by decide)
      · have : (b.zeroExtend 32).toNat < 2 ^ 8 := by
          simp only [BitVec.truncate_eq_setWidth, BitVec.toNat_setWidth]
          exact lt_of_le_of_lt (Nat.mod_le _ _) b.isLt
        exact lt_of_lt_of_le this (Nat.pow_le_pow_right (by decide) (by omega))
    unfold readLittle
    split
    · exact key _ _ (readLittle_lt (by omega))
    · exact key _ _ (readLittle_lt (by omega))

/-- A written byte is returned in its place (R73). -/
theorem readLittle_byte : ∀ {n a free k : Nat} {b : Byte}, n ≤ 4 → k < n → m.read? (a + k) = some b →
    (readLittle P m n a free).1.extractLsb' (8 * k) 8 = b
  | n + 1, a, free, k, b, hn, hk, hb => by
    have low : ∀ (w : Word) (c : Byte), ((w <<< 8) ||| c.zeroExtend 32).extractLsb' 0 8 = c := by
      intro w c
      ext i hi
      have : i < 32 := by omega
      simp [hi, this]
    have high : ∀ (w : Word) (c : Byte) (k : Nat), k + 1 < 4 →
        ((w <<< 8) ||| c.zeroExtend 32).extractLsb' (8 * (k + 1)) 8 = w.extractLsb' (8 * k) 8 := by
      intro w c k hk4
      ext i hi
      have h1 : 8 * (k + 1) + i < 32 := by omega
      have h2 : ¬ 8 * (k + 1) + i < 8 := by omega
      have h3 : 8 * (k + 1) + i - 8 = 8 * k + i := by omega
      have h4 : c.getLsbD (8 * (k + 1) + i) = false := BitVec.getLsbD_of_ge _ _ (by omega)
      have h5 : 8 * k + i < 32 := by omega
      simp [h1, h2, h3, h4, BitVec.getLsbD_eq_getElem h5]
    unfold readLittle
    cases k with
    | zero =>
      rw [Nat.add_zero] at hb
      rw [hb]
      exact low _ _
    | succ k =>
      have hb' : m.read? (a + 1 + k) = some b := by rwa [show a + 1 + k = a + (k + 1) by omega]
      split
      · exact (high _ _ k (by omega)).trans (readLittle_byte (by omega) (by omega) hb')
      · exact (high _ _ k (by omega)).trans (readLittle_byte (by omega) (by omega) hb')

end Sys2Proof.Machine
end

