-- ==== Sys2Proof/Laws/Driver.lean ====
section
/-! SUPPORT. What the traversals of EMBED and EXTRACT leave, block by block (41_driver.md R170-R177). -/

namespace Sys2Proof.Machine

variable {P : Config} {pl : Planes} {hb : Nat}

/-- The BUF address of position p of the k-th visited block in the plane at `base` (R170). -/
def visitAddr (base w hb k : Nat) (p : Fin 9) : Nat := sampleAddr base w (blockX hb k) (blockY hb k) p

/-- Two visited blocks share no sample (R170, 40_block_codec.md R130). -/
theorem visitAddr_disjoint {base w h k k' : Nat} {p p' : Fin 9} (hw : w % 3 = 0) (hh : h % 3 = 0)
    (hk : k < (w / 3) * (h / 3)) (hk' : k' < (w / 3) * (h / 3))
    (he : visitAddr base w (h / 3) k p = visitAddr base w (h / 3) k' p') : k = k' := by
  have h1 := block_inPlane hw hh hk
  have h2 := block_inPlane hw hh hk'
  have hp := p.isLt
  have hp' := p'.isLt
  unfold visitAddr sampleAddr at he
  have key : ∀ {r c r' c' : Nat}, c < w → c' < w → r * w + c = r' * w + c' → r = r' ∧ c = c' := by
    intro r c r' c' hc hc' h
    rcases lt_trichotomy r r' with hlt | rfl | hlt
    · have := Nat.mul_le_mul_right w (show r + 1 ≤ r' from hlt)
      rw [Nat.add_mul] at this; omega
    · exact ⟨rfl, by omega⟩
    · have := Nat.mul_le_mul_right w (show r' + 1 ≤ r from hlt)
      rw [Nat.add_mul] at this; omega
  obtain ⟨hr, hc⟩ := key (r := blockY (h / 3) k + p.val / 3) (c := blockX (h / 3) k + p.val % 3)
    (r' := blockY (h / 3) k' + p'.val / 3) (c' := blockX (h / 3) k' + p'.val % 3) (by omega) (by omega) (by omega)
  unfold blockX at hc
  unfold blockY at hr
  have hm : k % (h / 3) = k' % (h / 3) := by omega
  have hd : k / (h / 3) = k' / (h / 3) := by omega
  rw [← Nat.div_add_mod k (h / 3), ← Nat.div_add_mod k' (h / 3), hm, hd]

/-- A block reads the same from a memory that agrees on its samples. -/
theorem readBlock_congr {m m' : Memory} {base w x y : Nat} {a : Fin 9 → Byte}
    (h : ∀ p, m'.read? (sampleAddr base w x y p) = m.read? (sampleAddr base w x y p))
    (ha : readBlock P m base w x y = .ok a) : readBlock P m' base w x y = .ok a :=
  readBlock_ok_iff.2 fun p => ⟨(readBlock_ok_iff.1 ha p).1, (h p).trans (readBlock_ok_iff.1 ha p).2⟩

/-- How many bits a block takes (R141). -/
def blockTakes (scope : GuardScope) (a b : Fin 9 → Byte) : Nat :=
  if guardHolds scope a b then 0 else residualCount (dHsb a b) (peak (dHsb a b))

/-- What embedding the block `a` (with `b` in image 2) from cursor `c` on leaves: its map byte and its EP samples (R140). -/
def EmbedsBlock (scope : GuardScope) (a b : Fin 9 → Byte) (pay : Nat → Bool) (c : Nat) (info : Option Byte)
    (ep : Fin 5 → Option Byte) : Prop :=
  (guardHolds scope a b = true → info = some 0x00 ∧ ∀ i, ep i = some (a (epPos i))) ∧
  (guardHolds scope a b = false → ∃ first : Fin 5, dHsb a b first = peak (dHsb a b) ∧
    (∀ j, j < first → dHsb a b j ≠ peak (dHsb a b)) ∧
    info = some (BitVec.ofNat 8 (1 + 2 * (pay c).toNat + 4 * first.val)) ∧
    ∀ i, ep i = some (if dHsb a b i = peak (dHsb a b) ∧
        pay (c + countBefore (fun j => dHsb a b j == peak (dHsb a b)) i) = true ∨ peak (dHsb a b) < dHsb a b i
      then a (epPos i) + 8 else a (epPos i)))

/-- A residual can be the peak at most five times. -/
theorem residualCount_le (d : Fin 5 → Int) (v : Int) : residualCount d v ≤ 5 :=
  (List.length_filter_le _ _).trans (by decide)

theorem blockTakes_le (scope : GuardScope) (a b : Fin 9 → Byte) : blockTakes scope a b ≤ 5 := by
  unfold blockTakes
  split
  · omega
  · exact residualCount_le _ _

/-- BlockEmbed on any block that can be read, once the payload can be (R140). -/
theorem blockEmbed_ok {x y src cursor total : Nat} {m : Memory} {a b : Fin 9 → Byte} {pay : Nat → Bool} (hw : 3 ≤ pl.w)
    (ha : readBlock P m pl.p1 pl.w x y = .ok a) (hb : readBlock P m pl.p2 pl.w x y = .ok b)
    (hpay : ∀ j, j < total → payloadBit P m src j = .ok (pay j)) (hfill : ∀ j, total ≤ j → j < cursor + 5 → pay j = false)
    (hap : ∀ i j, j < total → epAddr pl x y i ≠ src + j / 8) :
    ∃ m' info, blockEmbed P pl x y src cursor total m = .ok (m', info, cursor + blockTakes P.guardScope a b) ∧
      EmbedsBlock P.guardScope a b pay cursor (some info) (fun i => m'.read? (epAddr pl x y i)) ∧
      ∀ z, (∀ i, z ≠ epAddr pl x y i) → m'.read? z = m.read? z := by
  cases hg : guardHolds P.guardScope a b with
  | true =>
    refine ⟨m, 0x00, ?_, ⟨fun _ => ⟨rfl, fun i => (readBlock_ok_iff.1 ha (epPos i)).2⟩, fun h => by rw [hg] at h; cases h⟩,
      fun _ _ => rfl⟩
    rw [blockEmbed_rejected (by rw [guardRejects_eq ha hb, hg]), blockTakes, hg]
    rfl
  | false =>
    have hp : ∀ j m', cursor ≤ j → j < cursor + residualCount (dHsb a b) (peak (dHsb a b)) →
        (∀ z, (∀ i, z ≠ epAddr pl x y i) → m'.read? z = m.read? z) → embedBit P m' src j total = .ok (pay j) := by
      intro j m' _ hj hm'
      have h5 := residualCount_le (dHsb a b) (peak (dHsb a b))
      unfold embedBit
      split
      · next hlt =>
        obtain ⟨v, h1, h2, h3⟩ := payloadBit_ok_iff.1 (hpay j hlt)
        exact payloadBit_ok_iff.2 ⟨v, h1, (hm' _ fun i he => hap i j hlt he.symm).trans h2, h3⟩
      · next hge => rw [hfill j (by omega) (by omega)]
    obtain ⟨r, hr⟩ := blockEmbed_succeeds ha hb hg hp
    obtain ⟨hc, ⟨first, h1, h2, h3⟩, hep, hfr⟩ := blockEmbed_accepted hw ha hb hg hp hr
    refine ⟨r.1, r.2.1, ?_, ⟨fun h => (by rw [hg] at h; cases h), fun _ => ⟨first, h1, h2, ?_, hep⟩⟩, hfr⟩
    · rw [hr, blockTakes, hg, if_neg Bool.false_ne_true, ← hc]
    · rw [h3, (packMap_fields _ _).2.2.2]

/-- EMBED's traversal over blocks `k` to `nb − 1` that can be read, said whole (R172): how far it goes, the cursor before each
block, what each visited block becomes, and that nothing else changes. -/
theorem embedLoop_values {src mapBase total nb : Nat} {a b : Nat → Fin 9 → Byte} {pay : Nat → Bool} {cur : Nat → Nat}
    (hw : 0 < nb → 3 ≤ pl.w)
    (hcur : ∀ k, k < nb → cur (k + 1) = cur k + blockTakes P.guardScope (a k) (b k))
    (hfill : ∀ j, total ≤ j → j < total + 4 → pay j = false)
    (hmap : ∀ k, k < nb → mapBase + k < P.bufBytes)
    (hbl : ∀ k j, k < nb → j < nb → k ≠ j → ∀ i p, epAddr pl (blockX hb k) (blockY hb k) i ≠ visitAddr pl.p1 pl.w hb j p)
    (hb2 : ∀ k j, k < nb → j < nb → ∀ i p, epAddr pl (blockX hb k) (blockY hb k) i ≠ visitAddr pl.p2 pl.w hb j p)
    (hsrc : ∀ k j, k < nb → j < total → ∀ i, epAddr pl (blockX hb k) (blockY hb k) i ≠ src + j / 8)
    (hm1 : ∀ k j, k < nb → j < nb → ∀ p, mapBase + k ≠ visitAddr pl.p1 pl.w hb j p)
    (hm2 : ∀ k j, k < nb → j < nb → ∀ p, mapBase + k ≠ visitAddr pl.p2 pl.w hb j p)
    (hm3 : ∀ k j, k < nb → j < total → mapBase + k ≠ src + j / 8) :
    ∀ {left k : Nat} {m : Memory}, k + left = nb →
      (∀ j, k ≤ j → j < nb → readBlock P m pl.p1 pl.w (blockX hb j) (blockY hb j) = .ok (a j) ∧
        readBlock P m pl.p2 pl.w (blockX hb j) (blockY hb j) = .ok (b j)) →
      (∀ j, j < total → payloadBit P m src j = .ok (pay j)) →
      ∃ m' n, embedLoop P pl hb src mapBase total left k (cur k) m = .ok (m', n, cur n) ∧ k ≤ n ∧ n ≤ nb ∧
        (∀ j, k ≤ j → j < n → cur j < total) ∧ (n = nb ∨ total ≤ cur n) ∧
        (∀ j, k ≤ j → j < n → EmbedsBlock P.guardScope (a j) (b j) pay (cur j) (m'.read? (mapBase + j))
          (fun i => m'.read? (epAddr pl (blockX hb j) (blockY hb j) i))) ∧
        ∀ z, (∀ j i, k ≤ j → j < nb → z ≠ epAddr pl (blockX hb j) (blockY hb j) i) →
          (∀ j, k ≤ j → j < nb → z ≠ mapBase + j) → m'.read? z = m.read? z
  | 0, k, m, hk, _, _ =>
    ⟨m, k, rfl, le_rfl, by omega, fun j h1 h2 => by omega, .inl (by omega), fun j h1 h2 => by omega, fun _ _ _ => rfl⟩
  | left + 1, k, m, hk, hrd, hpay => by
    unfold embedLoop
    by_cases hc : total ≤ cur k
    · rw [if_pos hc]
      exact ⟨m, k, rfl, le_rfl, by omega, fun j h1 h2 => by omega, .inr hc, fun j h1 h2 => by omega, fun _ _ _ => rfl⟩
    · rw [if_neg hc]
      have hkn : k < nb := by omega
      obtain ⟨ha, hb'⟩ := hrd k le_rfl hkn
      obtain ⟨m1, info, h1, hE, hfr⟩ := blockEmbed_ok (cursor := cur k) (hw (by omega)) ha hb' hpay
        (fun j h1 h2 => hfill j h1 (by omega)) (fun i j hj => hsrc k j hkn hj i)
      have hw2 := memWrite_eq (P := P) (m := m1) info (hmap k hkn)
      have hother : ∀ z, (∀ i, z ≠ epAddr pl (blockX hb k) (blockY hb k) i) → z ≠ mapBase + k →
          (m1.write (mapBase + k) info).read? z = m.read? z := fun z hz hzm =>
        (read?_write_other _ _ hzm).trans (hfr z hz)
      obtain ⟨m', n, h2, hkn', hnn, hlt, hend, hblk, hfr'⟩ := embedLoop_values hw hcur hfill hmap hbl hb2 hsrc hm1 hm2 hm3
        (left := left) (k := k + 1) (m := m1.write (mapBase + k) info) (by omega)
        (fun j hj hjn => by
          obtain ⟨h1, h2⟩ := hrd j (by omega) hjn
          exact ⟨readBlock_congr (fun p => hother _ (fun i he => hbl k j hkn hjn (by omega) i p he.symm)
              (fun he => hm1 k j hkn hjn p he.symm)) h1,
            readBlock_congr (fun p => hother _ (fun i he => hb2 k j hkn hjn i p he.symm)
              (fun he => hm2 k j hkn hjn p he.symm)) h2⟩)
        (fun j hj => by
          obtain ⟨v, h1, h2, h3⟩ := payloadBit_ok_iff.1 (hpay j hj)
          exact payloadBit_ok_iff.2 ⟨v, h1, (hother _ (fun i he => hsrc k j hkn hj i he.symm)
            (fun he => hm3 k j hkn hj he.symm)).trans h2, h3⟩)
      rw [hcur k hkn] at h2
      refine ⟨m', n, bind_ok_iff.2 ⟨_, h1, bind_ok_iff.2 ⟨_, hw2, h2⟩⟩, by omega, hnn, fun j hj hjn => ?_, hend,
        fun j hj hjn => ?_, fun z hz hzm => ?_⟩
      · rcases Nat.eq_or_lt_of_le hj with rfl | hj
        · omega
        · exact hlt j hj hjn
      · rcases Nat.eq_or_lt_of_le hj with rfl | hj
        · have he : ∀ i, m'.read? (epAddr pl (blockX hb k) (blockY hb k) i) =
              m1.read? (epAddr pl (blockX hb k) (blockY hb k) i) := fun i =>
            (hfr' _ (fun j i' hj hjn he => hbl j k hjn hkn (by omega) i' (epPos i) he.symm)
              (fun j hj hjn he => hm1 j k hjn hkn (epPos i) he.symm)).trans
            (read?_write_other _ _ fun he => hm1 k k hkn hkn (epPos i) he.symm)
          have hi : m'.read? (mapBase + k) = some info := by
            rw [hfr' _ (fun j i' hj hjn he => hm1 k j hkn hjn (epPos i') he) (fun j hj hjn he => by omega)]
            exact read?_write_same _ _ _
          rw [hi]
          simp only [he]
          exact hE
        · exact hblk j hj hjn
      · rw [hfr' z (fun j i hj hjn => hz j i (by omega) hjn) (fun j hj hjn => hzm j (by omega) hjn)]
        exact hother z (fun i => hz k i le_rfl hkn) (hzm k le_rfl hkn)

/-- The peak that map byte `info` recovers (R142). -/
def recoveredPeak (a b : Fin 9 → Byte) (info : Byte) : Int :=
  dHsb a b (countIndex info) - (if mapRdu info then 1 else 0)

/-- Whether EP `i` carries a bit (R142). -/
def carriesBit (a b : Fin 9 → Byte) (info : Byte) (i : Fin 5) : Bool :=
  dHsb a b i == recoveredPeak a b info || dHsb a b i == recoveredPeak a b info + 1

/-- What extracting the block `a` (with `b` in image 2) by map byte `info` from cursor `c` on leaves: its EP samples, which
were `old`, and the bits it appends (R142). -/
def ExtractsBlock (a b : Fin 9 → Byte) (info : Byte) (c : Nat) (old ep : Fin 5 → Option Byte)
    (bit : Nat → Option Bool) : Prop :=
  (mapInUse info = false → ∀ i, ep i = old i) ∧
  (mapInUse info = true → ∀ i,
    ep i = some (if recoveredPeak a b info < dHsb a b i then a (epPos i) - 8 else a (epPos i)) ∧
    (carriesBit a b info i = true →
      bit (c + countBefore (carriesBit a b info) i) = some (dHsb a b i == recoveredPeak a b info + 1)))

/-- How many bits extracting a block appends (R142). -/
def blockGives (a b : Fin 9 → Byte) (info : Byte) : Nat :=
  if mapInUse info then (epIndices.filter (carriesBit a b info)).length else 0

theorem blockGives_le (a b : Fin 9 → Byte) (info : Byte) : blockGives a b info ≤ 5 := by
  unfold blockGives
  split
  · exact (List.length_filter_le _ _).trans (by decide)
  · omega

/-- The bit of an EP is among those its block appends. -/
theorem countBefore_lt {a b : Fin 9 → Byte} {info : Byte} {i : Fin 5} (hu : mapInUse info = true)
    (h : carriesBit a b info i = true) : countBefore (carriesBit a b info) i < blockGives a b info := by
  rw [blockGives, if_pos hu]
  generalize carriesBit a b info = f at h
  revert f i; decide

/-- BlockExtract by any map byte, once its block can be read and its output bytes are written (R142). -/
theorem blockExtract_ok {x y dst cap cursor : Nat} {info : Byte} {m : Memory} {a b : Fin 9 → Byte} (hw : 3 ≤ pl.w)
    (hab : mapInUse info = true → readBlock P m pl.p1 pl.w x y = .ok a ∧ readBlock P m pl.p2 pl.w x y = .ok b)
    (hap : ∀ j i, j < cap → dst + j / 8 ≠ epAddr pl x y i) (hcap : cursor + 5 ≤ cap)
    (hout : ∀ j, j < cap → dst + j / 8 < P.bufBytes ∧ (m.read? (dst + j / 8)).isSome) :
    ∃ m', blockExtract P pl x y dst info cursor m = .ok (m', cursor + blockGives a b info) ∧
      ExtractsBlock a b info cursor (fun i => m.read? (epAddr pl x y i)) (fun i => m'.read? (epAddr pl x y i))
        (bitAt m' dst) ∧
      (∀ k, k < cap → ¬ (cursor ≤ k ∧ k < cursor + blockGives a b info) → bitAt m' dst k = bitAt m dst k) ∧
      (∀ z, (m.read? z).isSome → (m'.read? z).isSome) ∧
      ∀ z, (∀ i, z ≠ epAddr pl x y i) → (∀ k, k < cap → z ≠ dst + k / 8) → m'.read? z = m.read? z := by
  cases hu : mapInUse info with
  | false =>
    refine ⟨m, ?_, ⟨fun _ _ => rfl, fun h => by rw [hu] at h; cases h⟩, fun _ _ _ => rfl, fun _ h => h, fun _ _ _ => rfl⟩
    rw [blockExtract_unused hu, blockGives, hu]
    rfl
  | true =>
    obtain ⟨ha, hb⟩ := hab hu
    have h5 := blockGives_le a b info
    have hg : blockGives a b info = (epIndices.filter (fun i => dHsb a b i == recoveredPeak a b info ||
        dHsb a b i == recoveredPeak a b info + 1)).length := if_pos hu
    obtain ⟨r, hr⟩ := blockExtract_succeeds ha hb hu (me := recoveredPeak a b info) rfl (cursor := cursor) (dst := dst) fun j _ hj =>
      hout j (by rw [← hg] at hj; omega)
    obtain ⟨hc, hep, hbit, hoth, hfr⟩ := blockExtract_used hw ha hb hu (me := recoveredPeak a b info) rfl hap hcap hr
    rw [← hg] at hc
    have hk := (blockExtract_touches (P := P) (T := fun _ => True) (S := fun _ => True) (m := m) (pl := pl) (x := x)
      (y := y) (dst := dst) (cursor := cursor) (info := info) (fun _ => trivial) (fun _ => trivial)
      (fun _ _ _ => ⟨trivial, trivial⟩) (fun _ => trivial)).kept hr
    refine ⟨r.1, by rw [hr, ← hc], ⟨fun h => (by rw [hu] at h; cases h), fun _ i => ⟨hep i, hbit i⟩⟩,
      fun k h1 h2 => hoth k h1 (by rw [hc]; exact h2), hk.marks, fun z h1 h2 => hfr z h1 fun k _ hk => h2 k (by omega)⟩

/-- EXTRACT's traversal over a map of `n` bytes, said whole (R175): the cursor before each block, what each visited block
becomes, the bits appended, and that nothing else changes; the first `cap` bits of the output are written before. -/
theorem extractLoop_values {mapBase dst n cap : Nat} {a b : Nat → Fin 9 → Byte} {info : Nat → Byte} {cur : Nat → Nat}
    (hw : 0 < n → 3 ≤ pl.w) (hcap : 5 * n ≤ cap)
    (hcur : ∀ k, k < n → cur (k + 1) = cur k + blockGives (a k) (b k) (info k))
    (hbl : ∀ k j, k < n → j < n → k ≠ j → ∀ i p, epAddr pl (blockX hb k) (blockY hb k) i ≠ visitAddr pl.p1 pl.w hb j p)
    (hb2 : ∀ k j, k < n → j < n → ∀ i p, epAddr pl (blockX hb k) (blockY hb k) i ≠ visitAddr pl.p2 pl.w hb j p)
    (hem : ∀ k j, k < n → j < n → ∀ i, epAddr pl (blockX hb k) (blockY hb k) i ≠ mapBase + j)
    (hd1 : ∀ j k, j < cap → k < n → ∀ p, dst + j / 8 ≠ visitAddr pl.p1 pl.w hb k p)
    (hd2 : ∀ j k, j < cap → k < n → ∀ p, dst + j / 8 ≠ visitAddr pl.p2 pl.w hb k p)
    (hdm : ∀ j k, j < cap → k < n → dst + j / 8 ≠ mapBase + k) (hbuf : ∀ j, j < cap → dst + j / 8 < P.bufBytes) :
    ∀ {left k : Nat} {m : Memory}, k ≤ n → n ≤ k + left → cur k ≤ 5 * k →
      (∀ j, k ≤ j → j < n → memRead P m (mapBase + j) = .ok (info j)) →
      (∀ j, k ≤ j → j < n → mapInUse (info j) = true →
        readBlock P m pl.p1 pl.w (blockX hb j) (blockY hb j) = .ok (a j) ∧
        readBlock P m pl.p2 pl.w (blockX hb j) (blockY hb j) = .ok (b j)) →
      (∀ j, j < cap → (m.read? (dst + j / 8)).isSome) →
      ∃ m', extractLoop P pl hb mapBase dst n left k (cur k) m = .ok (m', n, cur n) ∧ cur k ≤ cur n ∧ cur n ≤ 5 * n ∧
        (∀ j, k ≤ j → j < n → ExtractsBlock (a j) (b j) (info j) (cur j)
          (fun i => m.read? (epAddr pl (blockX hb j) (blockY hb j) i))
          (fun i => m'.read? (epAddr pl (blockX hb j) (blockY hb j) i)) (bitAt m' dst)) ∧
        (∀ j, j < cap → ¬ (cur k ≤ j ∧ j < cur n) → bitAt m' dst j = bitAt m dst j) ∧
        (∀ z, (m.read? z).isSome → (m'.read? z).isSome) ∧
        ∀ z, (∀ j i, k ≤ j → j < n → z ≠ epAddr pl (blockX hb j) (blockY hb j) i) →
          (∀ j, j < cap → z ≠ dst + j / 8) → m'.read? z = m.read? z
  | 0, k, m, hk, hn, hc, _, _, _ => by
    obtain rfl : k = n := by omega
    exact ⟨m, rfl, le_rfl, hc, fun j h1 h2 => by omega, fun _ _ _ => rfl, fun _ h => h, fun _ _ _ => rfl⟩
  | left + 1, k, m, hk, hn, hc, hmap, hrd, hout => by
    unfold extractLoop
    by_cases hkn : n ≤ k
    · obtain rfl : k = n := by omega
      rw [if_pos le_rfl]
      exact ⟨m, rfl, le_rfl, hc, fun j h1 h2 => by omega, fun _ _ _ => rfl, fun _ h => h, fun _ _ _ => rfl⟩
    · rw [if_neg hkn]
      have hkn : k < n := by omega
      have h5 := blockGives_le (a k) (b k) (info k)
      obtain ⟨m1, h1, hE, hoth, hmk, hfr⟩ := blockExtract_ok (hw (by omega)) (hrd k le_rfl hkn)
        (fun j i hj => hd1 j k hj hkn (epPos i)) (show cur k + 5 ≤ cap by omega)
        (fun j hj => ⟨hbuf j hj, hout j hj⟩)
      have hck := hcur k hkn
      obtain ⟨m', h2, hle, hle', hblk, hoth', hmk', hfr'⟩ := extractLoop_values hw hcap hcur hbl hb2 hem hd1 hd2 hdm hbuf
        (left := left) (k := k + 1) (m := m1) (by omega) (by omega) (by omega)
        (fun j hj hjn => by
          obtain ⟨hlt, hv⟩ := memRead_ok_iff.1 (hmap j (by omega) hjn)
          exact memRead_eq hlt ((hfr _ (fun i he => hem k j hkn hjn i he.symm)
            (fun t ht he => hdm t j ht hjn he.symm)).trans hv))
        (fun j hj hjn hu => by
          obtain ⟨h1, h2⟩ := hrd j (by omega) hjn hu
          exact ⟨readBlock_congr (fun p => hfr _ (fun i he => hbl k j hkn hjn (by omega) i p he.symm)
              (fun t ht he => hd1 t j ht hjn p he.symm)) h1,
            readBlock_congr (fun p => hfr _ (fun i he => hb2 k j hkn hjn i p he.symm)
              (fun t ht he => hd2 t j ht hjn p he.symm)) h2⟩)
        (fun j hj => hmk _ (hout j hj))
      rw [hck] at h2
      refine ⟨m', bind_ok_iff.2 ⟨_, hmap k le_rfl hkn, bind_ok_iff.2 ⟨_, h1, h2⟩⟩, by omega, hle', fun j hj hjn => ?_,
        fun j hj hjc => ?_, fun z hz => hmk' z (hmk z hz), fun z hz hzd => ?_⟩
      · rcases Nat.eq_or_lt_of_le hj with rfl | hj
        · have he : ∀ i, m'.read? (epAddr pl (blockX hb k) (blockY hb k) i) =
              m1.read? (epAddr pl (blockX hb k) (blockY hb k) i) := fun i =>
            hfr' _ (fun j i' hj hjn he => hbl j k hjn hkn (by omega) i' (epPos i) he.symm)
              (fun t ht he => hd1 t k ht hkn (epPos i) he.symm)
          obtain ⟨hno, hyes⟩ := hE
          refine ⟨fun hu i => (he i).trans (hno hu i), fun hu i => ⟨(he i).trans (hyes hu i).1, fun hcar => ?_⟩⟩
          have hlt := countBefore_lt hu hcar
          rw [hoth' _ (by omega) (by omega)]
          exact (hyes hu i).2 hcar
        · obtain ⟨hno, hyes⟩ := hblk j hj hjn
          refine ⟨fun hu i => (hno hu i).trans ?_, hyes⟩
          exact hfr _ (fun i' he => hbl k j hkn hjn (by omega) i' (epPos i) he.symm)
            (fun t ht he => hd1 t j ht hjn (epPos i) he.symm)
      · rw [hoth' j hj (by omega), hoth j hj (by omega)]
      · rw [hfr' z (fun j i hj hjn => hz j i (by omega) hjn) hzd]
        exact hfr z (fun i => hz k i le_rfl hkn) hzd

/-- The zero fill of bytes that lie in BUF succeeds (R176). -/
theorem zeroFill_succeeds : ∀ {n a : Nat} {m : Memory}, (∀ i, i < n → a + i < P.bufBytes) → ∃ m', zeroFill P n a m = .ok m'
  | 0, _, m, _ => ⟨m, rfl⟩
  | n + 1, a, m, h => by
    obtain ⟨m', hm⟩ := zeroFill_succeeds (n := n) (a := a + 1) (m := m.write a 0) fun i hi => by
      have := h (i + 1) (by omega)
      omega
    exact ⟨m', bind_ok_iff.2 ⟨_, memWrite_eq _ (h 0 (by omega)), hm⟩⟩

/-- A map whose bytes can all be read and are well-formed passes the MAP_FIELD check (30_encoding.md R112). -/
theorem mapFieldBad_of_wf {m : Memory} : ∀ {n a : Nat},
    (∀ i, i < n → ∃ v, memRead P m (a + i) = .ok v ∧ mapMalformed v = false) → mapFieldBad P m n a = .ok false
  | 0, _, _ => rfl
  | n + 1, a, h => by
    obtain ⟨v, h1, h2⟩ := h 0 (by omega)
    refine bind_ok_iff.2 ⟨v, h1, ?_⟩
    rw [h2, if_neg Bool.false_ne_true]
    exact mapFieldBad_of_wf fun i hi => by
      have := h (i + 1) (by omega)
      rwa [show a + 1 + i = a + (i + 1) by omega]

end Sys2Proof.Machine
end

