-- ==== Sys2Proof/Laws/Permutation.lean ====
section
/-! SUPPORT. What the Fisher-Yates loop does, and what moving the chunks by its result leaves (43_permutation.md
R200-R206). -/

namespace Sys2Proof.Machine

/-- A swap inside a list only reorders it. -/
theorem swapEntries_perm {idx : List Nat} {i j : Nat} (hi : i < idx.length) (hj : j < idx.length) :
    (swapEntries idx i j).Perm idx := by
  unfold swapEntries
  rw [List.getD_eq_getElem _ _ hi, List.getD_eq_getElem _ _ hj]
  exact List.set_set_perm hi hj

/-- A swap of entries i and j, said entry by entry (R201). -/
theorem swapEntries_range_map {idx : Nat → Nat} {n i j : Nat} (hi : i < n) (hj : j < n) :
    swapEntries ((List.range n).map idx) i j =
      (List.range n).map (fun c => if c = j then idx i else if c = i then idx j else idx c) := by
  unfold swapEntries
  refine List.ext_getElem (by simp) fun c _ _ => ?_
  simp only [List.getElem_set, List.getElem_map, List.getElem_range]
  rw [List.getD_eq_getElem _ _ (by simpa), List.getD_eq_getElem _ _ (by simpa)]
  simp [eq_comm]

/-- The loop of R201 only reorders the list, if its indices are in range. -/
theorem fisherYates_perm {draw : Nat → Word} : ∀ {top k : Nat} {idx : List Nat}, top < idx.length →
    (fisherYates draw top k idx).Perm idx
  | 0, _, _, _ => List.Perm.refl _
  | i + 1, k, idx, h => by
    have hj : (draw k).toNat % (i + 2) < idx.length := lt_of_lt_of_le (Nat.mod_lt _ (by omega)) (by omega)
    have hp := swapEntries_perm h hj
    rw [fisherYates]
    exact (fisherYates_perm (by rw [hp.length_eq]; omega)).trans hp

/-- The loop from `top` with draws from `k` on uses the draws k to k + top − 1 only (R200, R201). -/
theorem fisherYates_congr {draw draw' : Nat → Word} : ∀ {top k : Nat} {idx : List Nat},
    (∀ j, k ≤ j → j < k + top → draw' j = draw j) → fisherYates draw' top k idx = fisherYates draw top k idx
  | 0, _, _, _ => rfl
  | i + 1, k, idx, h => by
    rw [fisherYates, fisherYates, h k le_rfl (by omega)]
    exact fisherYates_congr fun j hj hj' => h j (by omega) (by omega)

theorem mem_zipIdx_iff {idx : List Nat} {j c : Nat} : (j, c) ∈ idx.zipIdx ↔ idx[c]? = some j := by
  rw [List.mem_zipIdx_iff_getElem?]

/-- SHUFFLE moves source chunk idx[c] to chunk c (R202). -/
theorem mem_shuffleMoves_iff {idx : List Nat} {c j : Nat} : (c, j) ∈ shuffleMoves idx ↔ idx[c]? = some j := by
  rw [← mem_zipIdx_iff]
  simp [shuffleMoves]

/-- UNSHUFFLE moves source chunk c to chunk idx[c] (R204). -/
theorem mem_unshuffleMoves_iff {idx : List Nat} {c j : Nat} : (j, c) ∈ unshuffleMoves idx ↔ idx[c]? = some j :=
  mem_zipIdx_iff

/-- No chunk is moved to twice by SHUFFLE. -/
theorem shuffleMoves_nodup (idx : List Nat) : ((shuffleMoves idx).map Prod.fst).Nodup := by
  have : (shuffleMoves idx).map Prod.fst = idx.zipIdx.map Prod.snd := by
    rw [shuffleMoves, List.map_map]; rfl
  rw [this, List.zipIdx_map_snd]
  exact List.nodup_range'

/-- No chunk is moved to twice by UNSHUFFLE, if the list has no repeats. -/
theorem unshuffleMoves_nodup {idx : List Nat} (h : idx.Nodup) : ((unshuffleMoves idx).map Prod.fst).Nodup := by
  rw [unshuffleMoves, List.zipIdx_map_fst]
  exact h

/-- Moving chunks inside a written region of BUF succeeds. -/
theorem moveChunks_succeeds {P : Config} {m0 : Memory} {base n : Nat} (hw : m0.written base (8 * n))
    (hb : n = 0 ∨ base + 8 * n ≤ P.bufBytes) : ∀ {moves : List (Nat × Nat)} {m : Memory},
    (∀ p ∈ moves, p.1 < n ∧ p.2 < n) → ∃ m', moveChunks P m0 base moves m = .ok m'
  | [], m, _ => ⟨m, rfl⟩
  | (d, c) :: rest, m, h => by
    have hdc := h (d, c) List.mem_cons_self
    simp only at hdc
    obtain ⟨m1, hm1⟩ := copyBytes_succeeds (P := P) (m0 := m0) (n := 8) (src := base + 8 * c) (dst := base + 8 * d) (m := m)
      (fun i hi => ⟨by omega, by
        have := hw (8 * c + i) (by omega)
        rwa [← Nat.add_assoc] at this, by omega⟩)
    obtain ⟨m', hm'⟩ := moveChunks_succeeds hw hb (m := m1) fun p hp => h p (List.mem_cons_of_mem _ hp)
    exact ⟨m', bind_ok_iff.2 ⟨m1, hm1, hm'⟩⟩

end Sys2Proof.Machine
end

