-- ==== Sys2Proof/Laws/Effects.lean ====
section
/-! SUPPORT. Each command's pseudocode accesses BUF only in the regions of 20_memory.md R83 and stores only in the written
ones: one lemma per command, for operands that pass the checks. -/

namespace Sys2Proof.Machine

variable {P : Config} {r : Regs} {m : Memory}

theorem inRegions_intro {i : Instr} {q : Region} {a : Nat} (hq : q ∈ regionsOf i r) (ha : inSpan q.base q.len a) :
    inRegions i r a := ⟨q, hq, ha⟩

theorem inWritten_intro {i : Instr} {q : Region} {a : Nat} (hq : q ∈ regionsOf i r) (hw : q.writes = true)
    (ha : inSpan q.base q.len a) : inWritten i r a := ⟨q, hq, hw, ha⟩

theorem inRegions_of_inWritten {i : Instr} {a : Nat} (h : inWritten i r a) : inRegions i r a := by
  obtain ⟨q, hq, -, ha⟩ := h; exact ⟨q, hq, ha⟩

/-- The samples of the addressed block lie in the planes (R80, R130). -/
theorem blockSamples_inSpan (hg : blockGeometry r) (base : Nat) (p : Fin 9) :
    inSpan base (planeBytes r) (sampleAddr base r.width.toNat r.blkX.toNat r.blkY.toNat p) :=
  sampleAddr_inSpan hg.2.1 hg.2.2 p

/-- So do those of every visited block (41_driver.md R170, R171). -/
theorem visitedSamples_inSpan (hg : planeGeometry r) {k : Nat} (hk : k < blockCount r) (base : Nat) (p : Fin 9) :
    inSpan base (planeBytes r) (sampleAddr base r.width.toNat (blockX (r.height.toNat / 3) k)
      (blockY (r.height.toNat / 3) k) p) :=
  have h := block_inPlane hg.1 hg.2 hk
  sampleAddr_inSpan h.1 h.2 p

theorem predictReads_touches (hg : blockGeometry r) :
    (∀ S, Touches P (inRegions .predict r) S m
      (readBlock P m r.p1Base.toNat r.width.toNat r.blkX.toNat r.blkY.toNat) (fun _ => m)) ∧
    ∀ S, Touches P (inRegions .predict r) S m
      (readBlock P m r.p2Base.toNat r.width.toNat r.blkX.toNat r.blkY.toNat) (fun _ => m) :=
  ⟨fun _ => readBlock_touches fun p => inRegions_intro (.head _) (blockSamples_inSpan hg _ p),
   fun _ => readBlock_touches fun p => inRegions_intro (.tail _ (.head _)) (blockSamples_inSpan hg _ p)⟩

theorem blkEmbed_inRegions (hg : blockGeometry r) {cursor : Nat} :
    Touches P (inRegions .blkEmbed r) (inWritten .blkEmbed r) m
      (blockEmbed P (planesOf r) r.blkX.toNat r.blkY.toNat r.srcBase.toNat cursor r.bitTotal.toNat m) Prod.fst :=
  blockEmbed_touches (fun p => inRegions_intro (.head _) (blockSamples_inSpan hg _ p))
    (fun p => inRegions_intro (.tail _ (.head _)) (blockSamples_inSpan hg _ p))
    (fun _ hj => inRegions_intro (.tail _ (.tail _ (.head _)))
      ⟨Nat.le_add_right _ _, Nat.add_lt_add_left (bit_byte_lt hj) _⟩)
    (fun _ => inWritten_intro (.head _) rfl (blockSamples_inSpan hg _ _))

theorem blkExtract_inRegions (hg : earlyChecksPass .blkExtract r) {info : Byte} :
    Touches P (inRegions .blkExtract r) (inWritten .blkExtract r) m
      (blockExtract P (planesOf r) r.blkX.toNat r.blkY.toNat r.dstBase.toNat info r.bitCursor.toNat m) Prod.fst := by
  obtain ⟨hg, hcap⟩ := hg
  have hd : ∀ j, r.bitCursor.toNat ≤ j → j < r.bitCursor.toNat + 5 →
      inSpan r.dstBase.toNat r.dstCap.toNat (r.dstBase.toNat + j / 8) := fun j h1 h2 => ⟨by omega, by omega⟩
  exact blockExtract_touches (fun p => inRegions_intro (.head _) (blockSamples_inSpan hg _ p))
    (fun p => inRegions_intro (.tail _ (.head _)) (blockSamples_inSpan hg _ p))
    (fun j h1 h2 => ⟨inRegions_intro (.tail _ (.tail _ (.head _))) (hd j h1 h2),
      inWritten_intro (.tail _ (.tail _ (.head _))) rfl (hd j h1 h2)⟩)
    (fun _ => inWritten_intro (.head _) rfl (blockSamples_inSpan hg _ _))

theorem embed_inRegions (hg : planeGeometry r) :
    Touches P (inRegions .embed r) (inWritten .embed r) m
      (embedLoop P (planesOf r) (r.height.toNat / 3) r.srcBase.toNat r.mapBase.toNat (8 * r.len.toNat) (blockCount r) 0 0 m)
      Prod.fst := by
  refine embedLoop_touches (fun j hj => ?_) (fun k _ hk => ?_)
  · have hs : inSpan r.srcBase.toNat r.len.toNat (r.srcBase.toNat + j / 8) := ⟨by omega, by omega⟩
    exact inRegions_intro (.tail _ (.tail _ (.head _))) hs
  · rw [Nat.zero_add] at hk
    have hm : inSpan r.mapBase.toNat (blockCount r) (r.mapBase.toNat + k) := ⟨by omega, by omega⟩
    exact ⟨fun p => inRegions_intro (.head _) (visitedSamples_inSpan hg hk _ p),
      fun p => inRegions_intro (.tail _ (.head _)) (visitedSamples_inSpan hg hk _ p),
      fun i => inWritten_intro (.head _) rfl (visitedSamples_inSpan hg hk _ _),
      inRegions_intro (.tail _ (.tail _ (.tail _ (.head _)))) hm,
      inWritten_intro (.tail _ (.tail _ (.tail _ (.head _)))) rfl hm⟩

theorem zeroFill_inRegions (hc : ceilDiv (5 * r.mapLen.toNat) 8 ≤ r.dstCap.toNat) :
    Touches P (inRegions .extract r) (inWritten .extract r) m
      (zeroFill P (ceilDiv (5 * r.mapLen.toNat) 8) r.dstBase.toNat m) id :=
  zeroFill_touches fun i hi =>
    have hd : inSpan r.dstBase.toNat r.dstCap.toNat (r.dstBase.toNat + i) := ⟨by omega, by omega⟩
    ⟨inRegions_intro (.tail _ (.tail _ (.tail _ (.head _)))) hd,
     inWritten_intro (.tail _ (.tail _ (.tail _ (.head _)))) rfl hd⟩

theorem extract_inRegions (hg : earlyChecksPass .extract r) :
    Touches P (inRegions .extract r) (inWritten .extract r) m
      (extractLoop P (planesOf r) (r.height.toNat / 3) r.mapBase.toNat r.dstBase.toNat r.mapLen.toNat (blockCount r) 0 0 m)
      Prod.fst := by
  obtain ⟨hg, hn, hc⟩ := hg
  refine extractLoop_touches le_rfl (fun k _ hk hkn => ?_) (fun j hj => ?_)
  · rw [Nat.zero_add] at hk
    exact ⟨fun p => inRegions_intro (.head _) (visitedSamples_inSpan hg hk _ p),
      fun p => inRegions_intro (.tail _ (.head _)) (visitedSamples_inSpan hg hk _ p),
      fun i => inWritten_intro (.head _) rfl (visitedSamples_inSpan hg hk _ _),
      inRegions_intro (.tail _ (.tail _ (.head _))) ⟨Nat.le_add_right _ _, by simp only; omega⟩⟩
  · have hd : inSpan r.dstBase.toNat r.dstCap.toNat (r.dstBase.toNat + j / 8) := ⟨by omega, by omega⟩
    exact ⟨inRegions_intro (.tail _ (.tail _ (.tail _ (.head _)))) hd,
      inWritten_intro (.tail _ (.tail _ (.tail _ (.head _)))) rfl hd⟩

theorem mapField_inRegions {S : Nat → Prop} :
    Touches P (inRegions .extract r) S m (mapFieldBad P m r.mapLen.toNat r.mapBase.toNat) (fun _ => m) :=
  mapFieldBad_touches fun i hi => inRegions_intro (.tail _ (.tail _ (.head _))) ⟨Nat.le_add_right _ _, by simp only; omega⟩

theorem split_inRegions {pos : Nat} :
    Touches P (inRegions .split r) (inWritten .split r) m
      (splitLoop P r.srcBase.toNat r.p1Base.toNat r.p2Base.toNat pos r.len.toNat 0 m) id :=
  splitLoop_touches fun j _ hj => by
    have h : ∀ base, inSpan base r.len.toNat (base + j) := fun base => ⟨by omega, by omega⟩
    exact ⟨inRegions_intro (.head _) (h _), inRegions_intro (.tail _ (.head _)) (h _),
      inWritten_intro (.tail _ (.head _)) rfl (h _), inRegions_intro (.tail _ (.tail _ (.head _))) (h _),
      inWritten_intro (.tail _ (.tail _ (.head _))) rfl (h _)⟩

theorem combine_inRegions :
    Touches P (inRegions .combine r) (inWritten .combine r) m
      (combineLoop P r.p1Base.toNat r.p2Base.toNat r.dstBase.toNat r.len.toNat 0 m) id :=
  combineLoop_touches fun j _ hj => by
    have h : ∀ base, inSpan base r.len.toNat (base + j) := fun base => ⟨by omega, by omega⟩
    exact ⟨inRegions_intro (.head _) (h _), inRegions_intro (.tail _ (.head _)) (h _),
      inRegions_intro (.tail _ (.tail _ (.head _))) (h _), inWritten_intro (.tail _ (.tail _ (.head _))) rfl (h _)⟩

/-- Chunks below LEN / 8 lie in the plane of SHUFFLE and UNSHUFFLE (43_permutation.md R200). -/
theorem chunk_inSpan {len c i : Nat} (base : Nat) (hc : c < len / 8) (hi : i < 8) :
    inSpan base len (base + 8 * c + i) := ⟨by omega, by omega⟩

theorem permute_inRegions {i : Instr} (hi : i = .shuffle ∨ i = .unshuffle) {moves : List (Nat × Nat)}
    (h : ∀ p ∈ moves, p.1 < r.len.toNat / 8 ∧ p.2 < r.len.toNat / 8) :
    Touches P (inRegions i r) (inWritten i r) m (moveChunks P m r.p1Base.toNat moves m) id := by
  refine moveChunks_touches (Kept.refl _ _ _) fun p hp k hk => ?_
  have h1 := chunk_inSpan r.p1Base.toNat (h p hp).1 hk
  have h2 := chunk_inSpan r.p1Base.toNat (h p hp).2 hk
  rcases hi with rfl | rfl <;>
    exact ⟨inRegions_intro (.head _) h2, inRegions_intro (.head _) h1, inWritten_intro (.head _) rfl h1⟩

/-- The chunk numbers that the permutation commands move are below the chunk count (R201). -/
theorem moves_lt {n : Nat} {draw : Nat → Word} : (∀ p ∈ shuffleMoves (permIndex n draw), p.1 < n ∧ p.2 < n) ∧
    ∀ p ∈ unshuffleMoves (permIndex n draw), p.1 < n ∧ p.2 < n := by
  have hp : n = 0 ∨ (permIndex n draw).Perm (List.range n) := by
    rcases Nat.eq_zero_or_pos n with h | h
    · exact .inl h
    · exact .inr (fisherYates_perm (by rw [List.length_range]; omega))
  have key : ∀ {c j : Nat}, (permIndex n draw)[c]? = some j → c < n ∧ j < n := by
    intro c j h
    rcases hp with rfl | hp
    · simp [permIndex, fisherYates] at h
    · obtain ⟨hlt, he⟩ := List.getElem?_eq_some_iff.1 h
      rw [hp.length_eq, List.length_range] at hlt
      exact ⟨hlt, List.mem_range.1 (hp.mem_iff.1 (he ▸ List.getElem_mem _))⟩
  exact ⟨fun p hp => key (mem_shuffleMoves_iff.1 hp), fun p hp => (key (mem_unshuffleMoves_iff.1 hp)).symm⟩

end Sys2Proof.Machine
end

