-- ==== Sys2Proof/Laws/PerInstr.lean ====
section
/-! SUPPORT. The statement made per command about its word (30_encoding.md R100, R101), one lemma per constructor. -/

/-- The word of a command is well-formed as a format CMD32, equals `zext_32(OPC)`, and decodes to the command (R101). -/
def Sys2Proof.Laws.OpcodeWord.Statement (i : Sys2Proof.Instr) : Prop :=
  (Sys2Proof.Cmd32.ofWord (Sys2Proof.encode i)).wf = true ∧
    (Sys2Proof.encode i).toNat = (Sys2Proof.opcodeOf i).toNat ∧
    Sys2Proof.decodeTableWord 32 (Sys2Proof.encode i).toNat = some i

theorem Sys2Proof.Laws.OpcodeWord.nop : Sys2Proof.Laws.OpcodeWord.Statement .nop := by
  unfold Sys2Proof.Laws.OpcodeWord.Statement; decide

theorem Sys2Proof.Laws.OpcodeWord.predict : Sys2Proof.Laws.OpcodeWord.Statement .predict := by
  unfold Sys2Proof.Laws.OpcodeWord.Statement; decide

theorem Sys2Proof.Laws.OpcodeWord.blkEmbed : Sys2Proof.Laws.OpcodeWord.Statement .blkEmbed := by
  unfold Sys2Proof.Laws.OpcodeWord.Statement; decide

theorem Sys2Proof.Laws.OpcodeWord.blkExtract : Sys2Proof.Laws.OpcodeWord.Statement .blkExtract := by
  unfold Sys2Proof.Laws.OpcodeWord.Statement; decide

theorem Sys2Proof.Laws.OpcodeWord.embed : Sys2Proof.Laws.OpcodeWord.Statement .embed := by
  unfold Sys2Proof.Laws.OpcodeWord.Statement; decide

theorem Sys2Proof.Laws.OpcodeWord.extract : Sys2Proof.Laws.OpcodeWord.Statement .extract := by
  unfold Sys2Proof.Laws.OpcodeWord.Statement; decide

theorem Sys2Proof.Laws.OpcodeWord.split : Sys2Proof.Laws.OpcodeWord.Statement .split := by
  unfold Sys2Proof.Laws.OpcodeWord.Statement; decide

theorem Sys2Proof.Laws.OpcodeWord.combine : Sys2Proof.Laws.OpcodeWord.Statement .combine := by
  unfold Sys2Proof.Laws.OpcodeWord.Statement; decide

theorem Sys2Proof.Laws.OpcodeWord.shuffle : Sys2Proof.Laws.OpcodeWord.Statement .shuffle := by
  unfold Sys2Proof.Laws.OpcodeWord.Statement; decide

theorem Sys2Proof.Laws.OpcodeWord.unshuffle : Sys2Proof.Laws.OpcodeWord.Statement .unshuffle := by
  unfold Sys2Proof.Laws.OpcodeWord.Statement; decide
end

