-- ==== Sys2Proof/Laws/Shares.lean ====
section
/-! SUPPORT. What the loops of SPLIT and COMBINE leave (42_split_combine.md R190-R195). -/

namespace Sys2Proof.Machine

variable {P : Config}

/-- The shares SPLIT leaves, if its three regions are apart: each source byte was written, and its two shares stand at
its offset (R190). -/
theorem splitLoop_values {src p1 p2 pos : Nat} : ∀ {n i : Nat} {m m' : Memory},
    (∀ j k, i ≤ j → i ≤ k → j < i + n → k < i + n → src + j ≠ p1 + k ∧ src + j ≠ p2 + k ∧ p1 + j ≠ p2 + k) →
    splitLoop P src p1 p2 pos n i m = .ok m' → ∀ k, i ≤ k → k < i + n → ∃ v, m.read? (src + k) = some v ∧
      m'.read? (p1 + k) = some (splitByte P.splitPartition v (P.rng8 (pos + k))).1 ∧
      m'.read? (p2 + k) = some (splitByte P.splitPartition v (P.rng8 (pos + k))).2
  | 0, i, _, _, _, _, k, h1, h2 => by omega
  | n + 1, i, m, m', hd, h, k, h1, h2 => by
    obtain ⟨v, hv, h⟩ := bind_ok_iff.1 h
    obtain ⟨m1, hm1, h⟩ := bind_ok_iff.1 h
    obtain ⟨m2, hm2, h⟩ := bind_ok_iff.1 h
    obtain ⟨-, hv⟩ := memRead_ok_iff.1 hv
    obtain ⟨-, rfl⟩ := memWrite_ok_iff.1 hm1
    obtain ⟨-, rfl⟩ := memWrite_ok_iff.1 hm2
    rcases Nat.eq_or_lt_of_le h1 with rfl | hlt
    · have hk := (splitLoop_touches (P := P) (T := fun _ => True)
        (S := fun a => ∃ j, i < j ∧ j < i + (n + 1) ∧ (a = p1 + j ∨ a = p2 + j)) (m := _)
        (fun k hk hk' => ⟨trivial, trivial, ⟨k, by omega, by omega, .inl rfl⟩, trivial, ⟨k, by omega, by omega, .inr rfl⟩⟩)).kept h
      have hii := hd i i le_rfl le_rfl (by omega) (by omega)
      refine ⟨v, hv, ?_, ?_⟩
      · rw [id_eq] at hk
        rw [hk.frame (p1 + i) ?_, read?_write_other _ _ hii.2.2, read?_write_same]
        rintro ⟨j, hj, hj', he | he⟩
        · omega
        · exact (hd i j le_rfl (by omega) (by omega) hj').2.2 he
      · rw [id_eq] at hk
        rw [hk.frame (p2 + i) ?_, read?_write_same]
        rintro ⟨j, hj, hj', he | he⟩
        · exact (hd j i (by omega) le_rfl hj' (by omega)).2.2 he.symm
        · omega
    · obtain ⟨w, hw, hr⟩ := splitLoop_values (fun j k' hj hk hj' hk' => hd j k' (by omega) (by omega) (by omega) (by omega))
        h k (by omega) (by omega)
      have hki := hd k i (by omega) le_rfl (by omega) (by omega)
      refine ⟨w, ?_, hr⟩
      rwa [read?_write_other _ _ hki.2.1, read?_write_other _ _ hki.1] at hw

/-- The bytes COMBINE leaves, if the output is apart from both shares (R193). -/
theorem combineLoop_values {p1 p2 dst : Nat} : ∀ {n i : Nat} {m m' : Memory},
    (∀ j k, i ≤ j → i ≤ k → j < i + n → k < i + n → p1 + j ≠ dst + k ∧ p2 + j ≠ dst + k) →
    combineLoop P p1 p2 dst n i m = .ok m' → ∀ k, i ≤ k → k < i + n → ∃ v w, m.read? (p1 + k) = some v ∧
      m.read? (p2 + k) = some w ∧ m'.read? (dst + k) = some (v + w)
  | 0, i, _, _, _, _, k, h1, h2 => by omega
  | n + 1, i, m, m', hd, h, k, h1, h2 => by
    obtain ⟨v, hv, h⟩ := bind_ok_iff.1 h
    obtain ⟨w, hw, h⟩ := bind_ok_iff.1 h
    obtain ⟨m1, hm1, h⟩ := bind_ok_iff.1 h
    obtain ⟨-, hv⟩ := memRead_ok_iff.1 hv
    obtain ⟨-, hw⟩ := memRead_ok_iff.1 hw
    obtain ⟨-, rfl⟩ := memWrite_ok_iff.1 hm1
    rcases Nat.eq_or_lt_of_le h1 with rfl | hlt
    · have hk := (combineLoop_touches (P := P) (T := fun _ => True) (S := fun a => ∃ j, i < j ∧ a = dst + j) (m := _)
        (fun k hk hk' => ⟨trivial, trivial, trivial, ⟨k, by omega, rfl⟩⟩)).kept h
      refine ⟨v, w, hv, hw, ?_⟩
      rw [id_eq] at hk
      rw [hk.frame (dst + i) ?_, read?_write_same]
      rintro ⟨j, hj, he⟩
      omega
    · obtain ⟨v', w', hv', hw', hr⟩ := combineLoop_values
        (fun j k' hj hk hj' hk' => hd j k' (by omega) (by omega) (by omega) (by omega)) h k (by omega) (by omega)
      have hki := hd k i (by omega) le_rfl (by omega) (by omega)
      rw [read?_write_other _ _ hki.1] at hv'
      rw [read?_write_other _ _ hki.2] at hw'
      exact ⟨v', w', hv', hw', hr⟩

/-- Distinct addresses at any two offsets of two disjoint spans. -/
theorem ne_of_spans_apart {a b n m j k : Nat} (h : ∀ x, ¬ (inSpan a n x ∧ inSpan b m x)) (hj : j < n) (hk : k < m) :
    a + j ≠ b + k := fun he => h (a + j) ⟨⟨by omega, by omega⟩, ⟨by omega, by omega⟩⟩

/-- The two shares of a byte add up to it, component by component (R192). -/
theorem shareComponent_le (part : SplitPartition) (s r : Nat) : shareComponent part s r ≤ s := by
  cases part with
  | modulo => exact Nat.le_of_lt_succ (Nat.mod_lt _ (Nat.succ_pos _))
  | conj => exact Nat.and_le_right

end Sys2Proof.Machine
end

