-- ==== Sys2Proof/Tests/Slice0.lean ====
section
/-! SUPPORT. The model's own tests: decoding, well-formedness, the vectors of 95_test_vectors.md, and for each obligation
with hypotheses a concrete state that meets them. Expected values are the spec's; BUF addresses are kept below 64, the
smallest BUF that 00_scope.md R6 allows. -/

namespace Sys2Proof.Tests

open Sys2Proof.Machine

set_option maxRecDepth 4000

/-! ### Small states -/

/-- The bytes `bs` from address `a` on. -/
def cells (a : Nat) : List Byte → Memory
  | [] => []
  | b :: bs => (a, b) :: cells (a + 1) bs

/-- The outcome is a next state that satisfies `p`. -/
def nextAnd (o : Host.Outcome State Fault Refusal) (p : State → Bool) : Bool :=
  match o with
  | .next t => p t
  | .fault _ => false
  | .refused _ => false

theorem test_of_nextAnd {o : Host.Outcome State Fault Refusal} {p : State → Bool} (h : nextAnd o p = true) :
    ∃ t, o = .next t ∧ p t = true := by
  cases o with
  | next t => exact ⟨t, rfl, h⟩
  | fault f => simp [nextAnd] at h
  | refused r => simp [nextAnd] at h

/-- The bytes read from `n` addresses on. -/
def bytesAt (m : Memory) (a n : Nat) : List (Option Byte) := (List.range n).map (fun k => m.read? (a + k))

/-- `n` bytes of 80, the uniform plane of V-B1 and V-D1. -/
def uniform (n : Nat) : List Byte := List.replicate n 80

/-- Registers of the block vectors: one 3×3 block, planes at 0 and 16, payload at 32, map at 40, output at 48. -/
def blockRegs : Regs := { Regs.reset with
  width := 3, height := 3, p1Base := 0, p2Base := 16, srcBase := 32, len := 1, mapBase := 40, mapLen := 1,
  dstBase := 48, dstCap := 1, bitTotal := 5 }

/-- A block state: image 1 `a`, image 2 `b`, payload byte, map byte in BUF and output byte. -/
def blockState (a b : List Byte) (pay info out : Byte) : State := { State.reset with
  regs := blockRegs
  mem := cells 0 a ++ cells 16 b ++ cells 32 [pay] ++ cells 40 [info] ++ cells 48 [out] }

/-- V-B1, first row: the uniform block and payload bits 1,0,1,1,0. -/
def uniformState : State := blockState (uniform 9) (uniform 9) 0x0D 0x03 0x00

/-- V-P2: image 1. -/
def floorA : List Byte := [16, 20, 24, 30, 100, 8, 40, 33, 9]

/-- V-P2: image 2. -/
def floorB : List Byte := [18, 22, 23, 31, 97, 7, 41, 35, 10]

/-- V-P2 with payload bits 1,0. -/
def floorState : State := blockState floorA floorB 0x01 0x00 0x00

/-- V-D1 (the bases moved below 64): two uniform blocks, the payload `pay`, the map at 40, the output at 48. -/
def planeState (pay : List Byte) (len : Word) : State := { State.reset with
  regs := { Regs.reset with
    width := 6, height := 3, p1Base := 0, p2Base := 18, srcBase := 36, len := len, mapBase := 40, mapLen := 2,
    dstBase := 48, dstCap := 2 }
  mem := cells 0 (uniform 18) ++ cells 18 (uniform 18) ++ cells 36 pay ++ cells 40 [0x03, 0x03] }

/-- V-D1 with an EP of the first block at 255, which the guard rejects, and a second map byte that is unused. -/
def guardState : State := { planeState [0xA5] 1 with
  mem := cells 0 ((uniform 18).set 1 255) ++ cells 18 (uniform 18) ++ cells 36 [0xA5] ++ cells 40 [0x03, 0x00] }

/-- Bytes at 0, two shares of 16 bytes at 16 and 32, and room at 48. -/
def shareState (a b : List Byte) (len : Word) : State := { State.reset with
  regs := { Regs.reset with len := len, srcBase := 0, p1Base := 16, p2Base := 32, dstBase := 48 }
  mem := cells 0 (uniform 8) ++ cells 16 a ++ cells 32 b }

/-- Bytes 0x10, 0x11, … at address 3 (V-Q2, unaligned). -/
def chunkState (n : Nat) : State := { State.reset with
  regs := { Regs.reset with len := BitVec.ofNat 32 n, p1Base := 3, keyLo := 0x89ABCDEF, keyHi := 0x01234567 }
  mem := cells 3 ((List.range n).map (fun k => BitVec.ofNat 8 (0x10 + k))) }

/-- Parameters with the draws of V-Q2. -/
def drawConfig : Config := { Config.machine with bufBytes := 256, prng32 := fun _ k => [1, 3, 4].getD k 0 }

/-- Parameters with the draws of V-S1, first rows. -/
def splitConfig (part : SplitPartition) : Config :=
  { Config.machine with bufBytes := 256, splitPartition := part, rng8 := fun n => [0x3C, 0xFF, 0x00, 0xFE].getD n 0 }

/-! ### Decoding: words written out bit by bit from 30_encoding.md R100, R101, R103 -/

theorem test_decode_nop : decode 0b00000000000000000000000000000000 = .ok .nop := by decide
theorem test_decode_predict : decode 0b00000000000000000000000000000001 = .ok .predict := by decide
theorem test_decode_blkEmbed : decode 0b00000000000000000000000000000010 = .ok .blkEmbed := by decide
theorem test_decode_blkExtract : decode 0b00000000000000000000000000000011 = .ok .blkExtract := by decide
theorem test_decode_embed : decode 0b00000000000000000000000000010000 = .ok .embed := by decide
theorem test_decode_extract : decode 0b00000000000000000000000000010001 = .ok .extract := by decide
theorem test_decode_split : decode 0b00000000000000000000000000100000 = .ok .split := by decide
theorem test_decode_combine : decode 0b00000000000000000000000000100001 = .ok .combine := by decide
theorem test_decode_shuffle : decode 0b00000000000000000000000000110000 = .ok .shuffle := by decide
theorem test_decode_unshuffle : decode 0b00000000000000000000000000110001 = .ok .unshuffle := by decide

/-- The illegal words of V-C1. -/
theorem test_decode_illegal :
    decode 0x00000004 = .error .unknownOpcode ∧ decode 0x00000032 = .error .unknownOpcode ∧
    decode 0x000000FF = .error .unknownOpcode ∧ decode 0x00000104 = .error .reservedNonzero ∧
    decode 0x00000100 = .error .reservedNonzero ∧ decode 0xFFFFFFFF = .error .reservedNonzero := by decide

theorem test_decodeTableWord : decodeTableWord 32 0x21 = some .combine ∧ decodeTableWord 8 0x31 = some .unshuffle ∧
    decodeTableWord 32 0x121 = none := by decide

/-! ### Well-formedness: an ill-formed term for each check -/

theorem test_wf_reserved_refused : Cmd32.reservedClear { opc := 0x10, rsv := 0x000001 } = false ∧
    Cmd32.wf { opc := 0x10, rsv := 0x000001 } = false := by decide
theorem test_wf_opcode_refused : Cmd32.opcodeAssigned { opc := 0x04, rsv := 0 } = false ∧
    Cmd32.wf { opc := 0x04, rsv := 0 } = false := by decide
theorem test_wf_mapByte_refused : mapByteWf 0x1D = false ∧ mapByteWf 0x15 = false ∧ mapByteWf 0x1C = true ∧
    mapByteWf 0x13 = true := by decide
theorem test_wf_config_refused : Config.wf { drawConfig with bufBytes := 63 } = false ∧
    Config.wf { drawConfig with bufBytes := 64 } = true ∧
    Config.wf { drawConfig with bufBytes := 2 ^ 32 + 1 } = false := by decide
theorem test_wf_memory_refused : ¬ Memory.wf [(1, 0), (0, 0)] ∧ ¬ Memory.wf [(1, 0), (1, 0)] ∧
    Memory.wf State.reset.mem := by decide

/-! ### The commands, one or two vectors each (95_test_vectors.md) -/

/-- V-C1: NOP, STATUS 0x00000002; and from an error before. -/
theorem test_nop : nextAnd (exec .nop { State.reset with err := 0x13 }) (fun t => statusWord t == 0x00000002) = true := by
  decide

/-- V-P2: the floor case. -/
theorem test_predict_floor : nextAnd (exec .predict floorState) (fun t =>
    t.regs.predDhsb0 == 0xFFFFFFFF && t.regs.predDhsb1 == 0xFFFFFFFF && t.regs.predDhsb2 == 0x00000012 &&
    t.regs.predDhsb3 == 0xFFFFFFFD && t.regs.predDhsb4 == 0x00000002 && t.regs.predMe1 == 0xFFFFFFFF &&
    t.regs.predGuard == false) = true := by decide

/-- V-L4: the residuals of a guarded block are still computed, GUARD = 1. -/
theorem test_predict_guard : nextAnd (exec .predict (blockState ((uniform 9).set 1 255) (uniform 9) 0 0 0)) (fun t =>
    t.regs.predDhsb0 == 21 && t.regs.predMe1 == 0 && t.regs.predGuard) = true := by decide

/-- V-B1, first row. -/
theorem test_blkEmbed_uniform : nextAnd (exec .blkEmbed uniformState) (fun t =>
    t.regs.mapByte == 0x03 && t.regs.bitCursor == 5 &&
    bytesAt t.mem 0 9 == [80, 88, 80, 80, 88, 88, 80, 80, 80].map some) = true := by decide

/-- V-G1, fourth row: 247 passes and becomes 255. -/
theorem test_blkEmbed_guardEdge : nextAnd (exec .blkEmbed (blockState ((uniform 9).set 1 247) (uniform 9) 0x1F 0 0))
    (fun t => t.regs.mapByte == 0x07 && t.regs.bitCursor == 4 &&
      bytesAt t.mem 0 9 == [80, 255, 80, 88, 88, 88, 80, 88, 80].map some) = true := by decide

/-- V-P2, first row, taken back: bits 1,0 and image 1 restored. -/
theorem test_blkExtract_restores :
    nextAnd (exec .blkExtract { blockState [16, 28, 24, 30, 108, 8, 40, 41, 9] floorB 0 0 0xF0 with
        regs := { blockRegs with mapByte := 0x03, bitCursor := 3 } })
      (fun t => t.regs.bitCursor == 5 && t.mem.read? 48 == some 0xE8 && bytesAt t.mem 0 9 == floorA.map some) = true := by
  decide

/-- V-B4 (c): COUNT 7 is MAP_FIELD. -/
theorem test_blkExtract_mapField :
    nextAnd (exec .blkExtract { uniformState with regs := { blockRegs with mapByte := 0x1D } })
      (fun t => statusWord t == 0x00001502) = true := by decide

/-- V-D1: one byte into two blocks. -/
theorem test_embed_twoBlocks : nextAnd (exec .embed (planeState [0xA5] 1)) (fun t =>
    statusWord t == 0x00000002 && t.regs.mapLen == 2 && t.regs.bitCursor == 10 &&
    bytesAt t.mem 0 18 == ([80, 88, 80, 80, 88, 80, 80, 88, 80, 80, 88, 80, 80, 80, 80, 80, 80, 80] : List Byte).map some &&
    bytesAt t.mem 40 2 == [some 0x03, some 0x03]) = true := by decide

/-- V-D2: two bytes do not fit. -/
theorem test_embed_capacity : nextAnd (exec .embed (planeState [0xFF, 0xFF] 2)) (fun t =>
    statusWord t == 0x00000102 && t.regs.mapLen == 2 && t.regs.bitCursor == 10) = true := by decide

/-- V-D1, the second half: EXTRACT gives the payload, fillers and image 1 back. -/
theorem test_extract_twoBlocks :
    nextAnd (exec .embed (planeState [0xA5] 1)) (fun t => nextAnd (exec .extract t) (fun u =>
      statusWord u == 0x00000002 && u.regs.outBits == 10 && u.regs.bitCursor == 10 &&
      bytesAt u.mem 48 2 == [some 0xA5, some 0x00] && bytesAt u.mem 0 18 == (uniform 18).map some)) = true := by decide

/-- V-D1: DST_CAP 1 is OUT_CAPACITY. -/
theorem test_extract_outCapacity :
    nextAnd (exec .extract { planeState [0xA5] 1 with regs := { (planeState [0xA5] 1).regs with dstCap := 1 } })
      (fun t => statusWord t == 0x00001602) = true := by decide

/-- V-S1, rows 1, 2, 4, 5 as one SPLIT under each partition. -/
theorem test_split_modulo : nextAnd (splitCommand (splitConfig .modulo)
      { shareState [] [] 4 with mem := cells 0 [0xA5, 0x00, 0xFF, 0x07] }) (fun t =>
    bytesAt t.mem 16 4 == [some 0x3C, some 0x00, some 0x00, some 0x06] &&
    bytesAt t.mem 32 4 == [some 0x69, some 0x00, some 0xFF, some 0x01] && t.rng8Pos == 4) = true := by decide

theorem test_split_conj : splitByte .conj 0xA5 0x3C = (0x24, 0x81) ∧ splitByte .conj 0x9B 0xE6 = (0x82, 0x19) ∧
    splitByte .modulo 0x9B 0xE6 = (0x42, 0x59) ∧ splitByte .modulo 0xF8 0x37 = (0x30, 0xC8) := by decide

/-- V-S3: the sum wraps. -/
theorem test_combine_wraps : nextAnd (exec .combine (shareState [0xF0, 0x3C, 0xFF, 0x00] [0x20, 0x69, 0x01, 0x00] 4))
    (fun t => bytesAt t.mem 48 4 == [some 0x10, some 0xA5, some 0x00, some 0x00]) = true := by decide

/-- V-Q1: index permutations. -/
theorem test_permIndex : permIndex 4 (fun k => [1, 3, 4].getD k 0) = [3, 2, 0, 1] ∧
    permIndex 4 (fun _ => 0) = [1, 2, 3, 0] ∧ permIndex 2 (fun _ => 0x80000000) = [1, 0] ∧
    permIndex 2 (fun _ => 0xFFFFFFFF) = [0, 1] ∧ permIndex 1 (fun _ => 0) = [0] ∧ permIndex 0 (fun _ => 0) = [] := by
  decide

/-- V-Q2 at address 3. -/
theorem test_shuffle_chunks : nextAnd (shuffleCommand drawConfig (chunkState 32)) (fun t =>
    bytesAt t.mem 3 8 == (List.range 8).map (fun k => some (BitVec.ofNat 8 (0x28 + k))) &&
    bytesAt t.mem 11 8 == (List.range 8).map (fun k => some (BitVec.ofNat 8 (0x20 + k))) &&
    bytesAt t.mem 19 8 == (List.range 8).map (fun k => some (BitVec.ofNat 8 (0x10 + k))) &&
    bytesAt t.mem 27 8 == (List.range 8).map (fun k => some (BitVec.ofNat 8 (0x18 + k)))) = true := by decide

/-- V-Q2 taken back: chunks X3 X2 X0 X1 become X0 X1 X2 X3. -/
theorem test_unshuffle_chunks : nextAnd (unshuffleCommand drawConfig (chunkState 32)) (fun t =>
    bytesAt t.mem 27 8 == (List.range 8).map (fun k => some (BitVec.ofNat 8 (0x10 + k))) &&
    bytesAt t.mem 19 8 == (List.range 8).map (fun k => some (BitVec.ofNat 8 (0x18 + k))) &&
    bytesAt t.mem 3 8 == (List.range 8).map (fun k => some (BitVec.ofNat 8 (0x20 + k))) &&
    bytesAt t.mem 11 8 == (List.range 8).map (fun k => some (BitVec.ofNat 8 (0x28 + k)))) = true := by decide

/-- V-Q3: LEN 12 is LENGTH. -/
theorem test_shuffle_length : nextAnd (exec .shuffle { chunkState 16 with regs := { (chunkState 16).regs with len := 12 } })
    (fun t => statusWord t == 0x00001202) = true := by decide

/-- V-C4: registers as the host reads and writes them. -/
theorem test_registers : readReg State.reset .id = 0x4D494507 ∧ readReg State.reset .cmd = 0 ∧
    readReg (writeReg State.reset .mapByte 0x1FF) .mapByte = 0xFF ∧
    writeReg State.reset .outBits 0x12345678 = State.reset ∧
    readReg (writeReg State.reset .ctrl 0xFFFFFFFF) .ctrl = 0 ∧ readReg (writeReg State.reset .ctrl 1) .ctrl = 1 ∧
    regAt 0x70 = some .predDhsb4 ∧ regAt 0x74 = none := by decide

/-- V-C2: the map byte. -/
theorem test_mapByte : packMap true false 4 = 0x11 ∧ packMap true true 3 = 0x0F ∧ mapInUse 0xE1 = true ∧
    mapRdu 0xE1 = false ∧ mapCount 0xE1 = 0 ∧ mapMalformed 0x1D = true ∧ mapMalformed 0x1C = false := by decide

/-- V-C6: the interrupt line after acceptance, completion and acknowledgement. -/
theorem test_irq : irq (accept { State.reset with irqEn := true, done := true } 0) = false ∧
    nextAnd (exec .nop { State.reset with irqEn := true }) (fun t =>
      irq t && !irq (statusWrite t 0x00000002) && !irq (ctrlWrite t 0) && irq (ctrlWrite (ctrlWrite t 0) 1)) = true := by
  decide

/-- The first step after reset runs the placed command, for every row of the opcode table. -/
theorem test_withFetchWord : ∀ w ∈ [0x00, 0x01, 0x02, 0x03, 0x10, 0x11, 0x20, 0x21, 0x30, 0x31],
    nextAnd (step (State.reset.withFetchWord 32 w)) (fun t => t.done && !t.busy && t.err != 0x10) = true := by decide

/-! ### Witnesses: for each obligation with hypotheses, operands that meet them, one per clause -/

theorem test_operandsOk {i : Instr} {s : State}
    (h : ∀ e ∈ checkOrder, e ≠ .mapField → checkApplies e i = true → checkFails Config.machine i s e = .ok false) :
    operandsOk Config.machine i s.regs := operandsOk_iff.1 h

/-- A state whose next input is `x`. -/
def given (x : Input) (s : State) : State := { s with inputs := [x] }

/-- The state of V-D1 with other registers. -/
def withRegs (f : Regs → Regs) : State := { planeState [0xA5] 1 with regs := f (planeState [0xA5] 1).regs }

/-- A reset machine with an accepted word. -/
def running (c : Word) : State := { State.reset with phase := .busy c }

theorem test_witness_MapBytePacking : (0xF3#8).extractLsb' 0 5 = (packMap true true 4).extractLsb' 0 5 ∧
    (0x01#8).extractLsb' 0 5 = (packMap true false 0).extractLsb' 0 5 := by decide

theorem test_witness_StepRunsDecodedCommand : decode 0x21 = .ok .combine ∧ (running 0x21).phase = .busy 0x21 ∧
    (running 0x21).inputs = [] ∧ (given .engine (running 0x21)).inputs = .engine :: [] ∧
    (given .poll (running 0x21)).inputs = .poll :: [] := by decide

theorem test_witness_IllegalWordCompletes : State.reset.phase = .idle ∧ ∀ i, decode 0x00000032 ≠ .ok i := by
  refine ⟨rfl, fun i => ?_⟩
  rw [show decode 0x00000032 = .error .unknownOpcode by decide]
  nofun

theorem test_witness_CommandAcceptance :
    (∃ rest, (given (.access (.regWrite .word 0x08 0x10)) State.reset).inputs =
      .access (.regWrite .word 0x08 0x10) :: rest) ∧ State.reset.phase = .idle ∧ (running 0).phase ≠ .idle :=
  ⟨⟨[], rfl⟩, rfl, by decide⟩

theorem test_witness_WritesWhileBusy : (running 0).phase ≠ .idle ∧
    accessKind .len = .rw ∧ (2#32).getLsbD 1 = true ∧ (1#32).getLsbD 1 = false ∧
    (∃ rest, (given (.access (.regWrite .word (regOffset .len) 9)) (running 0)).inputs =
      .access (.regWrite .word (regOffset .len) 9) :: rest) ∧
    (∃ rest, (given (.access (.regRead .word (regOffset .len))) (running 0)).inputs =
      .access (.regRead .word (regOffset .len)) :: rest) :=
  ⟨by decide, by decide, by decide, by decide, ⟨[], rfl⟩, ⟨[], rfl⟩⟩

theorem test_witness_RegisterWriteReadBack : State.reset.phase = .idle ∧ accessKind .mapByte = .rw ∧
    accessKind .outBits = .ro ∧ (1#32).getLsbD 1 = false := by decide

/-- BUSY set by acceptance, kept, and cleared by completion and by hard reset. -/
theorem test_witness_BusyChanges :
    nextAnd (step (given (.access (.regWrite .word (regOffset .cmd) 0)) State.reset)) State.busy = true ∧
    nextAnd (step (given (.access (.regRead .word 0)) (running 0))) State.busy = true ∧
    nextAnd (step (running 0)) (fun t => !t.busy) = true ∧
    nextAnd (step (given .hardReset (running 0))) (fun t => !t.busy) = true := by decide

/-- DONE set by completion, and cleared by each of the four. -/
theorem test_witness_DoneChanges :
    nextAnd (step (running 0)) State.done = true ∧
    (∀ x ∈ [Input.access (.regWrite .word (regOffset .status) 2), .access (.regWrite .word (regOffset .cmd) 0),
      .access (.regWrite .word (regOffset .ctrl) 2), .hardReset],
      nextAnd (step (given x { State.reset with done := true })) (fun t => !t.done) = true) := by decide

/-- OVR set by each ignored write, and cleared by each of the three. -/
theorem test_witness_OverrunChanges :
    (∀ x ∈ [Input.access (.regWrite .word (regOffset .cmd) 0), .access (.regWrite .word (regOffset .ctrl) 2),
      .access (.regWrite .word (regOffset .width) 3)], nextAnd (step (given x (running 0))) State.ovr = true) ∧
    (∀ x ∈ [Input.access (.regWrite .word (regOffset .status) 4), .access (.regWrite .word (regOffset .ctrl) 2),
      .hardReset], nextAnd (step (given x { State.reset with ovr := true })) (fun t => !t.ovr) = true) := by decide

theorem test_witness_SoftReset : (2#32).getLsbD 1 = true ∧ State.reset.phase = .idle ∧ (running 0).phase ≠ .idle ∧
    ∃ rest, (given (.access (.regWrite .word 0x04 2)) State.reset).inputs = .access (.regWrite .word 0x04 2) :: rest :=
  ⟨by decide, rfl, by decide, [], rfl⟩

theorem test_witness_HardReset : ∃ rest, (given .hardReset (running 0x10)).inputs = .hardReset :: rest := ⟨[], rfl⟩

/-- Each command completes with OK somewhere. -/
theorem test_witness_CompletionFrame :
    (∀ i ∈ [Instr.nop, .predict, .blkEmbed, .blkExtract, .extract],
      nextAnd (exec i uniformState) (fun t => t.err == 0) = true) ∧
    nextAnd (exec .embed (planeState [0xA5] 1)) (fun t => t.err == 0) = true ∧
    nextAnd (exec .split (shareState [] [] 4)) (fun t => t.err == 0) = true ∧
    nextAnd (exec .combine (shareState [1] [2] 1)) (fun t => t.err == 0) = true ∧
    (∀ i ∈ [Instr.shuffle, .unshuffle], nextAnd (exec i (chunkState 8)) (fun t => t.err == 0) = true) := by decide

/-- The same states for the register frame, one per command of its match. -/
theorem test_witness_RegistersWrittenByCommands (i : Instr) : ∃ s t, exec i s = .next t := by
  have h := test_witness_CompletionFrame
  have key : ∀ s, nextAnd (exec i s) (fun t => t.err == 0) = true → ∃ s t, exec i s = .next t := fun s hs =>
    let ⟨t, ht, _⟩ := test_of_nextAnd hs; ⟨s, t, ht⟩
  cases i with
  | split => exact key _ h.2.2.1
  | combine => exact key _ h.2.2.2.1
  | shuffle => exact key _ (h.2.2.2.2 _ (by simp))
  | unshuffle => exact key _ (h.2.2.2.2 _ (by simp))
  | nop => exact key _ (h.1 _ (by simp))
  | predict => exact key _ (h.1 _ (by simp))
  | blkEmbed => exact key _ (h.1 _ (by simp))
  | blkExtract => exact key _ (h.1 _ (by simp))
  | embed => exact key _ h.2.1
  | extract => exact key _ (h.1 _ (by simp))

/-- Each code a check can report, by some command (V-C3). -/
theorem test_witness_FailedCheckHasNoEffect :
    nextAnd (exec .predict (withRegs fun r => { r with width := 4 })) (fun t => t.err == 0x11) = true ∧
    nextAnd (exec .extract (withRegs fun r => { r with mapLen := 3 })) (fun t => t.err == 0x02) = true ∧
    nextAnd (exec .shuffle (withRegs fun r => { r with len := 12 })) (fun t => t.err == 0x12) = true ∧
    nextAnd (exec .extract (withRegs fun r => { r with dstCap := 1 })) (fun t => t.err == 0x16) = true ∧
    nextAnd (exec .embed (withRegs fun r => { r with p2Base := 17 })) (fun t => t.err == 0x14) = true ∧
    nextAnd (exec .blkExtract (withRegs fun r => { r with mapByte := 0x15 })) (fun t => t.err == 0x15) = true := by
  decide

/-- The codes that arise during execution: CAPACITY_EXCEEDED alone. -/
theorem test_witness_ErrorsDuringExecution :
    ∃ t, exec .embed (planeState [0xFF, 0xFF] 2) = .next t ∧ t.err = 0x01 := by
  obtain ⟨t, ht, h⟩ := test_of_nextAnd (p := fun t => t.err == 0x01)
    (show nextAnd (exec .embed (planeState [0xFF, 0xFF] 2)) (fun t => t.err == 0x01) = true by decide)
  exact ⟨t, ht, by simpa using h⟩

/-- V-B5 and R230: a width that is no multiple of 3, and a block one column past the plane. -/
theorem test_witness_GeometryErrors :
    ¬ planeGeometry { blockRegs with width := 4 } ∧
    (planeGeometry { blockRegs with blkX := 1 } ∧ ¬ blockGeometry { blockRegs with blkX := 1 }) ∧
    blockGeometry { blockRegs with width := 6, blkX := 3 } := by
  unfold blockGeometry planeGeometry; decide

/-- One past the bound of each clause, and the bound itself passes. -/
theorem test_witness_LengthAndCapacityErrors :
    (planeGeometry blockRegs ∧ (blockRegs.width.toNat / 3) * (blockRegs.height.toNat / 3) < (2#32).toNat) ∧
    (1#32).toNat ≤ (blockRegs.width.toNat / 3) * (blockRegs.height.toNat / 3) ∧ (0#32).toNat < (5 * (1#32).toNat + 7) / 8 ∧
    (blockGeometry blockRegs ∧ 8 * blockRegs.dstCap.toNat < (4#32).toNat + 5) ∧
    ¬ 8 * blockRegs.dstCap.toNat < (3#32).toNat + 5 ∧ (7#32).toNat % 8 ≠ 0 := by
  unfold blockGeometry planeGeometry; decide

/-- A region that ends past the largest BUF, and a cursor one past its room (V-B5). -/
theorem test_witness_RangeErrors :
    (earlyChecksPass .shuffle { Regs.reset with len := 8, p1Base := 0xFFFFFFF9 } ∧
      ¬ regionsInRange Config.machine .shuffle { Regs.reset with len := 8, p1Base := 0xFFFFFFF9 }) ∧
    (earlyChecksPass .blkEmbed { blockRegs with bitCursor := 0xFFFFFFFB } ∧
      ¬ cursorFits .blkEmbed { blockRegs with bitCursor := 0xFFFFFFFB }) ∧
    cursorFits .blkEmbed { blockRegs with bitCursor := 0xFFFFFFFA } := by
  refine ⟨⟨by unfold earlyChecksPass; decide, fun h => ?_⟩, ⟨?_, ?_⟩, ?_⟩
  · have h1 := h _ (List.mem_singleton.2 rfl)
    have h2 := bufBytes_bounds
    simp at h1
    omega
  · unfold earlyChecksPass blockGeometry planeGeometry; decide
  · unfold cursorFits; decide
  · unfold cursorFits; decide

/-- Image 2 shares the last byte of image 1. -/
theorem test_witness_OverlapErrors :
    let s := withRegs fun r => { r with p2Base := 17 }
    earlyChecksPass .embed s.regs ∧ cursorFits .embed s.regs ∧ regionsInRange Config.machine .embed s.regs ∧
      ¬ regionsApart .embed s.regs := by
  refine ⟨by unfold earlyChecksPass planeGeometry; decide, trivial, ?_, ?_⟩
  · exact regionsInRange_of_rangeFails (by decide)
  · rw [← regionsApart_iff]; decide

theorem test_witness_MapFieldErrors :
    (operandsOk Config.machine .blkExtract { blockRegs with mapByte := 0x15 } ∧ (0x15#8).getLsbD 0 = true ∧
      4 < ((0x15#8).extractLsb' 2 3).toNat) ∧
    (let s := blockState (uniform 9) (uniform 9) 0 0x15 0
     operandsOk Config.machine .extract s.regs ∧ s.mem.written s.regs.mapBase.toNat s.regs.mapLen.toNat ∧
      ∃ k v, k < s.regs.mapLen.toNat ∧ s.mem.read? (s.regs.mapBase.toNat + k) = some v ∧
        v.getLsbD 0 = true ∧ 4 < (v.extractLsb' 2 3).toNat) := by
  refine ⟨⟨test_operandsOk (s := { uniformState with regs := { blockRegs with mapByte := 0x15 } }) (by decide),
    by decide, by decide⟩, test_operandsOk (by decide), ?_, 0, 0x15, by decide⟩
  unfold Memory.written; decide

/-- The last word of the smallest BUF. -/
theorem test_witness_HostBufLittleEndian : State.reset.phase = .idle ∧ 60 % Width.word.bytes = 0 ∧
    60 + Width.word.bytes ≤ Config.machine.bufBytes ∧ 63 + Width.byte.bytes ≤ Config.machine.bufBytes ∧
    (∃ rest, (given (.access (.bufWrite .word 60 5)) State.reset).inputs = .access (.bufWrite .word 60 5) :: rest) ∧
    ∃ rest, (given (.access (.bufRead .word 60)) State.reset).inputs = .access (.bufRead .word 60) :: rest :=
  ⟨rfl, by decide, by decide, by decide, ⟨[], rfl⟩, ⟨[], rfl⟩⟩

/-- Misaligned, past every BUF, and legal while BUSY = 1. -/
theorem test_witness_HostBufErrors :
    ¬ (61 % Width.word.bytes = 0 ∧ 61 + Width.word.bytes ≤ Config.machine.bufBytes) ∧
    ¬ (2 ^ 32 % Width.byte.bytes = 0 ∧ 2 ^ 32 + Width.byte.bytes ≤ Config.machine.bufBytes) ∧
    ((running 0).phase ≠ .idle ∧ 60 % Width.word.bytes = 0 ∧ 60 + Width.word.bytes ≤ Config.machine.bufBytes) := by
  refine ⟨by decide, fun h => ?_, by decide⟩
  have h1 := bufBytes_bounds
  have h2 := h.2
  simp only [Width.bytes] at h2
  omega

/-- A narrow access, a misaligned one, the first reserved offset and the last register. -/
theorem test_witness_RegisterWindowAccess :
    ¬ (Width.half = .word ∧ (0x74#8).toNat % 4 = 0) ∧ ¬ (Width.word = .word ∧ (0x0E#8).toNat % 4 = 0) ∧
    ((0x74#8).toNat % 4 = 0 ∧ 0x74 ≤ (0x74#8).toNat) ∧ 0x70#8 = regOffset .predDhsb4 ∧
    (∃ rest, (given (.access (.regRead .word 0x74)) State.reset).inputs = .access (.regRead .word 0x74) :: rest) ∧
    ∃ rest, (given (.access (.regWrite .word 0x70 5)) State.reset).inputs = .access (.regWrite .word 0x70 5) :: rest :=
  ⟨by decide, by decide, by decide, by decide, ⟨[], rfl⟩, [], rfl⟩

/-- COMBINE with the second share unwritten. -/
theorem test_witness_CombineUnwrittenShareFaults :
    let s := shareState [1] [] 1
    operandsOk Config.machine .combine s.regs ∧
      ¬ (s.mem.written s.regs.p1Base.toNat s.regs.len.toNat ∧ s.mem.written s.regs.p2Base.toNat s.regs.len.toNat) := by
  refine ⟨test_operandsOk (by decide), fun h => absurd (h.2 0 (by decide)) (by decide)⟩

theorem test_witness_OnlyUnwrittenReadsFault : exec .combine (shareState [1] [] 1) = .fault (.unwrittenRead 32) := by
  rfl

theorem test_witness_StoresOnlyInWrittenRegions :
    (∃ t, exec .embed (planeState [0xA5] 1) = .next t) ∧ ¬ inWritten .embed (planeState [0xA5] 1).regs 18 := by
  refine ⟨?_, by unfold inWritten inSpan; decide⟩
  obtain ⟨t, ht, -⟩ := test_of_nextAnd test_embed_twoBlocks
  exact ⟨t, ht⟩

/-- Each of the four commands goes on; address 0 is a corner of the block, and not an output byte. -/
theorem test_witness_BlockCommandFrames :
    (∀ i ∈ [Instr.nop, .predict, .blkEmbed, .blkExtract], ∃ t, exec i uniformState = .next t) ∧
    (∀ i, 0 ≠ sampleAddr 0 3 0 0 (epPos i)) ∧ ∀ j, 0 ≠ 48 + j / 8 := by
  refine ⟨fun i hi => ?_, by decide, fun j => by omega⟩
  obtain ⟨t, ht, -⟩ := test_of_nextAnd (test_witness_CompletionFrame.1 i (by
    simp only [List.mem_cons, List.not_mem_nil, or_false] at hi ⊢
    rcases hi with rfl | rfl | rfl | rfl <;> simp))
  exact ⟨t, ht⟩

/-- The nine samples of a block given as a list. -/
def samples (l : List Byte) : Fin 9 → Byte := fun p => l.getD p.val 0

theorem test_witness_PredictResult : operandsOk Config.machine .predict floorState.regs ∧
    holdsBlock floorState.mem 0 3 0 0 (samples floorA) ∧ holdsBlock floorState.mem 16 3 0 0 (samples floorB) :=
  ⟨test_operandsOk (by decide), by unfold holdsBlock; decide, by unfold holdsBlock; decide⟩

/-- V-B3: the bounds of the residual range are reached. -/
theorem test_witness_ResidualRange : (3 : Fin 5) ≠ 2 ∧
    dHsb (samples [0, 255, 0, 255, 255, 255, 0, 255, 0]) (samples [0, 255, 0, 255, 255, 255, 0, 255, 0]) 2 = 62 ∧
    dHsb (samples [255, 0, 255, 0, 0, 0, 255, 0, 255]) (samples [255, 0, 255, 0, 0, 0, 255, 0, 255]) 2 = -62 := by
  decide

/-- The last sample that may move up, and the first that may move down. -/
theorem test_witness_ShiftProperty : (samples [0, 247] (epPos 0)).toNat ≤ 247 ∧ 8 ≤ (samples [0, 8] (epPos 0)).toNat ∧
    (1 : Fin 5) ≠ 0 := by decide

theorem test_witness_HistogramGivesPeak : ∀ i, -62 ≤ (![62, -62, 0, 62, -62] : Fin 5 → Int) i ∧
    (![62, -62, 0, 62, -62] : Fin 5 → Int) i ≤ 62 := by decide

/-- V-L4 on image 1, V-G1 on image 2, and extraction with INUSE = 0. -/
theorem test_witness_RejectedBlockUnchanged :
    (∀ s ∈ [blockState ((uniform 9).set 1 255) (uniform 9) 0x1F 0 0, blockState (uniform 9) ((uniform 9).set 1 248) 0x1F 0 0],
      operandsOk Config.machine .blkEmbed s.regs ∧ ∃ a b : Fin 9 → Byte,
        (∀ i, s.mem.read? (sampleAddr 0 3 0 0 (epPos i)) = some (a (epPos i))) ∧
        (∀ i, s.mem.read? (sampleAddr 16 3 0 0 (epPos i)) = some (b (epPos i))) ∧
        ∃ i, 247 < (a (epPos i)).toNat ∨ 247 < (b (epPos i)).toNat) ∧
    (operandsOk Config.machine .blkExtract { blockRegs with mapByte := 0xFE } ∧ (0xFE#8).getLsbD 0 = false) := by
  refine ⟨fun s hs => ?_, test_operandsOk (s := { uniformState with regs := { blockRegs with mapByte := 0xFE } })
    (by decide), by decide⟩
  simp only [List.mem_cons, List.not_mem_nil, or_false] at hs
  rcases hs with rfl | rfl
  · exact ⟨test_operandsOk (by decide), samples ((uniform 9).set 1 255), samples (uniform 9), by decide⟩
  · exact ⟨test_operandsOk (by decide), samples (uniform 9), samples ((uniform 9).set 1 248), by decide⟩

/-- V-P2: two peaks, the payload ending after the first, so that both clauses of `payloadIs` are met. -/
theorem test_witness_BlkEmbedResult :
    let s := { floorState with regs := { blockRegs with bitTotal := 1 } }
    operandsOk Config.machine .blkEmbed s.regs ∧
    holdsBlock s.mem 0 3 0 0 (samples floorA) ∧ holdsBlock s.mem 16 3 0 0 (samples floorB) ∧
    (∀ i, (samples floorA (epPos i)).toNat ≤ 247 ∧ (samples floorB (epPos i)).toNat ≤ 247) ∧
    payloadIs s.mem 32 1 0 (0 + residualCount (dHsb (samples floorA) (samples floorB))
      (peak (dHsb (samples floorA) (samples floorB)))) (fun j => j == 0) := by
  refine ⟨test_operandsOk (by decide), by unfold holdsBlock; decide, by unfold holdsBlock; decide, by decide, ?_⟩
  intro j _ hj
  have h2 : residualCount (dHsb (samples floorA) (samples floorB))
    (peak (dHsb (samples floorA) (samples floorB))) = 2 := by decide
  rw [h2] at hj
  refine ⟨fun h => ?_, fun h => by simp; omega⟩
  obtain rfl : j = 0 := by omega
  exact ⟨0x01, by decide⟩

/-- V-P2, first row, from the block it left. -/
theorem test_witness_BlkExtractResult :
    let s := { blockState [16, 28, 24, 30, 108, 8, 40, 41, 9] floorB 0 0 0xF0 with
      regs := { blockRegs with mapByte := 0x03, bitCursor := 3 } }
    operandsOk Config.machine .blkExtract s.regs ∧
    holdsBlock s.mem 0 3 0 0 (samples [16, 28, 24, 30, 108, 8, 40, 41, 9]) ∧ holdsBlock s.mem 16 3 0 0 (samples floorB) ∧
    s.regs.mapByte.getLsbD 0 = true ∧ (s.regs.mapByte.extractLsb' 2 3).toNat = (0 : Fin 5).val ∧
    (∀ j, 3 ≤ j → j < 5 → (s.mem.read? (48 + j / 8)).isSome) := by
  refine ⟨test_operandsOk (by decide), by unfold holdsBlock; decide, by unfold holdsBlock; decide, by decide, by decide, ?_⟩
  intro j h3 h5
  interval_cases j <;> decide

/-- V-B1: both halves of the round trip complete with OK. -/
theorem test_witness_BlockRoundTrip : ∃ t u, exec .blkEmbed uniformState = .next t ∧ t.err = 0x00 ∧
    exec .blkExtract { t with regs := { t.regs with bitCursor := uniformState.regs.bitCursor, dstBase := 48, dstCap := 1 } }
      = .next u ∧ u.err = 0x00 := by
  obtain ⟨t, ht, h⟩ := test_of_nextAnd (p := fun t => t.err == 0 && nextAnd (exec .blkExtract { t with
    regs := { t.regs with bitCursor := uniformState.regs.bitCursor, dstBase := 48, dstCap := 1 } }) (fun u => u.err == 0))
    (show nextAnd (exec .blkEmbed uniformState) _ = true by decide)
  rw [Bool.and_eq_true] at h
  obtain ⟨u, hu, h'⟩ := test_of_nextAnd h.2
  exact ⟨t, u, ht, by simpa using h.1, hu, by simpa using h'⟩

/-- Two blocks with payload 0xA5, of which the guard accepts both (V-D1) or rejects the first for its EP0. -/
theorem test_witness_EmbedResult : ∀ x ∈ [(planeState [0xA5] 1, (80 : Byte), false), (guardState, 255, true)],
    operandsOk Config.machine .embed x.1.regs ∧
    guardHolds .both (samples [80, x.2.1, 80, 80, 80, 80, 80, 80, 80]) (fun _ => 80) = x.2.2 ∧
    (∀ k, k < 2 * 1 →
      holdsBlock x.1.mem 0 6 (3 * (k / 1)) (3 * (k % 1)) (if k = 0 then samples [80, x.2.1, 80, 80, 80, 80, 80, 80, 80]
        else fun _ => 80) ∧
      holdsBlock x.1.mem 18 6 (3 * (k / 1)) (3 * (k % 1)) (fun _ => 80)) ∧
    payloadIs x.1.mem 36 8 0 (8 + 4) (fun j => (0xA5#8).getLsbD j) := by
  intro x hx
  simp only [List.mem_cons, List.not_mem_nil, or_false] at hx
  rcases hx with rfl | rfl <;>
    refine ⟨test_operandsOk (by decide), by decide, by unfold holdsBlock; decide, fun j _ hj => ⟨fun hj => ⟨0xA5, ?_, ?_⟩,
      fun hj => BitVec.getLsbD_of_ge _ _ hj⟩⟩ <;> interval_cases j <;> decide

/-- Address 18, the first byte of image 2, is neither an EP of image 1 nor a map byte. -/
theorem test_witness_EmbedFrame : ∃ t, exec .embed (planeState [0xA5] 1) = .next t ∧ t.regs.mapLen = 2 ∧
    (∀ k i, k < t.regs.mapLen.toNat → 18 ≠ sampleAddr 0 6 (3 * (k / 1)) (3 * (k % 1)) (epPos i)) ∧
    ¬ inSpan 40 t.regs.mapLen.toNat 18 := by
  obtain ⟨t, ht, h⟩ := test_of_nextAnd test_embed_twoBlocks
  have hm : t.regs.mapLen = 2 := by simp only [Bool.and_eq_true, beq_iff_eq] at h; exact h.1.1.1.2
  refine ⟨t, ht, hm, fun k i hk => ?_, by unfold inSpan; omega⟩
  rw [hm] at hk
  have : k < 2 := hk
  interval_cases k <;> revert i <;> decide

/-- V-D1 fits (8 ≤ 10) and V-D2 does not (10 < 16). -/
theorem test_witness_EmbedCapacity : ∀ s ∈ [planeState [0xA5] 1, planeState [0xFF, 0xFF] 2],
    operandsOk Config.machine .embed s.regs ∧ s.mem.written 36 s.regs.len.toNat ∧ ∀ k, k < 2 * 1 →
      holdsBlock s.mem 0 6 (3 * (k / 1)) (3 * (k % 1)) (fun _ => 80) ∧
      holdsBlock s.mem 18 6 (3 * (k / 1)) (3 * (k % 1)) (fun _ => 80) := by
  intro s hs
  simp only [List.mem_cons, List.not_mem_nil, or_false] at hs
  rcases hs with rfl | rfl <;> refine ⟨test_operandsOk (by decide), ?_⟩ <;> unfold Memory.written holdsBlock <;> decide

/-- The map of V-D1, and one whose second byte has INUSE = 0. -/
theorem test_witness_ExtractResult : ∀ x ∈ [(planeState [0xA5] 1, (0x03 : Byte)), (guardState, 0x00)],
    operandsOk Config.machine .extract x.1.regs ∧ ∀ k, k < x.1.regs.mapLen.toNat →
      x.1.mem.read? (40 + k) = some (if k = 0 then 0x03 else x.2) ∧
      ((0x03#8).extractLsb' 2 3).toNat = (0 : Fin 5).val ∧
      holdsBlock x.1.mem 0 6 (3 * (k / 1)) (3 * (k % 1))
        (fun p => (x.1.mem.read? (3 * (k / 1) + p.val / 3 * 6 + p.val % 3)).getD 0) ∧
      holdsBlock x.1.mem 18 6 (3 * (k / 1)) (3 * (k % 1)) (fun _ => 80) := by
  intro x hx
  simp only [List.mem_cons, List.not_mem_nil, or_false] at hx
  rcases hx with rfl | rfl <;> refine ⟨test_operandsOk (by decide), ?_⟩ <;> unfold holdsBlock <;> decide

theorem test_witness_ExtractFrame : (∃ t, exec .extract uniformState = .next t) ∧
    (∀ k i, k < uniformState.regs.mapLen.toNat → 49 ≠ sampleAddr 0 3 (3 * (k / 1)) (3 * (k % 1)) (epPos i)) ∧
    ¬ inSpan 48 ((5 * uniformState.regs.mapLen.toNat + 7) / 8) 49 := by
  refine ⟨?_, fun k i hk => ?_, by unfold inSpan; decide⟩
  · obtain ⟨t, ht, -⟩ := test_of_nextAnd (test_witness_CompletionFrame.1 .extract (by simp))
    exact ⟨t, ht⟩
  · have : k < 1 := hk
    interval_cases k
    revert i; decide

/-- V-D1 with OK and V-D2 with CAPACITY_EXCEEDED, each with its EXTRACT. -/
theorem test_witness_PlaneRoundTrip : ∀ x ∈ [(planeState [0xA5] 1, 0x00#8), (planeState [0xFF, 0xFF] 2, 0x01#8)],
    ∃ t u, exec .embed x.1 = .next t ∧ t.err = x.2 ∧
      exec .extract { t with regs := { t.regs with dstBase := 50, dstCap := 2 } } = .next u ∧ u.err = 0x00 := by
  intro x hx
  have key : nextAnd (exec .embed x.1) (fun t => t.err == x.2 && nextAnd (exec .extract { t with
      regs := { t.regs with dstBase := 50, dstCap := 2 } }) (fun u => u.err == 0)) = true := by
    simp only [List.mem_cons, List.not_mem_nil, or_false] at hx
    rcases hx with rfl | rfl <;> decide
  obtain ⟨t, ht, h⟩ := test_of_nextAnd key
  rw [Bool.and_eq_true] at h
  obtain ⟨u, hu, h'⟩ := test_of_nextAnd h.2
  exact ⟨t, u, ht, by simpa using h.1, hu, by simpa using h'⟩

theorem test_witness_SplitResult :
    let s := shareState [] [] 8
    operandsOk Config.machine .split s.regs ∧ s.mem.written 0 8 ∧ s.mem.read? 0 = some 80 ∧
    ¬ inSpan 16 8 0 ∧ ¬ inSpan 32 8 0 := by
  refine ⟨test_operandsOk (by decide), ?_⟩
  unfold Memory.written inSpan; decide

theorem test_witness_CombineResult :
    let s := shareState [0xF0, 1] [0x20, 2] 2
    operandsOk Config.machine .combine s.regs ∧ s.mem.written 16 2 ∧ s.mem.written 32 2 ∧ ¬ inSpan 48 2 16 := by
  refine ⟨test_operandsOk (by decide), ?_⟩
  unfold Memory.written inSpan; decide

/-- SPLIT of eight bytes and COMBINE of its shares, with the machine's own draws. -/
theorem test_witness_ShareReversibility : ∃ t u, splitCommand Config.machine (shareState [] [] 8) = .next t ∧ t.err = 0x00 ∧
    combineCommand Config.machine { t with regs := { t.regs with dstBase := 48 } } = .next u ∧ u.err = 0x00 := by
  obtain ⟨t, ht, h⟩ := test_of_nextAnd (p := fun t => t.err == 0 && nextAnd (combineCommand Config.machine { t with
    regs := { t.regs with dstBase := 48 } }) (fun u => u.err == 0))
    (show nextAnd (splitCommand Config.machine (shareState [] [] 8)) _ = true by decide)
  rw [Bool.and_eq_true] at h
  obtain ⟨u, hu, h'⟩ := test_of_nextAnd h.2
  exact ⟨t, u, ht, by simpa using h.1, hu, by simpa using h'⟩

theorem test_witness_PermIsPermutation : ∀ k, k < 4 - 1 →
    ([1, 3, 4, 9] : List Word).getD k 0 = ([1, 3, 4] : List Word).getD k 0 := by decide

/-- Four chunks, with the machine's own draws. -/
theorem test_witness_ShuffleResult :
    operandsOk Config.machine .shuffle (chunkState 32).regs ∧ operandsOk Config.machine .unshuffle (chunkState 32).regs ∧
    (chunkState 32).mem.written 3 32 := by
  refine ⟨test_operandsOk (by decide), test_operandsOk (by decide), ?_⟩
  unfold Memory.written; decide

theorem test_witness_UnshuffleResult : ∃ c j : Nat, (permIndex (32 / 8) (drawConfig.prng32 0))[c]? = some j :=
  ⟨0, 3, by decide⟩

theorem test_witness_PermutationReversibility :
    (∃ t, shuffleCommand drawConfig (chunkState 32) = .next t ∧ t.err = 0x00) ∧
    ∃ t, unshuffleCommand drawConfig (chunkState 32) = .next t ∧ t.err = 0x00 := by
  constructor
  · obtain ⟨t, ht, h⟩ := test_of_nextAnd (p := fun t => t.err == 0)
      (show nextAnd (shuffleCommand drawConfig (chunkState 32)) _ = true by decide)
    exact ⟨t, ht, by simpa using h⟩
  · obtain ⟨t, ht, h⟩ := test_of_nextAnd (p := fun t => t.err == 0)
      (show nextAnd (unshuffleCommand drawConfig (chunkState 32)) _ = true by decide)
    exact ⟨t, ht, by simpa using h⟩

/-- NOP written to CMD while BUSY sets OVR and nothing else. -/
theorem test_witness_NopResult : (running 0x10).phase ≠ .idle ∧
    writeReg (running 0x10) .cmd 0 = { running 0x10 with ovr := true } := by decide

theorem test_witness_ScriptStatements : State.reset.phase = .idle ∧
    (∃ rest, { State.reset with inputs := scriptInputs (stmtSetKey 7) }.inputs = scriptInputs (stmtSetKey 7) ++ rest) ∧
    (∃ rest, { State.reset with inputs := scriptInputs (stmtRun .nop) }.inputs = scriptInputs (stmtRun .nop) ++ rest) ∧
    ∃ u, exec .nop (given .poll (running 0)) = .next u := by
  refine ⟨rfl, ⟨[], by simp⟩, ⟨[], by simp⟩, ?_⟩
  obtain ⟨u, hu, -⟩ := test_of_nextAnd (p := fun _ => true)
    (show nextAnd (exec .nop (given .poll (running 0))) _ = true by decide)
  exact ⟨u, hu⟩

theorem test_running_next : nextAnd (step (running 0x21)) (fun t => t.done) = true := by decide

/-- A busy state that meets the invariant and takes a step. -/
theorem test_witness_StepKeepsInvariant : (running 0x21).Inv Config.machine ∧ ∃ t, step (running 0x21) = .next t := by
  constructor
  · constructor
    · exact List.Pairwise.nil
    · exact fun x hx => absurd hx List.not_mem_nil
    · unfold isErrCode; decide
    · exact fun _ => ⟨rfl, rfl⟩
  · obtain ⟨t, ht, -⟩ := test_of_nextAnd test_running_next
    exact ⟨t, ht⟩

/-- The bounds of the range are met: 62 and −62. -/
theorem test_witness_StepKeepsPredRange :
    predInRange { Regs.reset with predMe1 := 0x3E, predDhsb0 := 0xFFFFFFC2 } ∧
    ¬ predInRange { Regs.reset with predMe1 := 0x3F } := by
  refine ⟨fun w hw => ?_, fun h => absurd (h 0x3F (by simp)) (by decide)⟩
  simp [Regs.reset] at hw
  rcases hw with rfl | rfl | rfl <;> decide

end Sys2Proof.Tests
end

section
/-! The range of a residual and of the peak (40_block_codec.md R133, R134, R136, R138). -/

namespace Sys2Proof.Machine

theorem hsb_bounds (v : Byte) : 0 ≤ hsb v ∧ hsb v ≤ 31 := by
  have := v.isLt
  simp only [hsb, BitVec.toNat_ushiftRight, Nat.shiftRight_eq_div_pow]
  omega

theorem epNeighbours_length_pos (i : Fin 5) : 0 < (epNeighbours i).length := by
  revert i; decide

theorem residualSum_bounds (a b : Fin 9 → Byte) (i : Fin 5) :
    -(62 * ((epNeighbours i).length : Int)) ≤ residualSum a b i ∧
      residualSum a b i ≤ 62 * ((epNeighbours i).length : Int) := by
  have hpair : ∀ p, 0 ≤ hsb (a p) + hsb (b p) ∧ hsb (a p) + hsb (b p) ≤ 62 := fun p => by
    have := hsb_bounds (a p)
    have := hsb_bounds (b p)
    omega
  have hlow : 0 ≤ ((epNeighbours i).map fun p => hsb (a p) + hsb (b p)).sum :=
    List.sum_nonneg (List.forall_mem_map.2 fun p _ => (hpair p).1)
  have hhigh := List.sum_le_card_nsmul ((epNeighbours i).map fun p => hsb (a p) + hsb (b p)) 62
    (List.forall_mem_map.2 fun p _ => (hpair p).2)
  simp only [List.length_map, nsmul_eq_mul] at hhigh
  obtain ⟨h0, h62⟩ := hpair (epPos i)
  unfold residualSum
  constructor <;> nlinarith

theorem dHsb_bounds (a b : Fin 9 → Byte) (i : Fin 5) : -62 ≤ dHsb a b i ∧ dHsb a b i ≤ 62 := by
  obtain ⟨hlow, hhigh⟩ := residualSum_bounds a b i
  have hk : (0 : Int) < (epNeighbours i).length := by exact_mod_cast epNeighbours_length_pos i
  exact ⟨(Int.le_ediv_iff_mul_le hk).2 (by linarith), Int.ediv_le_of_le_mul hk hhigh⟩

theorem peak_dHsb_bounds (a b : Fin 9 → Byte) : -62 ≤ peak (dHsb a b) ∧ peak (dHsb a b) ≤ 62 := by
  obtain ⟨i, hi⟩ := peak_mem (dHsb a b)
  exact hi ▸ dHsb_bounds a b i

theorem signedWord_toInt {x : Int} (h : -62 ≤ x ∧ x ≤ 62) : (signedWord x).toInt = x :=
  BitVec.toInt_ofInt_eq_self (by decide) (by omega) (by omega)

end Sys2Proof.Machine
end

section
/-! What each command's pseudocode can do to the state, said once per command, and what `exec` can do (30_encoding.md R104,
60_exceptions.md R234-R236). -/

namespace Sys2Proof.Machine

variable {P : Config} {i : Instr} {s s' t : State} {e : ErrCode}

/-- `s'` comes from `s` by the pseudocode of command `i`: it may write registers, the written regions of BUF and, for
SPLIT, the draw counter, and nothing else; residuals stay in their range. -/
structure CommandEffect (P : Config) (i : Instr) (s s' : State) : Prop where
  frame  : s' = { s with regs := s'.regs, mem := s'.mem, rng8Pos := s'.rng8Pos }
  draws  : i ≠ .split → s'.rng8Pos = s.rng8Pos
  stores : Kept P (inWritten i s.regs) s.mem s'.mem
  pred   : predInRange s.regs → predInRange s'.regs

theorem CommandEffect.refl (P : Config) (i : Instr) (s : State) : CommandEffect P i s s :=
  ⟨rfl, fun _ => rfl, Kept.refl _ _ _, id⟩

/-- A pseudocode that only stores to BUF. -/
theorem CommandEffect.of_stores {m : Memory} (h : Kept P (inWritten i s.regs) s.mem m) :
    CommandEffect P i s { s with mem := m } := ⟨rfl, fun _ => rfl, h, id⟩

/-- A command that goes on has completed, its pseudocode run with all checks passed or not run at all (R234, R236). -/
theorem runCommand_effect {body : Except Fault (State × ErrCode)} (h : runCommand P i s body = .next t)
    (hbody : operandsOk P i s.regs → ∀ s' e, body = .ok (s', e) → CommandEffect P i s s') :
    ∃ s' e, t = complete s' e ∧ CommandEffect P i s s' := by
  obtain ⟨e, -, rfl⟩ | ⟨hchecks, s', e, hrun, rfl⟩ := runCommand_next_iff.1 h
  · exact ⟨s, e, rfl, .refl P i s⟩
  · exact ⟨s', e, rfl, hbody (firstError_none_iff_operandsOk.1 hchecks).1 s' e hrun⟩

theorem predictCommand_effect (h : predictCommand P s = .next t) :
    ∃ s' e, t = complete s' e ∧ CommandEffect P .predict s s' := by
  refine runCommand_effect h fun _ s' e hrun => ?_
  obtain ⟨a, -, hrun⟩ := bind_ok_iff.1 hrun
  obtain ⟨b, -, hrun⟩ := bind_ok_iff.1 hrun
  cases hrun
  refine ⟨rfl, fun _ => rfl, Kept.refl _ _ _, fun _ => ?_⟩
  simp [predInRange, signedWord_toInt, dHsb_bounds, peak_dHsb_bounds]

theorem blkEmbedCommand_effect (h : blkEmbedCommand P s = .next t) :
    ∃ s' e, t = complete s' e ∧ CommandEffect P .blkEmbed s s' := by
  refine runCommand_effect h fun hops s' e hrun => ?_
  obtain ⟨⟨m, info, cursor⟩, hblock, hrun⟩ := bind_ok_iff.1 hrun
  cases hrun
  exact ⟨rfl, fun _ => rfl, (blkEmbed_inRegions hops.1).kept hblock, id⟩

theorem blkExtractCommand_effect (h : blkExtractCommand P s = .next t) :
    ∃ s' e, t = complete s' e ∧ CommandEffect P .blkExtract s s' := by
  refine runCommand_effect h fun hops s' e hrun => ?_
  obtain ⟨⟨m, cursor⟩, hblock, hrun⟩ := bind_ok_iff.1 hrun
  cases hrun
  exact ⟨rfl, fun _ => rfl, (blkExtract_inRegions hops.1).kept hblock, id⟩

theorem embedCommand_effect (h : embedCommand P s = .next t) :
    ∃ s' e, t = complete s' e ∧ CommandEffect P .embed s s' := by
  refine runCommand_effect h fun hops s' e hrun => ?_
  obtain ⟨⟨m, k, cursor⟩, hloop, hrun⟩ := bind_ok_iff.1 hrun
  cases hrun
  exact ⟨rfl, fun _ => rfl, (embed_inRegions hops.1).kept hloop, id⟩

theorem extractCommand_effect (h : extractCommand P s = .next t) :
    ∃ s' e, t = complete s' e ∧ CommandEffect P .extract s s' := by
  refine runCommand_effect h fun hops s' e hrun => ?_
  obtain ⟨m0, hzero, hrun⟩ := bind_ok_iff.1 hrun
  obtain ⟨⟨m, k, cursor⟩, hloop, hrun⟩ := bind_ok_iff.1 hrun
  cases hrun
  have hz := (zeroFill_inRegions hops.1.2.2).kept hzero
  exact ⟨rfl, fun _ => rfl, hz.trans ((extract_inRegions hops.1).kept hloop), id⟩

theorem splitCommand_effect (h : splitCommand P s = .next t) :
    ∃ s' e, t = complete s' e ∧ CommandEffect P .split s s' := by
  refine runCommand_effect h fun _ s' e hrun => ?_
  obtain ⟨m, hloop, hrun⟩ := bind_ok_iff.1 hrun
  cases hrun
  exact ⟨rfl, fun hne => absurd rfl hne, split_inRegions.kept hloop, id⟩

theorem combineCommand_effect (h : combineCommand P s = .next t) :
    ∃ s' e, t = complete s' e ∧ CommandEffect P .combine s s' := by
  refine runCommand_effect h fun _ s' e hrun => ?_
  obtain ⟨m, hloop, hrun⟩ := bind_ok_iff.1 hrun
  cases hrun
  exact .of_stores (combine_inRegions.kept hloop)

theorem shuffleCommand_effect (h : shuffleCommand P s = .next t) :
    ∃ s' e, t = complete s' e ∧ CommandEffect P .shuffle s s' := by
  refine runCommand_effect h fun _ s' e hrun => ?_
  obtain ⟨m, hmoves, hrun⟩ := bind_ok_iff.1 hrun
  cases hrun
  exact .of_stores ((permute_inRegions (.inl rfl) moves_lt.1).kept hmoves)

theorem unshuffleCommand_effect (h : unshuffleCommand P s = .next t) :
    ∃ s' e, t = complete s' e ∧ CommandEffect P .unshuffle s s' := by
  refine runCommand_effect h fun _ s' e hrun => ?_
  obtain ⟨m, hmoves, hrun⟩ := bind_ok_iff.1 hrun
  cases hrun
  exact .of_stores ((permute_inRegions (.inr rfl) moves_lt.2).kept hmoves)

theorem nopCommand_effect (h : nopCommand P s = .next t) :
    ∃ s' e, t = complete s' e ∧ CommandEffect P .nop s s' := by
  refine runCommand_effect h fun _ s' e hrun => ?_
  cases hrun
  exact .refl P .nop s

/-- What `exec` does, whichever the command: it completes after the effect of that command. -/
theorem exec_effect (h : exec i s = .next t) :
    ∃ s' e, t = complete s' e ∧ CommandEffect Config.machine i s s' := by
  cases i with
  | nop => exact nopCommand_effect h
  | predict => exact predictCommand_effect h
  | blkEmbed => exact blkEmbedCommand_effect h
  | blkExtract => exact blkExtractCommand_effect h
  | embed => exact embedCommand_effect h
  | extract => exact extractCommand_effect h
  | split => exact splitCommand_effect h
  | combine => exact combineCommand_effect h
  | shuffle => exact shuffleCommand_effect h
  | unshuffle => exact unshuffleCommand_effect h

end Sys2Proof.Machine
end

section
/-! What one step can do, said once: the inversion of `step` into the engine's completion, the host's register write, `rst`
and anything else (70_reset_and_hazards.md R285). -/

namespace Sys2Proof.Machine

variable {P : Config} {s t : State} {n : RegName} {v : Word} {rest : List Input}

/-! ### Host accesses to the register window -/

theorem regOffset_injective {n n' : RegName} (h : regOffset n = regOffset n') : n = n' := by
  have := regAt_regOffset n
  rwa [h, regAt_regOffset, Option.some_inj, eq_comm] at this

theorem regOffset_of_regAt {off : BitVec 8} (h : regAt off = some n) : regOffset n = off := by
  simpa using List.find?_some h

theorem regAccessOk_width {w : Width} {off : BitVec 8} (h : regAccessOk w off = true) : w = .word := by
  cases w with
  | word => rfl
  | byte => simp [regAccessOk] at h
  | half => simp [regAccessOk] at h

/-- The seven things a register write can do (R23-R25, R34), for a property that all of them have. -/
theorem writeReg_elim {motive : State → Prop}
    (overrun : s.busy = true → motive (setOvr s))
    (accepted : s.busy = false → motive (accept s v))
    (reset : s.busy = false → motive (softReset s))
    (irqEnable : motive { s with irqEn := v.getLsbD 0 })
    (status : motive (statusWrite s v))
    (stored : s.busy = false → motive { s with regs := storeReg s.regs n v })
    (ignored : motive s) : motive (writeReg s n v) := by
  have rw_case : motive (rwWrite s n v) := by
    unfold rwWrite; split
    · next hb => exact overrun hb
    · next hb => exact stored (by simpa using hb)
  unfold writeReg
  split
  · unfold cmdWrite; split
    · next hb => exact overrun hb
    · next hb => exact accepted (by simpa using hb)
  · unfold ctrlWrite; split
    · split
      · next hb => exact overrun hb
      · next hb => exact reset (by simpa using hb)
    · exact irqEnable
  · exact status
  · split
    · exact rw_case
    · exact ignored

/-- A host access to a register is answered by its register operation (R74). -/
theorem regAccessWrite_regOffset (s : State) (n : RegName) (v : Word) :
    regAccessWrite s .word (regOffset n) v = respond (writeReg s n v) .ok := by
  simp [regAccessWrite]

theorem regAccessRead_regOffset (s : State) (n : RegName) :
    regAccessRead s .word (regOffset n) = respond s (.data (readReg s n)) := by
  simp [regAccessRead]

theorem regAccessRead_eq_respond (s : State) (w : Width) (off : BitVec 8) :
    ∃ r, regAccessRead s w off = respond s r := by
  unfold regAccessRead; split <;> exact ⟨_, rfl⟩

/-- A write to the window reaches a register, at that register's offset, or does nothing but answer. -/
theorem regAccessWrite_cases (s : State) (w : Width) (off : BitVec 8) (v : Word) :
    (∃ n, w = .word ∧ off = regOffset n ∧ regAccessWrite s w off v = respond (writeReg s n v) .ok) ∨
    ((∀ n, ¬ (w = .word ∧ off = regOffset n)) ∧ ∃ r, regAccessWrite s w off v = respond s r) := by
  by_cases hok : regAccessOk w off = true
  · cases hat : regAt off with
    | some n =>
      obtain rfl := regOffset_of_regAt hat
      obtain rfl := regAccessOk_width hok
      exact .inl ⟨n, rfl, rfl, regAccessWrite_regOffset s n v⟩
    | none =>
      refine .inr ⟨fun n ⟨_, hoff⟩ => ?_, .ok, by simp [regAccessWrite, hok, hat]⟩
      simp [hoff] at hat
  · refine .inr ⟨fun n ⟨hw, hoff⟩ => hok ?_, .busError, by simp [regAccessWrite, hok]⟩
    rw [hw, hoff, regAccessOk_regOffset]

/-! ### One step, by what moves (70_reset_and_hazards.md R285) -/

theorem writesReg_iff {n' : RegName} {v' : Word} (h : s.inputs = .access (.regWrite .word (regOffset n) v) :: rest) :
    writesReg s n' v' ↔ n = n' ∧ v = v' := by
  constructor
  · rintro ⟨rest', h'⟩
    rw [h] at h'
    simp only [List.cons.injEq, Input.access.injEq, BusAccess.regWrite.injEq, true_and] at h'
    exact ⟨regOffset_injective h'.1.1, h'.1.2⟩
  · rintro ⟨rfl, rfl⟩
    exact ⟨rest, h⟩

theorem exists_writesReg_iff {n' : RegName} (h : s.inputs = .access (.regWrite .word (regOffset n) v) :: rest) :
    (∃ v', writesReg s n' v') ↔ n = n' := by
  simp [writesReg_iff h]

theorem exists_writesReg_and_iff {n' : RegName} {q : Word → Prop}
    (h : s.inputs = .access (.regWrite .word (regOffset n) v) :: rest) :
    (∃ v', writesReg s n' v' ∧ q v') ↔ n = n' ∧ q v := by
  simp [writesReg_iff h, and_assoc]

theorem exists_exists_writesReg_iff {q : RegName → Word → Prop}
    (h : s.inputs = .access (.regWrite .word (regOffset n) v) :: rest) :
    (∃ n' v', writesReg s n' v' ∧ q n' v') ↔ q n v := by
  simp [writesReg_iff h, and_assoc]

/-- What happens at the head of the inputs excludes the rest. -/
theorem not_engineMoves_of_access {a : BusAccess} (h : s.inputs = .access a :: rest) : ¬ engineMoves s := by
  simp [engineMoves, h]

theorem not_resetsHard_of_access {a : BusAccess} (h : s.inputs = .access a :: rest) : ¬ resetsHard s := by
  simp [resetsHard, h]

theorem not_writesReg_of_engineMoves (h : engineMoves s) (n : RegName) (v : Word) : ¬ writesReg s n v := by
  rintro ⟨rest, hw⟩
  exact not_engineMoves_of_access hw h

theorem not_resetsHard_of_engineMoves (h : engineMoves s) : ¬ resetsHard s := by
  rintro ⟨rest, hr⟩
  simp [engineMoves, hr] at h

theorem not_writesReg_of_resetsHard (h : resetsHard s) (n : RegName) (v : Word) : ¬ writesReg s n v := by
  rintro ⟨rest, hw⟩
  exact not_resetsHard_of_access hw h

theorem not_engineMoves_of_resetsHard (h : resetsHard s) : ¬ engineMoves s :=
  fun hmoves => not_resetsHard_of_engineMoves hmoves h

/-- What one step that goes on from `s` to `t` was. -/
inductive Turn (s t : State) : Prop
  /-- the engine completes the accepted word -/
  | completes (inp : List Input) (c : Word) (hbusy : s.phase = .busy c) (hmoves : engineMoves s)
      (hrun : runWord c { s with inputs := inp } = .next t)
  /-- the host writes a register -/
  | writes (n : RegName) (v : Word) (rest : List Input)
      (hin : s.inputs = .access (.regWrite .word (regOffset n) v) :: rest)
      (ht : t = respond (writeReg { s with inputs := rest } n v) .ok)
  /-- `rst` is asserted -/
  | resets (rest : List Input) (hreset : resetsHard s) (ht : t = hardReset { s with inputs := rest })
  /-- anything else: at most BUF changes, by a host write -/
  | other (hidle : s.busy = true → ¬ engineMoves s) (hwrite : ∀ n v, ¬ writesReg s n v) (hreset : ¬ resetsHard s)
      (frame : t = { s with mem := t.mem, inputs := t.inputs, resp := t.resp, freePos := t.freePos })
      (stores : Kept Config.machine (fun _ => True) s.mem t.mem)

/-- The engine's turn: a completion, or nothing while idle. -/
theorem turn_of_engineTurn {inp : List Input} (hmoves : engineMoves s)
    (h : engineTurn { s with inputs := inp } = .next t) : Turn s t := by
  unfold engineTurn at h
  split at h
  · next hphase =>
    cases h
    exact .other (fun hb => by simp [State.busy, show s.phase = .idle from hphase] at hb)
      (not_writesReg_of_engineMoves hmoves) (not_resetsHard_of_engineMoves hmoves) rfl (Kept.refl _ _ _)
  · next c hphase => exact .completes inp c hphase hmoves h

/-- A host access other than a write to a register. -/
theorem turn_of_otherAccess {a : BusAccess} (hin : s.inputs = .access a :: rest)
    (ha : ∀ n v, a ≠ .regWrite .word (regOffset n) v)
    (frame : t = { s with mem := t.mem, inputs := t.inputs, resp := t.resp, freePos := t.freePos })
    (stores : Kept Config.machine (fun _ => True) s.mem t.mem) : Turn s t := by
  refine .other (fun _ => not_engineMoves_of_access hin) (fun n v hw => ?_) (not_resetsHard_of_access hin) frame stores
  obtain ⟨rest', hw⟩ := hw
  rw [hin] at hw
  exact ha n v (by simpa using (List.cons.inj hw).1)

theorem bufRead_next {w : Width} {a : Nat} (h : bufRead P s w a = .next t) :
    ∃ free r, t = respond { s with freePos := free } r := by
  unfold bufRead at h
  split at h
  · cases h
  · split at h
    · cases h; exact ⟨_, _, rfl⟩
    · cases h; exact ⟨s.freePos, _, rfl⟩

theorem bufWrite_next {w : Width} {a : Nat} (h : bufWrite P s w a v = .next t) :
    ∃ m r, t = respond { s with mem := m } r ∧ Kept P (inSpan a w.bytes) s.mem m := by
  unfold bufWrite at h
  split at h
  · cases h
  · split at h
    · next hok =>
      cases h
      simp only [bufAccessOk, Bool.and_eq_true, decide_eq_true_eq] at hok
      exact ⟨_, _, rfl, writeLittle_kept hok.2⟩
    · cases h; exact ⟨s.mem, _, rfl, Kept.refl _ _ _⟩

theorem turn_of_hostAccess {a : BusAccess} (hin : s.inputs = .access a :: rest)
    (h : hostAccess Config.machine { s with inputs := rest } a = .next t) : Turn s t := by
  cases a with
  | regRead w off =>
    obtain ⟨r, hr⟩ := regAccessRead_eq_respond { s with inputs := rest } w off
    simp only [hostAccess, hr] at h
    cases h
    exact turn_of_otherAccess hin (fun _ _ => by simp) rfl (Kept.refl _ _ _)
  | regWrite w off v =>
    obtain ⟨n, rfl, rfl, hw⟩ | ⟨hno, r, hr⟩ := regAccessWrite_cases { s with inputs := rest } w off v
    · simp only [hostAccess, hw] at h
      cases h
      exact .writes n v rest hin rfl
    · simp only [hostAccess, hr] at h
      cases h
      refine turn_of_otherAccess hin (fun n v' he => ?_) rfl (Kept.refl _ _ _)
      cases he
      exact hno n ⟨rfl, rfl⟩
  | bufRead w a =>
    obtain ⟨free, r, rfl⟩ := bufRead_next h
    exact turn_of_otherAccess hin (fun _ _ => by simp) rfl (Kept.refl _ _ _)
  | bufWrite w a v =>
    obtain ⟨m, r, rfl, hk⟩ := bufWrite_next h
    exact turn_of_otherAccess hin (fun _ _ => by simp) rfl (hk.mono fun _ _ => trivial)

/-- The inversion of `step`: whatever a step that goes on did, it is one of the four turns. -/
theorem turn_of_step (h : step s = .next t) : Turn s t := by
  unfold step takeTurn at h
  split at h
  · next hin => exact turn_of_engineTurn (inp := s.inputs) (.inl hin) h
  · next a rest hin => exact turn_of_hostAccess hin h
  · next rest hin =>
    have hmoves : engineMoves s := .inr (.inr ⟨rest, hin⟩)
    unfold pollTurn at h
    split at h
    · exact turn_of_engineTurn (inp := s.inputs) hmoves h
    · next hb =>
      obtain ⟨r, hr⟩ := regAccessRead_eq_respond { s with inputs := rest } .word (regOffset .status)
      rw [hr] at h
      cases h
      exact .other (fun hb' => absurd hb' hb) (not_writesReg_of_engineMoves hmoves)
        (not_resetsHard_of_engineMoves hmoves) rfl (Kept.refl _ _ _)
  · next rest hin => exact turn_of_engineTurn (.inr (.inl ⟨rest, hin⟩)) h
  · next rest hin => cases h; exact .resets rest ⟨rest, hin⟩ rfl

/-- The engine's completion of a word, legal or not: the flags of a completion, stores inside BUF only, and residuals in
their range (R236, 30_encoding.md R102). -/
theorem runWord_next {c : Word} (h : runWord c s = .next t) :
    ∃ u e, t = complete u e ∧ u.irqEn = s.irqEn ∧ u.ovr = s.ovr ∧ Kept Config.machine (fun _ => True) s.mem u.mem ∧
      (predInRange s.regs → predInRange u.regs) := by
  unfold runWord at h
  split at h
  · next i _ =>
    obtain ⟨u, e, rfl, heff⟩ := exec_effect h
    refine ⟨u, e, rfl, ?_, ?_, heff.stores.mono fun _ _ => trivial, heff.pred⟩
    · rw [heff.frame]
    · rw [heff.frame]
  · cases h
    exact ⟨s, .illegalCommand, rfl, rfl, rfl, Kept.refl _ _ _, id⟩

end Sys2Proof.Machine
end

section
/-! The two invariants: at reset, and over every step (10_state.md R26, R27, R29, R33, R35; 60_exceptions.md R230). -/

namespace Sys2Proof.Machine

variable {P : Config} {s t : State} {n : RegName} {v : Word} {rest : List Input}

/-! ### The machine invariant (10_state.md R26, R27, R29, R35; 60_exceptions.md R230) -/

theorem isErrCode_code (e : ErrCode) : isErrCode e.code := by
  unfold isErrCode; cases e <;> decide

theorem isErrCode_zero : isErrCode 0 := isErrCode_code .ok

/-- Stores inside BUF keep the invariant's part about BUF; the flags are shown to meet theirs. -/
theorem State.Inv.of_stores (hs : s.Inv P) (hm : Kept P (fun _ => True) s.mem t.mem) (herr : isErrCode t.err)
    (hpending : t.busy = true → t.done = false ∧ t.err = 0) : t.Inv P :=
  ⟨hm.wf hs.wf, hm.inBuf hs.inBuf, herr, hpending⟩

theorem complete_inv {e : ErrCode} {u : State} (hs : s.Inv P) (hm : Kept P (fun _ => True) s.mem u.mem) :
    (complete u e).Inv P :=
  hs.of_stores hm (isErrCode_code e) (fun hb => absurd hb (by simp))

theorem writeReg_inv (hs : s.Inv P) : (writeReg s n v).Inv P := by
  have hkeep := Kept.refl P (fun _ => True) s.mem
  refine writeReg_elim (motive := fun t => t.Inv P) (fun _ => ?_) (fun _ => ?_) (fun _ => ?_) ?_ ?_ (fun _ => ?_) hs
  · exact hs.of_stores hkeep hs.err hs.pending
  · exact hs.of_stores hkeep isErrCode_zero fun _ => ⟨rfl, rfl⟩
  · exact hs.of_stores hkeep isErrCode_zero fun _ => ⟨rfl, rfl⟩
  · exact hs.of_stores hkeep hs.err hs.pending
  · refine hs.of_stores hkeep hs.err fun hb => ?_
    obtain ⟨hdone, herr⟩ := hs.pending hb
    exact ⟨by simp [hdone], herr⟩
  · exact hs.of_stores hkeep hs.err hs.pending

theorem hardReset_inv (P : Config) (s : State) : (hardReset s).Inv P :=
  ⟨List.Pairwise.nil, fun _ hx => absurd hx List.not_mem_nil, isErrCode_zero, fun _ => ⟨rfl, rfl⟩⟩

/-- The model's own bookkeeping does not touch the invariant. -/
theorem State.Inv.of_inputs (hs : s.Inv P) (inp : List Input) : { s with inputs := inp }.Inv P :=
  ⟨hs.wf, hs.inBuf, hs.err, hs.pending⟩

theorem State.Inv.of_respond (hs : s.Inv P) (r : Response) : (respond s r).Inv P :=
  ⟨hs.wf, hs.inBuf, hs.err, hs.pending⟩

/-- Settles O59: a step is one of four turns, and each keeps the invariant. -/
theorem stepKeepsInvariant : Obligations.StepKeepsInvariant := by
  intro s t hs hstep
  cases turn_of_step hstep with
  | completes inp c hbusy hmoves hrun =>
    obtain ⟨u, e, rfl, -, -, hmem, -⟩ := runWord_next hrun
    exact complete_inv hs hmem
  | writes n v rest hin ht => exact ht ▸ (writeReg_inv (hs.of_inputs rest)).of_respond .ok
  | resets rest hreset ht => exact ht ▸ hardReset_inv _ _
  | other hidle hwrite hreset frame stores =>
    rw [frame]
    exact hs.of_stores stores hs.err hs.pending

/-! ### The PRED range (10_state.md R33, 40_block_codec.md R136) -/

theorem predInRange_reset : predInRange Regs.reset := by
  simp [predInRange, Regs.reset]

/-- The host stores into no PRED register (R22, R23). -/
theorem predInRange_storeReg {r : Regs} (hr : predInRange r) : predInRange (storeReg r n v) := by
  cases n <;> exact hr

theorem predInRange_writeReg (hs : predInRange s.regs) : predInRange (writeReg s n v).regs :=
  writeReg_elim (motive := fun t => predInRange t.regs) (fun _ => hs) (fun _ => hs) (fun _ => predInRange_reset) hs hs
    (fun _ => predInRange_storeReg hs) hs

/-- Settles O60: PREDICT alone writes the PRED registers, with residuals and their peak. -/
theorem stepKeepsPredRange : Obligations.StepKeepsPredRange := by
  intro s t hs hstep
  cases turn_of_step hstep with
  | completes inp c hbusy hmoves hrun =>
    obtain ⟨u, e, rfl, -, -, -, hpred⟩ := runWord_next hrun
    exact hpred hs
  | writes n v rest hin ht =>
    rw [ht]
    exact predInRange_writeReg (s := { s with inputs := rest }) hs
  | resets rest hreset ht => exact ht ▸ predInRange_reset
  | other hidle hwrite hreset frame stores =>
    rw [frame]
    exact hs

/-- Settles O58: the reset state is what `rst` leaves. -/
theorem resetMeetsInvariants : Obligations.ResetMeetsInvariants :=
  ⟨hardReset_inv Config.machine State.reset, predInRange_reset⟩

end Sys2Proof.Machine
end

section
/-! The registers as the host reads and writes them (10_state.md R22-R34, R41, R43). -/

namespace Sys2Proof.Machine

variable {s : State} {n : RegName} {v : Word} {rest : List Input}

/-! ### What the host reads -/

/-- STATUS bit by bit (R26-R29). -/
theorem statusWord_getLsbD (s : State) (k : Nat) : (statusWord s).getLsbD k =
    if k = 0 then s.busy else if k = 1 then s.done else if k = 2 then s.ovr
    else decide (8 ≤ k) && s.err.getLsbD (k - 8) := by
  simp only [statusWord, BitVec.getLsbD_append]
  match k with
  | 0 => simp
  | 1 => simp
  | 2 => simp
  | k + 3 =>
    by_cases h : k < 5
    · simp [h]
    · simpa [h, Nat.not_lt.1 h] using fun hbit => BitVec.lt_of_getLsbD hbit

/-- The bits of STATUS that no field takes read 0. -/
theorem statusWord_getLsbD_reserved (s : State) {k : Nat} (h : 3 ≤ k ∧ k < 8 ∨ 16 ≤ k) :
    (statusWord s).getLsbD k = false := by
  rw [statusWord_getLsbD, if_neg (by omega), if_neg (by omega), if_neg (by omega)]
  obtain ⟨-, hlow⟩ | hhigh := h
  · simp [Nat.not_le.2 hlow]
  · simp [BitVec.getLsbD_of_ge s.err (k - 8) (by omega)]

theorem statusWord_busy (s : State) : (statusWord s).getLsbD 0 = s.busy := by rw [statusWord_getLsbD]; rfl

theorem statusWord_done (s : State) : (statusWord s).getLsbD 1 = s.done := by rw [statusWord_getLsbD]; rfl

theorem statusWord_ovr (s : State) : (statusWord s).getLsbD 2 = s.ovr := by rw [statusWord_getLsbD]; rfl

theorem statusWord_err (s : State) : (statusWord s).extractLsb' 8 8 = s.err := by
  refine BitVec.eq_of_getLsbD_eq fun k hk => ?_
  rw [BitVec.getLsbD_extractLsb', statusWord_getLsbD, if_neg (by omega), if_neg (by omega), if_neg (by omega)]
  simp [hk]

theorem statusWord_reserved (s : State) :
    (statusWord s).extractLsb' 3 5 = 0 ∧ (statusWord s).extractLsb' 16 16 = 0 := by
  constructor
  all_goals
    refine BitVec.eq_of_getLsbD_eq fun k hk => ?_
    rw [BitVec.getLsbD_extractLsb', statusWord_getLsbD_reserved s (by omega)]
    simp

theorem ctrlWord_eq (s : State) : ctrlWord s = if s.irqEn then 1 else 0 := by
  unfold ctrlWord; cases s.irqEn <;> rfl

theorem predFlagsWord_eq (r : Regs) : predFlagsWord r = if r.predGuard then 1 else 0 := by
  unfold predFlagsWord; cases r.predGuard <;> rfl

theorem ctrlWord_irqEn (s : State) : (ctrlWord s).getLsbD 0 = s.irqEn := by
  rw [ctrlWord, BitVec.getLsbD_append]
  simp

/-- Settles O11, field by field. -/
theorem statusFieldsAndInterrupt : Obligations.StatusFieldsAndInterrupt := by
  intro s
  obtain ⟨hlow, hhigh⟩ := statusWord_reserved s
  refine ⟨?_, statusWord_done s, statusWord_ovr s, statusWord_err s, hlow, hhigh, ?_⟩
  · rw [readReg, statusWord_busy, ne_eq, ← busy_eq_false_iff, Bool.not_eq_false]
  · rw [readReg, readReg, statusWord_done, ctrlWord_irqEn, irq]

/-- Settles O5, by evaluating each of the 29 registers. -/
theorem resetRegisterValues : Obligations.ResetRegisterValues :=
  ⟨fun r => by cases r <;> rfl, rfl, rfl, fun _ => rfl⟩

/-! ### Which register write does what -/

theorem writeReg_of_rw (h : accessKind n = .rw) : writeReg s n v = rwWrite s n v := by
  cases n <;> cases h <;> rfl

theorem writeReg_of_ro (h : accessKind n = .ro) : writeReg s n v = s := by
  cases n <;> cases h <;> rfl

theorem ctrlWrite_of_bit1_clear (h : v.getLsbD 1 = false) : ctrlWrite s v = { s with irqEn := v.getLsbD 0 } := by
  rw [ctrlWrite, if_neg (Bool.eq_false_iff.1 h)]

/-- The writes that R34 ignores while BUSY = 1. -/
theorem writeReg_overrun (hb : s.busy = true)
    (hn : n = .cmd ∨ (n = .ctrl ∧ v.getLsbD 1 = true) ∨ accessKind n = .rw) : writeReg s n v = setOvr s := by
  obtain rfl | ⟨rfl, hv⟩ | hrw := hn
  · simp [writeReg, cmdWrite, hb]
  · simp [writeReg, ctrlWrite, hv, hb]
  · rw [writeReg_of_rw hrw, rwWrite, if_pos hb]

/-- MAPBYTE reads as the low 8 bits written to it (R33). -/
theorem zeroExtend_extract_low8 (v : Word) : (v.extractLsb' 0 8).zeroExtend 32 = v &&& 0xFF := by
  apply BitVec.eq_of_toNat_eq
  have hmask : v.toNat &&& 255 = v.toNat % 256 := Nat.and_two_pow_sub_one_eq_mod v.toNat 8
  have hfits : v.toNat % 256 % 2 ^ 32 = v.toNat % 256 := by omega
  simpa [hmask] using hfits

/-- Reading after a store into an RW register. -/
theorem readReg_storeReg {n' : RegName} (h : accessKind n = .rw) :
    readReg { s with regs := storeReg s.regs n v } n' =
      if n' = n then (if n = .mapByte then (v.extractLsb' 0 8).zeroExtend 32 else v) else readReg s n' := by
  cases n <;> cases h <;> cases n' <;> rfl

theorem step_of_regWrite (h : s.inputs = .access (.regWrite .word (regOffset n) v) :: rest) :
    step s = .next (respond (writeReg { s with inputs := rest } n v) .ok) := by
  simp [step, takeTurn, h, hostAccess, regAccessWrite_regOffset]

theorem step_of_regRead (h : s.inputs = .access (.regRead .word (regOffset n)) :: rest) :
    step s = .next (respond { s with inputs := rest } (.data (readReg { s with inputs := rest } n))) := by
  simp [step, takeTurn, h, hostAccess, regAccessRead_regOffset]

/-- What a register reads as does not depend on the model's own bookkeeping. -/
theorem readReg_inputs (s : State) (n : RegName) (inp : List Input) :
    readReg { s with inputs := inp } n = readReg s n := by
  cases n <;> rfl

/-- Settles O9: the step is the register operation on a busy state, answered. -/
theorem writesWhileBusy : Obligations.WritesWhileBusy := by
  intro s n v rest hphase
  have hb : s.busy = true := by rwa [← Bool.not_eq_false, busy_eq_false_iff]
  refine ⟨fun hin => ⟨fun hn => ?_, ?_, ?_⟩, fun hin => ?_⟩
  · rw [step_of_regWrite hin, writeReg_overrun (s := { s with inputs := rest }) hb hn]
    rfl
  · rintro ⟨rfl, hv⟩
    rw [step_of_regWrite hin, writeReg, ctrlWrite_of_bit1_clear hv]
    rfl
  · rintro rfl
    rw [step_of_regWrite hin]
    rfl
  · rw [step_of_regRead hin, readReg_inputs]
    rfl

/-- Settles O10, by the access kind of the register. -/
theorem registerWriteReadBack : Obligations.RegisterWriteReadBack := by
  intro s n v
  refine ⟨fun hidle hrw => ?_, writeReg_of_ro, ctrlWrite_of_bit1_clear, rfl, ?_⟩
  · have hstored : writeReg s n v = { s with regs := storeReg s.regs n v } := by
      rw [writeReg_of_rw hrw, rwWrite, (busy_eq_false_iff s).2 hidle]; rfl
    rw [hstored]
    refine ⟨?_, fun n' hne => ?_, rfl⟩
    · rw [readReg_storeReg hrw, if_pos rfl, zeroExtend_extract_low8]
    · rw [readReg_storeReg hrw, if_neg hne]
  · simp [readReg, ctrlWord_eq, predFlagsWord_eq]

end Sys2Proof.Machine
end

section
/-! BUSY, DONE and OVR over one step (10_state.md R26-R28). -/

namespace Sys2Proof.Machine

variable {s t : State} {n : RegName} {v : Word} {rest : List Input}

/-- The flags after the host's write of `v` to register `n`. -/
theorem flags_of_write (ht : t = respond (writeReg { s with inputs := rest } n v) .ok) :
    t.busy = (s.busy || n == .cmd) ∧
    t.done = (s.done && !((n == .status && v.getLsbD 1) || (!s.busy && (n == .cmd || (n == .ctrl && v.getLsbD 1))))) ∧
    t.ovr = ((s.busy && (n == .cmd || (n == .ctrl && v.getLsbD 1) || accessKind n == .rw)) ||
      (s.ovr && !((n == .status && v.getLsbD 2) || (!s.busy && n == .ctrl && v.getLsbD 1)))) :=
  ht ▸ writeReg_flags { s with inputs := rest } n v

/-- Settles O12: of the four turns, a register write acts on BUSY as `writeReg_flags` says, a completion and `rst` clear
it, and the rest keeps it. -/
theorem busyChanges : Obligations.BusyChanges := by
  refine ⟨statusWord_busy, rfl, fun s t hstep => ?_⟩
  cases turn_of_step hstep with
  | completes inp c hbusy hmoves hrun =>
    obtain ⟨u, e, rfl, -⟩ := runWord_next hrun
    simp [hmoves, not_writesReg_of_engineMoves hmoves]
  | writes n v rest hin ht =>
    obtain ⟨hflag, -, -⟩ := flags_of_write ht
    rw [hflag, exists_writesReg_iff hin]
    cases s.busy <;> simp [not_engineMoves_of_access hin, not_resetsHard_of_access hin]
  | resets rest hreset ht => simp [ht, hreset, not_writesReg_of_resetsHard hreset]
  | other hidle hwrite hreset frame stores =>
    have hflag : t.busy = s.busy := by rw [frame]; rfl
    rw [hflag]
    simpa [hwrite, hreset] using hidle

/-- Settles O13, turn by turn. -/
theorem doneChanges : Obligations.DoneChanges := by
  refine ⟨fun s => ⟨statusWord_done s, rfl⟩, rfl, fun s t hstep => ?_⟩
  cases turn_of_step hstep with
  | completes inp c hbusy hmoves hrun =>
    obtain ⟨u, e, rfl, -⟩ := runWord_next hrun
    simp [hmoves, (busy_eq_true_iff s).2 ⟨c, hbusy⟩]
  | writes n v rest hin ht =>
    obtain ⟨-, hflag, -⟩ := flags_of_write ht
    rw [hflag, exists_writesReg_and_iff hin, exists_writesReg_and_iff hin, exists_writesReg_iff hin]
    cases s.busy <;> simp [imp_iff_not_or, not_engineMoves_of_access hin, not_resetsHard_of_access hin]
  | resets rest hreset ht => simp [ht, hreset, not_engineMoves_of_resetsHard hreset]
  | other hidle hwrite hreset frame stores =>
    have hflag : t.done = s.done := by rw [frame]
    simpa [hflag, hwrite, hreset] using fun hb hmoves => absurd hmoves (hidle hb)

/-- Settles O14, turn by turn. -/
theorem overrunChanges : Obligations.OverrunChanges := by
  refine ⟨statusWord_ovr, rfl, fun s t hstep => ?_⟩
  cases turn_of_step hstep with
  | completes inp c hbusy hmoves hrun =>
    obtain ⟨u, e, rfl, -, hovr, -⟩ := runWord_next hrun
    simp [hovr, not_writesReg_of_engineMoves hmoves, not_resetsHard_of_engineMoves hmoves]
  | writes n v rest hin ht =>
    obtain ⟨-, -, hflag⟩ := flags_of_write ht
    rw [hflag, exists_exists_writesReg_iff hin, exists_writesReg_and_iff hin, exists_writesReg_and_iff hin]
    cases s.busy <;> simp [imp_iff_not_or, or_assoc, not_resetsHard_of_access hin]
  | resets rest hreset ht => simp [ht, hreset, not_writesReg_of_resetsHard hreset]
  | other hidle hwrite hreset frame stores =>
    have hflag : t.ovr = s.ovr := by rw [frame]
    simp [hflag, hwrite, hreset]

end Sys2Proof.Machine
end

section
/-! Which check a command reports, and where a command can stop (60_exceptions.md R234, R235; 20_memory.md R81, R82,
R86). -/

namespace Sys2Proof.Machine

variable {P : Config} {i : Instr} {s : State} {e : ErrCode} {f : Fault}

/-! ### The checks -/

/-- The checks before RANGE pass exactly if the operands meet `earlyChecksPass` (R230, R233, R234). -/
theorem earlyChecksPass_iff :
    (∀ e ∈ [ErrCode.illegalCommand, .geometry, .mapTooLarge, .length, .outCapacity],
      checkApplies e i = true → checkFails P i s e = .ok false) ↔ earlyChecksPass i s.regs := by
  cases i <;> simp [checkApplies, checkFails, earlyChecksPass, geometryFails, outCapacityFails, blockGeometry,
    planeGeometry, and_assoc]
  simp [ceilDiv, blockCount]

/-- Every command is its checks and then its pseudocode (R234). -/
theorem exec_eq_runCommand (i : Instr) (s : State) : ∃ body, exec i s = runCommand Config.machine i s body := by
  cases i with
  | nop => exact ⟨.ok (s, .ok), rfl⟩
  | _ => exact ⟨_, rfl⟩

theorem exec_of_firstError (h : firstError Config.machine i s = .ok (some e)) : exec i s = .next (complete s e) := by
  obtain ⟨body, hexec⟩ := exec_eq_runCommand i s
  exact hexec ▸ runCommand_failed h

theorem rangeFails_applies {r : Regs} (h : rangeFails P i r = true) : checkApplies .range i = true := by
  cases i with
  | nop => cases h
  | _ => rfl

/-- RANGE is reported once the checks before it pass (R81, R234). -/
theorem firstError_range (hearly : earlyChecksPass i s.regs) (h : rangeFails P i s.regs = true) :
    firstError P i s = .ok (some .range) :=
  firstFailing_eq_some (post := [.overlap, .mapField]) (rangeFails_applies h) (congrArg _ h)
    (earlyChecksPass_iff.2 hearly)

/-- Settles O23: RANGE is then the first check that fails. -/
theorem rangeErrors : Obligations.RangeErrors := by
  intro i s hearly hbad
  refine exec_of_firstError (firstError_range hearly ?_)
  rw [← Bool.not_eq_false, rangeFails_false_iff]
  exact fun ⟨hcursor, hrange⟩ => hbad.elim (· hrange) (· hcursor)

/-- A command without the OVERLAP check writes no region, or has but one. -/
theorem anyOverlap_applies {r : Regs} (h : anyOverlap (regionsOf i r) = true) : checkApplies .overlap i = true := by
  cases i with
  | nop => cases h
  | predict | shuffle | unshuffle => simp [regionsOf, anyOverlap] at h
  | _ => rfl

/-- OVERLAP is reported once the checks before it pass (R82, R234). -/
theorem firstError_overlap (hearly : earlyChecksPass i s.regs) (hrange : rangeFails P i s.regs = false)
    (h : anyOverlap (regionsOf i s.regs) = true) : firstError P i s = .ok (some .overlap) := by
  refine firstFailing_eq_some (pre := [.illegalCommand, .geometry, .mapTooLarge, .length, .outCapacity] ++ [.range])
    (post := [.mapField]) (anyOverlap_applies h) (congrArg _ h) fun e he ha => ?_
  obtain he | rfl := (List.mem_append.1 he).imp_right List.mem_singleton.1
  · exact earlyChecksPass_iff.2 hearly e he ha
  · exact congrArg _ hrange

/-- Settles O24: OVERLAP is then the first check that fails. -/
theorem overlapErrors : Obligations.OverlapErrors := by
  intro i s hearly hcursor hrange hapart
  refine exec_of_firstError (firstError_overlap hearly (rangeFails_false_iff.2 ⟨hcursor, hrange⟩) ?_)
  rwa [← Bool.not_eq_false, regionsApart_iff]

/-! ### Where a command can stop -/

/-- Only MAP_FIELD reads BUF (R235). -/
theorem checkFails_ne_mapField (he : e ≠ .mapField) : ∃ b, checkFails P i s e = .ok b := by
  cases e with
  | mapField => exact absurd rfl he
  | _ => exact ⟨_, rfl⟩

/-- Checks of which only the last can stop: if they stop, it is there, and those before it pass. -/
theorem firstFailing_error : ∀ {pre : List ErrCode}, (∀ e' ∈ pre, ∃ b, checkFails P i s e' = .ok b) →
    firstFailing P i s (pre ++ [e]) = .error f →
    checkFails P i s e = .error f ∧ ∀ e' ∈ pre, checkApplies e' i = true → checkFails P i s e' = .ok false
  | [], _, h => by
    refine ⟨?_, fun _ he' => absurd he' List.not_mem_nil⟩
    rw [List.nil_append, firstFailing] at h
    split at h
    · obtain h | ⟨b, -, h⟩ := bind_error_iff.1 h
      · exact h
      · cases b <;> cases h
    · cases h
  | e' :: pre, htotal, h => by
    have ih := fun h => firstFailing_error (pre := pre) (fun e'' he'' => htotal e'' (.tail _ he'')) h
    obtain ⟨b, hb⟩ := htotal e' (.head _)
    rw [List.cons_append, firstFailing, hb] at h
    split at h
    · cases b with
      | true => cases h
      | false =>
        obtain ⟨hlast, hpre⟩ := ih h
        exact ⟨hlast, List.forall_mem_cons.2 ⟨fun _ => hb, hpre⟩⟩
    · next ha =>
      obtain ⟨hlast, hpre⟩ := ih h
      exact ⟨hlast, List.forall_mem_cons.2 ⟨fun ha' => absurd ha' ha, hpre⟩⟩

/-- A check that stops the engine is MAP_FIELD of EXTRACT, at a map byte, with every other check passed (R235). -/
theorem firstError_error (h : firstError P i s = .error f) :
    operandsOk P i s.regs ∧ FaultIn P (inRegions i s.regs) s.mem f := by
  obtain ⟨hmap, hpre⟩ := firstFailing_error
    (pre := [.illegalCommand, .geometry, .mapTooLarge, .length, .outCapacity, .range, .overlap])
    (fun e he => checkFails_ne_mapField (by rintro rfl; simp at he)) h
  constructor
  · refine operandsOk_iff.1 fun e he hne => hpre e ?_
    simpa [checkOrder, hne] using he
  · by_cases hi : i = .extract
    · subst hi
      exact (mapField_inRegions (S := fun _ => False)).faultIn hmap
    · obtain ⟨b, hb⟩ := checkFails_total hi .mapField
      rw [hb] at hmap
      cases hmap

/-- A command stops in its checks or, all of them passed, in its pseudocode: with either in its regions, so is the stop. -/
theorem runCommand_faultIn {body : Except Fault (State × ErrCode)} (h : runCommand P i s body = .fault f)
    (hbody : operandsOk P i s.regs →
      Touches P (inRegions i s.regs) (inWritten i s.regs) s.mem body (fun r => r.1.mem)) :
    operandsOk P i s.regs ∧ FaultIn P (inRegions i s.regs) s.mem f := by
  obtain hcheck | ⟨hchecks, hrun⟩ := runCommand_fault_iff.1 h
  · exact firstError_error hcheck
  · have hops := (firstError_none_iff_operandsOk.1 hchecks).1
    exact ⟨hops, (hbody hops).faultIn hrun⟩

/-- Whichever the command, it stops only after its checks on the operands and only for an access in its regions (R72). -/
theorem exec_faultIn (h : exec i s = .fault f) :
    operandsOk Config.machine i s.regs ∧ FaultIn Config.machine (inRegions i s.regs) s.mem f := by
  cases i with
  | nop => exact runCommand_faultIn (body := .ok (s, .ok)) h fun _ => Touches.pure _ _ rfl
  | predict =>
    exact runCommand_faultIn h fun hops => ((predictReads_touches hops.1).1 _).bind fun _ _ =>
      ((predictReads_touches hops.1).2 _).bind fun _ _ => Touches.pure _ _ rfl
  | blkEmbed => exact runCommand_faultIn h fun hops => (blkEmbed_inRegions hops.1).bind fun _ _ => Touches.pure _ _ rfl
  | blkExtract =>
    exact runCommand_faultIn h fun hops => (blkExtract_inRegions hops.1).bind fun _ _ => Touches.pure _ _ rfl
  | embed => exact runCommand_faultIn h fun hops => (embed_inRegions hops.1).bind fun _ _ => Touches.pure _ _ rfl
  | extract =>
    exact runCommand_faultIn h fun hops => (zeroFill_inRegions hops.1.2.2).bind fun _ _ =>
      (extract_inRegions hops.1).bind fun _ _ => Touches.pure _ _ rfl
  | split => exact runCommand_faultIn h fun _ => split_inRegions.bind fun _ _ => Touches.pure _ _ rfl
  | combine => exact runCommand_faultIn h fun _ => combine_inRegions.bind fun _ _ => Touches.pure _ _ rfl
  | shuffle =>
    exact runCommand_faultIn h fun _ => (permute_inRegions (.inl rfl) moves_lt.1).bind fun _ _ => Touches.pure _ _ rfl
  | unshuffle =>
    exact runCommand_faultIn h fun _ => (permute_inRegions (.inr rfl) moves_lt.2).bind fun _ _ => Touches.pure _ _ rfl

theorem exec_not_refused (i : Instr) (s : State) (r : Refusal) : exec i s ≠ .refused r := by
  obtain ⟨body, hexec⟩ := exec_eq_runCommand i s
  exact hexec ▸ runCommand_not_refused

/-- Settles O29: the regions are in range when a command stops, so the address is in BUF and the byte unwritten. -/
theorem onlyUnwrittenReadsFault : Obligations.OnlyUnwrittenReadsFault := by
  refine fun i s => ⟨exec_not_refused i s, fun f h => ?_⟩
  obtain ⟨⟨-, -, hrange, -⟩, a, ha, ⟨hf, hlt, hnone⟩ | ⟨-, hge⟩⟩ := exec_faultIn h
  · exact ⟨a, hf, hlt, hnone, ha⟩
  · exact absurd (lt_bufBytes_of_inRegions hrange ha) (Nat.not_lt.2 hge)

/-- COMBINE's loop ends only if both shares are written, its output being apart from them (R86, R193). -/
theorem combineLoop_written {p1 p2 dst n : Nat} {m m' : Memory} (h1 : ∀ a, ¬ (inSpan p1 n a ∧ inSpan dst n a))
    (h2 : ∀ a, ¬ (inSpan p2 n a ∧ inSpan dst n a)) (h : combineLoop P p1 p2 dst n 0 m = .ok m') :
    m.written p1 n ∧ m.written p2 n := by
  have hbytes := combineLoop_values (fun j k _ _ hj hk =>
    ⟨ne_of_spans_apart h1 (by omega) (by omega), ne_of_spans_apart h2 (by omega) (by omega)⟩) h
  constructor <;> intro k hk <;> obtain ⟨v, w, hv, hw, -⟩ := hbytes k (Nat.zero_le k) (by omega)
  · simp [hv]
  · simp [hw]

/-- Settles O30: COMBINE is not refused, goes on only with both shares written, and else stops as O29 says. -/
theorem combineUnwrittenShareFaults : Obligations.CombineUnwrittenShareFaults := by
  intro s hops hunwritten
  cases hexec : exec .combine s with
  | refused r => exact absurd hexec (exec_not_refused _ _ _)
  | fault f =>
    obtain ⟨a, rfl, -, hnone, -⟩ := (onlyUnwrittenReadsFault .combine s).2 f hexec
    exact ⟨a, rfl, hnone⟩
  | next t =>
    have hchecks : firstError Config.machine .combine s = .ok none :=
      firstError_none_iff_operandsOk.2 ⟨hops, fun h => absurd h (by decide)⟩
    obtain ⟨e, hfailed, -⟩ | ⟨-, s', e, hrun, -⟩ := runCommand_next_iff.1 hexec
    · rw [hchecks] at hfailed
      cases hfailed
    · obtain ⟨m, hloop, -⟩ := bind_ok_iff.1 hrun
      obtain ⟨-, -, -, hapart⟩ := hops
      obtain ⟨h1, hapart⟩ := List.pairwise_cons.1 hapart
      obtain ⟨h2, -⟩ := List.pairwise_cons.1 hapart
      have hdst1 := h1 _ (.tail _ (.head _)) (.inr rfl)
      have hdst2 := h2 _ (.head _) (.inr rfl)
      exact absurd (combineLoop_written hdst1 hdst2 hloop) hunwritten

/-- Settles O31: the table by cases, the frame from what `exec` stores. -/
theorem storesOnlyInWrittenRegions : Obligations.StoresOnlyInWrittenRegions := by
  refine ⟨fun i r => by cases i <;> rfl, fun i s t h a ha => ?_⟩
  obtain ⟨s', e, rfl, heffect⟩ := exec_effect h
  exact heffect.stores.frame a ha

end Sys2Proof.Machine
end

section
/-! Host accesses to BUF and to the register window (20_memory.md R71, R73, R74; 70_reset_and_hazards.md R280). -/

namespace Sys2Proof.Machine

variable {P : Config} {s : State} {w : Width} {a : Nat} {off : BitVec 8} {v : Word} {rest : List Input}

theorem step_of_access {acc : BusAccess} (h : s.inputs = .access acc :: rest) :
    step s = hostAccess Config.machine { s with inputs := rest } acc := by
  simp [step, takeTurn, h]

theorem Width.bytes_le_four (w : Width) : w.bytes ≤ 4 := by
  cases w <;> decide

/-! ### The BUF window -/

theorem bufAccessOk_iff : bufAccessOk P w a = true ↔ a % w.bytes = 0 ∧ a + w.bytes ≤ P.bufBytes := by
  simp [bufAccessOk]

/-- A legal access while idle (R71, R73). -/
theorem bufRead_ok (hidle : s.phase = .idle) (hok : bufAccessOk P w a = true) :
    bufRead P s w a = .next (respond { s with freePos := (readLittle P s.mem w.bytes a s.freePos).2 }
      (.data (readLittle P s.mem w.bytes a s.freePos).1)) := by
  simp [bufRead, (busy_eq_false_iff s).2 hidle, hok]

theorem bufWrite_ok (hidle : s.phase = .idle) (hok : bufAccessOk P w a = true) :
    bufWrite P s w a v = .next (respond { s with mem := writeLittle w.bytes a v s.mem } .ok) := by
  simp [bufWrite, (busy_eq_false_iff s).2 hidle, hok]

/-- An access while idle that is misaligned or leaves BUF (R71). -/
theorem bufAccess_busError (hidle : s.phase = .idle) (hbad : ¬ bufAccessOk P w a = true) :
    bufRead P s w a = .next (respond s .busError) ∧ bufWrite P s w a v = .next (respond s .busError) := by
  simp [bufRead, bufWrite, (busy_eq_false_iff s).2 hidle, hbad]

/-- Any access while BUSY = 1 (R280). -/
theorem bufAccess_busy (hbusy : s.phase ≠ .idle) :
    bufRead P s w a = .fault (.bufAccessWhileBusy a) ∧ bufWrite P s w a v = .fault (.bufAccessWhileBusy a) := by
  rw [ne_eq, ← busy_eq_false_iff, Bool.not_eq_false] at hbusy
  simp [bufRead, bufWrite, hbusy]

/-- Settles O26, from what `writeLittle` leaves and `readLittle` returns. -/
theorem hostBufLittleEndian : Obligations.HostBufLittleEndian := by
  intro s w a rest hidle halign hend
  have hok := bufAccessOk_iff.2 ⟨halign, hend⟩
  constructor
  · refine fun v hin => ⟨writeLittle w.bytes a v s.mem,
      (step_of_access hin).trans (bufWrite_ok (s := { s with inputs := rest }) hidle hok), fun k hk => ?_, fun x hx => ?_⟩
    · rw [read?_writeLittle, if_pos (by omega), Nat.add_sub_cancel_left]
    · exact (read?_writeLittle x).trans (if_neg hx)
  · refine fun hin => ⟨_, _, (step_of_access hin).trans (bufRead_ok (s := { s with inputs := rest }) hidle hok), ?_, ?_⟩
    · exact fun k b hk hb => readLittle_byte w.bytes_le_four hk hb
    · exact readLittle_lt w.bytes_le_four

/-- Settles O27: BUSY decides first, then alignment and range. -/
theorem hostBufErrors : Obligations.HostBufErrors := by
  intro s w a v rest hin
  constructor
  · intro hidle hbad
    obtain ⟨hread, hwrite⟩ :=
      bufAccess_busError (s := { s with inputs := rest }) (v := v) hidle (bufAccessOk_iff.not.2 hbad)
    exact hin.elim (fun hin => (step_of_access hin).trans hread) fun hin => (step_of_access hin).trans hwrite
  · intro hbusy _
    obtain ⟨hread, hwrite⟩ := bufAccess_busy (P := Config.machine) (s := { s with inputs := rest }) (v := v) hbusy
    exact hin.elim (fun hin => (step_of_access hin).trans hread) fun hin => (step_of_access hin).trans hwrite

/-! ### The register window -/

theorem regAccessOk_iff : regAccessOk w off = true ↔ w = .word ∧ off.toNat % 4 = 0 := by
  cases w <;> simp [regAccessOk]

/-- Settles O28: the rows register by register, then the accesses by whether the window takes them. -/
theorem registerWindowAccess : Obligations.RegisterWindowAccess := by
  refine ⟨fun n => by cases n <;> decide, fun s w off v rest => ⟨fun hbad hin => ?_, fun hw halign hreserved => ?_, ?_⟩⟩
  · rw [← regAccessOk_iff] at hbad
    obtain hin | hin := hin <;> rw [step_of_access hin, hostAccess]
    · simp [regAccessRead, hbad, respond]
    · simp [regAccessWrite, hbad, respond]
  · have hok := regAccessOk_iff.2 ⟨hw, halign⟩
    have hat := regAt_reserved hreserved
    constructor <;> intro hin <;> rw [step_of_access hin, hostAccess]
    · simp [regAccessRead, hok, hat, respond]
    · simp [regAccessWrite, hok, hat, respond]
  · rintro n rfl rfl
    exact ⟨fun hin => by rw [step_of_regRead hin, readReg_inputs]; rfl, step_of_regWrite⟩

end Sys2Proof.Machine
end

section
/-! Decoding and encoding of command words, and the side-information byte taken apart (30_encoding.md R100-R103, R111,
R112). -/

namespace Sys2Proof.Machine

variable {w : Word} {i : Instr} {m m' : Byte}

/-! ### Command words -/

/-- A format CMD32 and its word determine each other (R100). -/
theorem toWord_eq_iff {c : Cmd32} : c.toWord = w ↔ Cmd32.ofWord w = c := by
  constructor
  · rintro rfl
    obtain ⟨opc, rsv⟩ := c
    simp only [Cmd32.ofWord, Cmd32.toWord, Cmd32.mk.injEq]
    constructor
    · exact BitVec.extractLsb'_append_eq_right
    · exact BitVec.extractLsb'_append_eq_left
  · rintro rfl
    exact (BitVec.extractLsb'_append_extractLsb'_eq_extractLsb' (by rfl)).trans BitVec.extractLsb'_eq_self

/-- The opcode map read in its two directions (R101). -/
theorem opcodeCommand_eq_some_iff {opc : BitVec 8} : opcodeCommand opc = some i ↔ opcodeOf i = opc := by
  constructor
  · intro h
    unfold opcodeCommand at h
    split at h <;> cases h <;> exact BitVec.eq_of_toNat_eq (Eq.symm ‹_›)
  · rintro rfl
    cases i <;> rfl

/-- A word selects a command iff RSV = 0 and OPC is that command's (R101, R102). -/
theorem decode_eq_ok_iff : decode w = .ok i ↔ Cmd32.ofWord w = { opc := opcodeOf i, rsv := 0#24 } := by
  unfold decode
  generalize Cmd32.ofWord w = c
  obtain ⟨opc, rsv⟩ := c
  rw [Cmd32.mk.injEq, eq_comm (a := opc), ← opcodeCommand_eq_some_iff]
  by_cases hrsv : rsv = 0#24
  · cases hopc : opcodeCommand opc <;> simp [Cmd32.reservedClear, hrsv, hopc]
  · simp [Cmd32.reservedClear, hrsv]

/-- Settles O3: both sides say that RSV of `w` is 0 and its OPC that of `i`. -/
theorem decodeEncodeAgree : Obligations.DecodeEncodeAgree :=
  fun _ _ => decode_eq_ok_iff.trans toWord_eq_iff.symm

theorem decode_encode (i : Instr) : decode (encode i) = .ok i := (decodeEncodeAgree _ i).2 rfl

/-- The word of a command is `zext_32(OPC)` (R101). -/
theorem encode_toNat (i : Instr) : (encode i).toNat = (opcodeOf i).toNat := by
  cases i <;> rfl

/-- Settles O2: row by row, `encode` gives the word of the table. -/
theorem decodeSelectsTableRows : Obligations.DecodeSelectsTableRows := by
  intro w i
  rw [decodeEncodeAgree, ← BitVec.toNat_inj, encode_toNat, eq_comm]
  cases i <;> simp [opcodeOf]

/-- Settles O1: the ten words are the encodings; each other word fails by the field it has wrong. -/
theorem commandWordsDecode : Obligations.CommandWordsDecode :=
  ⟨decode_encode .nop, decode_encode .predict, decode_encode .blkEmbed, decode_encode .blkExtract,
    decode_encode .embed, decode_encode .extract, decode_encode .split, decode_encode .combine,
    decode_encode .shuffle, decode_encode .unshuffle, rfl, rfl, rfl⟩

/-! ### The side-information byte -/

/-- A byte is malformed exactly if it says INUSE = 1 with COUNT_EP above 4 (R112). -/
theorem mapMalformed_iff : mapMalformed m = true ↔ mapInUse m = true ∧ 4 < mapCount m := by
  have hbit : m.extractLsb' 0 1 = BitVec.ofBool (mapInUse m) := by
    refine BitVec.eq_of_getLsbD_eq fun k hk => ?_
    obtain rfl : k = 0 := by omega
    simp [mapInUse]
  rw [mapMalformed, mapByteWf, hbit, mapCount]
  cases mapInUse m <;> simp

/-- Bits 7:5 take no part in the fields (R110, R112). -/
theorem mapFields_congr (h : m.extractLsb' 0 5 = m'.extractLsb' 0 5) :
    mapInUse m = mapInUse m' ∧ mapRdu m = mapRdu m' ∧ mapCount m = mapCount m' := by
  have hbit : ∀ k, k < 5 → m.getLsbD k = m'.getLsbD k := fun k hk => by
    simpa [hk] using congrArg (BitVec.getLsbD · k) h
  refine ⟨hbit 0 (by decide), hbit 1 (by decide), congrArg BitVec.toNat (BitVec.eq_of_getLsbD_eq fun k hk => ?_)⟩
  simp [hk, hbit (2 + k) (by omega)]

/-- COUNT_EP of a packed byte (R111). -/
theorem mapCount_packMap (rdu : Bool) (c : Fin 5) : mapCount (packMap true rdu c) = c := by
  revert rdu c; decide

/-- Settles O4: the fields are those of the packed byte, whose COUNT_EP is at most 4. -/
theorem mapBytePacking : Obligations.MapBytePacking := by
  refine ⟨rfl, fun rdu c m h => ?_⟩
  obtain ⟨hinUse, hrdu, hcount⟩ := mapFields_congr h
  obtain ⟨hpackInUse, hpackRdu, -, hpack⟩ := packMap_fields rdu c
  rw [mapCount_packMap] at hcount
  refine ⟨hinUse.trans hpackInUse, hrdu.trans hpackRdu, hcount, ?_, ?_⟩
  · rw [← Bool.not_eq_true, mapMalformed_iff]
    omega
  · have := rdu.toNat_le
    rw [hpack, BitVec.toNat_ofNat]
    omega

end Sys2Proof.Machine
end

section
/-! The registers each command writes, and the MAP_FIELD check (30_encoding.md R104, R112; 60_exceptions.md R234). -/

namespace Sys2Proof.Machine

variable {P : Config} {i : Instr} {s t : State} {body : Except Fault (State × ErrCode)} {Q : Regs → Prop}
  {m : Memory}

/-! ### The registers each command writes -/

/-- Wherever the pseudocode ends, its registers meet `Q`. -/
def EndsWith (Q : Regs → Prop) (body : Except Fault (State × ErrCode)) : Prop :=
  ∀ s e, body = .ok (s, e) → Q s.regs

theorem EndsWith.pure {e : ErrCode} (h : Q s.regs) : EndsWith Q (.ok (s, e)) := by
  rintro _ _ ⟨⟩
  exact h

theorem EndsWith.bind {α : Type} {x : Except Fault α} {k : α → Except Fault (State × ErrCode)}
    (h : ∀ a, EndsWith Q (k a)) : EndsWith Q (x >>= k) := by
  intro s e hrun
  obtain ⟨a, -, hk⟩ := bind_ok_iff.1 hrun
  exact h a s e hk

/-- A command leaves the registers as they were or as its pseudocode left them (R235, R236). -/
theorem runCommand_regs (h : runCommand P i s body = .next t) (hkept : Q s.regs) (hbody : EndsWith Q body) :
    Q t.regs := by
  obtain ⟨e, -, rfl⟩ | ⟨-, s', e, hrun, rfl⟩ := runCommand_next_iff.1 h
  · exact hkept
  · exact hbody s' e hrun

/-- Settles O18: command by command, the record that the pseudocode ends with. -/
theorem registersWrittenByCommands : Obligations.RegistersWrittenByCommands := by
  intro i s t h
  cases i with
  | nop =>
    have hrun : nopCommand Config.machine s = .next t := h
    exact runCommand_regs (Q := fun r => r = s.regs) hrun rfl (.pure rfl)
  | predict =>
    exact runCommand_regs (Q := fun r => r = { s.regs with
      predMe1 := r.predMe1, predGuard := r.predGuard, predDhsb0 := r.predDhsb0, predDhsb1 := r.predDhsb1,
      predDhsb2 := r.predDhsb2, predDhsb3 := r.predDhsb3, predDhsb4 := r.predDhsb4 }) h rfl
      (.bind fun _ => .bind fun _ => .pure rfl)
  | blkEmbed =>
    exact runCommand_regs (Q := fun r => r = { s.regs with mapByte := r.mapByte, bitCursor := r.bitCursor }) h rfl
      (.bind fun _ => .pure rfl)
  | blkExtract =>
    exact runCommand_regs (Q := fun r => r = { s.regs with bitCursor := r.bitCursor }) h rfl (.bind fun _ => .pure rfl)
  | embed =>
    exact runCommand_regs (Q := fun r => r = { s.regs with mapLen := r.mapLen, bitCursor := r.bitCursor }) h rfl
      (.bind fun _ => .pure rfl)
  | extract =>
    exact runCommand_regs (Q := fun r => r = { s.regs with outBits := r.outBits, bitCursor := r.bitCursor }) h rfl
      (.bind fun _ => .bind fun _ => .pure rfl)
  | split | combine | shuffle | unshuffle =>
    exact runCommand_regs (Q := fun r => r = s.regs) h rfl (.bind fun _ => .pure rfl)

/-! ### MAP_FIELD -/

/-- MAP_FIELD is reported once every other check passes (R234). -/
theorem firstError_mapField (hops : operandsOk P i s.regs) (happlies : checkApplies .mapField i = true)
    (h : checkFails P i s .mapField = .ok true) : firstError P i s = .ok (some .mapField) := by
  refine firstFailing_eq_some (post := [])
    (pre := [.illegalCommand, .geometry, .mapTooLarge, .length, .outCapacity, .range, .overlap]) happlies h
    fun e he => ?_
  exact operandsOk_iff.2 hops e (List.mem_append_left [ErrCode.mapField] he) (by rintro rfl; simp at he)

/-- A map that passes the check has no malformed byte (R112). -/
theorem wf_of_mapFieldBad_false : ∀ {n a : Nat}, mapFieldBad P m n a = .ok false →
    ∀ k v, k < n → m.read? (a + k) = some v → mapMalformed v = false
  | n + 1, a, h, k, v, hk, hv => by
    obtain ⟨b, hb, h⟩ := bind_ok_iff.1 h
    split at h
    · cases h
    · next hwf =>
      cases k with
      | zero =>
        obtain rfl : b = v := Option.some_inj.1 ((memRead_ok_iff.1 hb).2.symm.trans hv)
        simpa using hwf
      | succ k => exact wf_of_mapFieldBad_false h k v (by omega) (by rwa [Nat.add_right_comm, Nat.add_assoc])

/-- EXTRACT's check finds the malformed byte of a written map that lies in BUF (R112, R234). -/
theorem mapFieldBad_of_malformed (hrange : regionsInRange P .extract s.regs)
    (hwritten : s.mem.written s.regs.mapBase.toNat s.regs.mapLen.toNat) {k : Nat} {v : Byte}
    (hk : k < s.regs.mapLen.toNat) (hv : s.mem.read? (s.regs.mapBase.toNat + k) = some v)
    (hbad : mapMalformed v = true) :
    mapFieldBad P s.mem s.regs.mapLen.toNat s.regs.mapBase.toNat = .ok true := by
  have hreads : Touches P (inSpan s.regs.mapBase.toNat s.regs.mapLen.toNat) (fun _ => False) s.mem
      (mapFieldBad P s.mem s.regs.mapLen.toNat s.regs.mapBase.toNat) (fun _ => s.mem) :=
    mapFieldBad_touches fun j hj => ⟨Nat.le_add_right _ _, Nat.add_lt_add_left hj _⟩
  obtain ⟨bad, h⟩ := hreads.succeeds fun a ha => ⟨lt_bufBytes_of_inRegions hrange
    (inRegions_intro (.tail _ (.tail _ (.head _))) ha), written_of_inSpan hwritten ha⟩
  cases bad with
  | true => exact h
  | false => exact absurd hbad (Bool.eq_false_iff.1 (wf_of_mapFieldBad_false h k v hk hv))

/-- Settles O25: MAP_FIELD is then the first check that fails. -/
theorem mapFieldErrors : Obligations.MapFieldErrors := by
  refine fun s => ⟨fun hops hinUse hcount => ?_, ?_⟩
  · exact exec_of_firstError (firstError_mapField hops rfl (congrArg _ (mapMalformed_iff.2 ⟨hinUse, hcount⟩)))
  · rintro hops hwritten ⟨k, v, hk, hv, hinUse, hcount⟩
    have ⟨_, _, hrange, _⟩ := hops
    exact exec_of_firstError (firstError_mapField hops rfl
      (mapFieldBad_of_malformed hrange hwritten hk hv (mapMalformed_iff.2 ⟨hinUse, hcount⟩)))

end Sys2Proof.Machine
end

section
/-! The script statements SETKEY and RUN as steps (30_encoding.md R120, R121). -/

namespace Sys2Proof.Machine

variable {i : Instr} {s t : State} {n : RegName} {v : Word} {p : List Stmt} {rest : List Input}

/-! ### One statement while idle -/

theorem writeReg_of_idle (hidle : s.phase = .idle) (hrw : accessKind n = .rw) :
    writeReg s n v = { s with regs := storeReg s.regs n v } := by
  rw [writeReg_of_rw hrw, rwWrite, (busy_eq_false_iff s).2 hidle]
  rfl

theorem writeReg_cmd_of_idle (hidle : s.phase = .idle) : writeReg s .cmd v = accept s v := by
  rw [writeReg, cmdWrite, (busy_eq_false_iff s).2 hidle]
  rfl

/-- WR to an RW register, at the head of a script (R120). -/
theorem step_of_wr (hin : s.inputs = scriptInputs (.wr n v :: p) ++ rest) (hidle : s.phase = .idle)
    (hrw : accessKind n = .rw) :
    step s = .next (respond { s with inputs := scriptInputs p ++ rest, regs := storeReg s.regs n v } .ok) := by
  rw [step_of_regWrite (rest := scriptInputs p ++ rest) hin,
    writeReg_of_idle (s := { s with inputs := scriptInputs p ++ rest }) hidle hrw]

/-- A submitted mnemonic, at the head of a script (R120). -/
theorem step_of_submit (hin : s.inputs = scriptInputs (.submit i :: p) ++ rest) (hidle : s.phase = .idle) :
    step s = .next (respond (accept { s with inputs := scriptInputs p ++ rest } (encode i)) .ok) := by
  rw [step_of_regWrite (rest := scriptInputs p ++ rest) hin,
    writeReg_cmd_of_idle (s := { s with inputs := scriptInputs p ++ rest }) hidle]

/-- WAIT while BUSY = 1: the engine completes the accepted command (log 20). -/
theorem step_of_poll_busy (hin : s.inputs = .poll :: rest) (hphase : s.phase = .busy (encode i)) :
    step s = exec i s := by
  have hbusy := (busy_eq_true_iff s).2 ⟨_, hphase⟩
  simp [step, takeTurn, hin, pollTurn, hbusy, engineTurn, hphase, runWord, decode_encode]

/-- WAIT while BUSY = 0: the STATUS read that ends it. -/
theorem step_of_poll_idle (hin : s.inputs = .poll :: rest) (hidle : s.phase = .idle) :
    step s = .next { s with inputs := rest, resp := some (.data (readReg s .status)) } := by
  have hbusy := (busy_eq_false_iff s).2 hidle
  simp [step, takeTurn, hin, pollTurn, hbusy, regAccessRead_regOffset, readReg_inputs, respond]

/-! ### SETKEY and RUN -/

theorem extract_high_append_low (k : Key) : k.extractLsb' 32 32 ++ k.extractLsb' 0 32 = k :=
  (BitVec.extractLsb'_append_extractLsb'_eq_extractLsb' (by rfl)).trans BitVec.extractLsb'_eq_self

/-- A completed command leaves the engine idle and the inputs to come as they were. -/
theorem exec_idle_inputs (h : exec i s = .next t) : t.phase = .idle ∧ t.inputs = s.inputs := by
  obtain ⟨s', e, rfl, heffect⟩ := exec_effect h
  refine ⟨rfl, ?_⟩
  rw [complete_inputs, heffect.frame]

/-- Settles O57: SETKEY is two stores; RUN is the accepted write to CMD, the completion, and the read that ends WAIT. -/
theorem scriptStatements : Obligations.ScriptStatements := by
  constructor
  · intro s k rest hidle hin
    exact ⟨_, _, step_of_wr hin hidle rfl, step_of_wr rfl hidle rfl, extract_high_append_low k, rfl⟩
  · intro s i rest hidle hin
    refine ⟨_, step_of_submit hin hidle, rfl, step_of_poll_busy rfl rfl, fun u hexec => ?_⟩
    obtain ⟨hphase, hinputs⟩ := exec_idle_inputs hexec
    refine ⟨step_of_poll_idle hinputs hphase, ?_⟩
    rwa [readReg, statusWord_busy, busy_eq_false_iff]

end Sys2Proof.Machine
end

section
/-! The peak is the largest of the most frequent residuals, and the histogram table finds the same one
(40_block_codec.md R138, R139). -/

namespace Sys2Proof.Machine

variable {d : Fin 5 → Int} {u v : Int}

theorem mem_epIndices (i : Fin 5) : i ∈ epIndices := by
  revert i; decide

/-! ### The mode -/

theorem residualCount_eq_count (d : Fin 5 → Int) (v : Int) : residualCount d v = (epIndices.map d).count v := by
  rw [List.count_eq_countP, List.countP_map, List.countP_eq_length_filter]
  rfl

theorem residualCount_pos_iff : 0 < residualCount d v ↔ ∃ i, d i = v := by
  simp [residualCount_eq_count, List.count_pos_iff, mem_epIndices]

/-- What the peak is the largest by: the count, then the value (R138). -/
def peakRank (d : Fin 5 → Int) (v : Int) : ℕ ×ₗ ℤ := toLex (residualCount d v, v)

theorem peakRank_le_iff : peakRank d u ≤ peakRank d v ↔
    residualCount d u < residualCount d v ∨ (residualCount d u = residualCount d v ∧ u ≤ v) :=
  Prod.Lex.toLex_le_toLex

theorem beatsPeak_iff : beatsPeak d u v = true ↔ peakRank d u < peakRank d v := by
  rw [peakRank, peakRank, Prod.Lex.toLex_lt_toLex]
  simp [beatsPeak]

/-- One comparison on the way to the peak. -/
def betterPeak (d : Fin 5 → Int) (best : Int) (i : Fin 5) : Int := if beatsPeak d best (d i) then d i else best

theorem peak_eq_foldl (d : Fin 5 → Int) : peak d = epIndices.foldl (betterPeak d) (d 0) := rfl

theorem peakRank_betterPeak (best : Int) (i : Fin 5) :
    peakRank d best ≤ peakRank d (betterPeak d best i) ∧ peakRank d (d i) ≤ peakRank d (betterPeak d best i) := by
  unfold betterPeak
  split
  · next h => exact ⟨(beatsPeak_iff.1 h).le, le_rfl⟩
  · next h => exact ⟨le_rfl, not_lt.1 (mt beatsPeak_iff.2 h)⟩

theorem peakRank_le_foldl : ∀ (is : List (Fin 5)) (best : Int),
    peakRank d best ≤ peakRank d (is.foldl (betterPeak d) best) ∧
      ∀ i ∈ is, peakRank d (d i) ≤ peakRank d (is.foldl (betterPeak d) best)
  | [], _ => ⟨le_rfl, fun _ hi => absurd hi List.not_mem_nil⟩
  | j :: is, best => by
    obtain ⟨hbest, hj⟩ := peakRank_betterPeak (d := d) best j
    obtain ⟨hle, hall⟩ := peakRank_le_foldl is (betterPeak d best j)
    exact ⟨hbest.trans hle, List.forall_mem_cons.2 ⟨hj.trans hle, hall⟩⟩

/-- Settles O36: among the residuals the peak has the largest rank, and any other value does not occur. -/
theorem peakIsMode : Obligations.PeakIsMode := by
  intro d
  obtain ⟨k, hk⟩ := peak_mem d
  refine ⟨⟨k, hk.symm⟩, fun v => ?_⟩
  by_cases hv : ∃ i, d i = v
  · obtain ⟨i, rfl⟩ := hv
    exact peakRank_le_iff.1 ((peakRank_le_foldl epIndices (d 0)).2 i (mem_epIndices i))
  · have hzero := mt residualCount_pos_iff.1 hv
    have hpos := residualCount_pos_iff.2 ⟨k, hk⟩
    omega

/-! ### The histogram table -/

/-- One counter of the table raised for EP `i` (R139). -/
def raiseCounter (d : Fin 5 → Int) (t : List Nat) (i : Fin 5) : List Nat := t.modify (d i + 62).toNat (· + 1)

theorem histogram_eq_foldl (d : Fin 5 → Int) :
    histogram d = epIndices.foldl (raiseCounter d) (List.replicate 125 0) := rfl

/-- Each counter is raised as often as an EP names it. -/
theorem getElem?_foldl_raiseCounter (k : Nat) : ∀ (is : List (Fin 5)) (t : List Nat),
    (is.foldl (raiseCounter d) t)[k]? = t[k]?.map (· + is.countP (fun i => (d i + 62).toNat == k))
  | [], t => by simp
  | i :: is, t => by
    rw [List.foldl_cons, getElem?_foldl_raiseCounter k is, raiseCounter, List.getElem?_modify, List.countP_cons]
    by_cases hk : (d i + 62).toNat = k
    · simp [hk, Function.comp_def, Nat.add_assoc, Nat.add_comm 1]
    · simp [hk]

theorem length_foldl_raiseCounter : ∀ (is : List (Fin 5)) (t : List Nat),
    (is.foldl (raiseCounter d) t).length = t.length
  | [], _ => rfl
  | i :: is, t => by rw [List.foldl_cons, length_foldl_raiseCounter is, raiseCounter, List.length_modify]

theorem histogram_length (d : Fin 5 → Int) : (histogram d).length = 125 := by
  rw [histogram_eq_foldl, length_foldl_raiseCounter, List.length_replicate]

/-- With every residual in range, counter v + 62 holds the count of v (R139). -/
theorem histogram_getElem? (hd : ∀ i, -62 ≤ d i ∧ d i ≤ 62) (hlow : -62 ≤ v) (hhigh : v ≤ 62) :
    (histogram d)[(v + 62).toNat]? = some (residualCount d v) := by
  have hcount : epIndices.countP (fun i => (d i + 62).toNat == (v + 62).toNat) = residualCount d v := by
    rw [residualCount, ← List.countP_eq_length_filter]
    refine List.countP_congr fun i _ => ?_
    have := hd i
    simp only [beq_iff_eq]
    omega
  rw [histogram_eq_foldl, getElem?_foldl_raiseCounter, List.getElem?_replicate, if_pos (by omega), hcount]
  simp

/-- The selected index, with its counter, is the largest by count and then by index, the start value among them (R139). -/
theorem highestLargest_spec : ∀ (cs : List Nat) {k best : Nat} (bestCount : Nat), best ≤ k →
    ∃ c, (c, highestLargest cs k best bestCount) ∈ (bestCount, best) :: cs.zipIdx k ∧
      ∀ p ∈ (bestCount, best) :: cs.zipIdx k, toLex p ≤ toLex (c, highestLargest cs k best bestCount)
  | [], _, _, bestCount, _ => ⟨bestCount, by simp [highestLargest], by simp [highestLargest]⟩
  | n :: cs, k, best, bestCount, hbest => by
    rw [highestLargest, List.zipIdx_cons]
    split
    · next hle =>
      obtain ⟨c, hmem, hall⟩ := highestLargest_spec cs n (Nat.le_succ k)
      have hstart : toLex (bestCount, best) ≤ toLex (n, k) :=
        Prod.Lex.toLex_le_toLex.2 (hle.lt_or_eq.imp_right fun h => ⟨h, hbest⟩)
      exact ⟨c, .tail _ hmem, List.forall_mem_cons.2 ⟨hstart.trans (hall _ (.head _)), hall⟩⟩
    · next hlt =>
      obtain ⟨c, hmem, hall⟩ := highestLargest_spec cs bestCount (Nat.le_succ_of_le hbest)
      have hskip : toLex (n, k) ≤ toLex (bestCount, best) := Prod.Lex.toLex_le_toLex.2 (.inl (not_le.1 hlt))
      obtain ⟨hhead, htail⟩ := List.forall_mem_cons.1 hall
      refine ⟨c, ?_, List.forall_mem_cons.2 ⟨hhead, List.forall_mem_cons.2 ⟨hskip.trans hhead, htail⟩⟩⟩
      exact (List.mem_cons.1 hmem).elim (fun h => h ▸ .head _) fun h => .tail _ (.tail _ h)

/-- Settles O37: the selected counter is at least the peak's, and no count exceeds the peak's, so the two agree. -/
theorem histogramGivesPeak : Obligations.HistogramGivesPeak := by
  intro d hd
  have hcell := fun v => histogram_getElem? (v := v) hd
  refine ⟨histogram_length d, hcell, ?_⟩
  obtain ⟨i, hi⟩ := peak_mem d
  have hpeak : -62 ≤ peak d ∧ peak d ≤ 62 := hi ▸ hd i
  have hpos := residualCount_pos_iff.2 ⟨i, hi⟩
  obtain ⟨c, hmem, hall⟩ := highestLargest_spec (histogram d) 0 (Nat.le_refl 0)
  unfold peakByHistogram
  generalize highestLargest (histogram d) 0 0 0 = r at hmem hall
  have hpeakCell : toLex (residualCount d (peak d), (peak d + 62).toNat) ≤ toLex (c, r) :=
    hall _ (.tail _ (List.mem_zipIdx_iff_getElem?.2 (hcell _ hpeak.1 hpeak.2)))
  rw [Prod.Lex.toLex_le_toLex] at hpeakCell
  have hr : (histogram d)[r]? = some c := by
    obtain h | h := List.mem_cons.1 hmem
    · cases h
      omega
    · exact List.mem_zipIdx_iff_getElem?.1 h
  have hlt : r < 125 := histogram_length d ▸ (List.getElem?_eq_some_iff.1 hr).1
  have hc : c = residualCount d (r - 62) := by
    have := hcell (r - 62) (by omega) (by omega)
    rw [sub_add_cancel, Int.toNat_natCast, hr] at this
    exact Option.some_inj.1 this
  have hmode := (peakIsMode d).2 (r - 62)
  omega

end Sys2Proof.Machine
end

section
/-! The bounds of the residuals, and how they follow a sample of image 1 that moves by 8 (40_block_codec.md R133-R136). -/

namespace Sys2Proof.Machine

variable {a b : Fin 9 → Byte} {i j : Fin 5}

/-- Every EP but the center has two neighbours (R132). -/
theorem epNeighbours_length_of_edge (h : i ≠ 2) : (epNeighbours i).length = 2 := by
  revert i; decide

/-- Settles O34: N_i is within 62 · k_i, and the quotient by k_i within 62. -/
theorem residualRange : Obligations.ResidualRange := by
  intro a b i
  have hsum := residualSum_bounds a b i
  have hcenter := residualSum_bounds a b 2
  have hres := dHsb_bounds a b i
  refine ⟨fun hedge => ?_, ?_, hres, peak_dHsb_bounds a b, fun rdu => ?_⟩
  · rw [epNeighbours_length_of_edge hedge] at hsum
    omega
  · rw [show (epNeighbours 2).length = 4 from rfl] at hcenter
    omega
  · split <;> omega

/-- N_i moves by k_i for each unit that the high part of its EP moves, the neighbours standing still (R134). -/
theorem residualSum_shift {a' : Fin 9 → Byte} {δ : Int} (hs : ∀ s ∈ epNeighbours i, a' s = a s)
    (he : hsb (a' (epPos i)) = hsb (a (epPos i)) + δ) :
    residualSum a' b i = residualSum a b i + ((epNeighbours i).length : Int) * δ := by
  have hsum : (epNeighbours i).map (fun s => hsb (a' s) + hsb (b s)) =
      (epNeighbours i).map (fun s => hsb (a s) + hsb (b s)) :=
    List.map_congr_left fun s h => by rw [hs s h]
  rw [residualSum, residualSum, hsum, he]
  ring

/-- No neighbour of an EP is an EP, so that an EP sample changed leaves the neighbours as they were (R131, R132). -/
theorem update_epPos_neighbour (v : Byte) : ∀ s ∈ epNeighbours j, Function.update a (epPos i) v s = a s :=
  fun _ hs => Function.update_of_ne (epNeighbours_not_ep hs) _ _

/-- A residual reads no EP but its own (R134). -/
theorem dHsb_update_other (v : Byte) (h : j ≠ i) : dHsb (Function.update a (epPos i) v) b j = dHsb a b j := by
  have hown : Function.update a (epPos i) v (epPos j) = a (epPos j) :=
    Function.update_of_ne (fun he => h (epPos_injective he)) _ _
  exact (dHsb_shift (δ := 0) (update_epPos_neighbour v) (by rw [hown, add_zero])).trans (add_zero _)

/-- A residual moves with the high part of its EP (R134). -/
theorem dHsb_update_self {v : Byte} {δ : Int} (h : hsb v = hsb (a (epPos i)) + δ) :
    dHsb (Function.update a (epPos i) v) b i = dHsb a b i + δ :=
  dHsb_shift (update_epPos_neighbour v) (by rw [Function.update_self, h])

/-- Taking 8 from a sample that has it lowers its high part by one (R135). -/
theorem hsb_sub_eight {v : Byte} (h : 8 ≤ v.toNat) : hsb (v - 8) = hsb v - 1 := by
  have hback : v - 8 + 8 = v := BitVec.sub_add_cancel v 8
  have hle : (v - 8).toNat ≤ 247 := by bv_omega
  have := hsb_add_eight hle
  rw [hback] at this
  omega

/-- Settles O35: the high part of the EP moves by one; its own residual follows, and no other reads it. -/
theorem shiftProperty : Obligations.ShiftProperty := by
  refine fun a b i => ⟨fun h => ?_, fun h => ?_⟩
  · have hup := hsb_add_eight h
    refine ⟨hup, ?_, dHsb_update_self hup, fun j hj => dHsb_update_other _ hj⟩
    have := residualSum_shift (b := b) (update_epPos_neighbour (a (epPos i) + 8)) (δ := 1)
      (by rw [Function.update_self, hup])
    rwa [mul_one] at this
  · exact ⟨dHsb_update_self (hsb_sub_eight h), fun j hj => dHsb_update_other _ hj⟩

end Sys2Proof.Machine
end

section
/-! What PREDICT, BLK_EMBED and BLK_EXTRACT leave (40_block_codec.md R137-R142, R156-R158). -/

namespace Sys2Proof.Machine

variable {P : Config} {i : Instr} {s t : State} {r : Regs} {m m' : Memory} {a b : Fin 9 → Byte} {pl : Planes}
  {x y z j : Nat}

/-! ### Where the operands lie -/

theorem width_ge_three (hg : blockGeometry r) : 3 ≤ (planesOf r).w :=
  (Nat.le_add_left _ _).trans hg.2.1

theorem epAddr_inSpan (hg : blockGeometry r) (k : Fin 5) :
    inSpan r.p1Base.toNat (planeBytes r) (epAddr (planesOf r) r.blkX.toNat r.blkY.toNat k) :=
  blockSamples_inSpan hg _ _

theorem payloadByte_inSpan {src total : Nat} (hj : j < total) : inSpan src (ceilDiv total 8) (src + j / 8) :=
  ⟨Nat.le_add_right _ _, Nat.add_lt_add_left (bit_byte_lt hj) _⟩

theorem outputByte_inSpan {dst cap : Nat} (hj : j < 8 * cap) : inSpan dst cap (dst + j / 8) :=
  ⟨Nat.le_add_right _ _, Nat.add_lt_add_left (Nat.div_lt_of_lt_mul hj) _⟩

/-- Image 1 of BLK_EMBED shares no byte with image 2 or the payload (20_memory.md R82, R83). -/
theorem blkEmbed_image1_apart (h : operandsOk P .blkEmbed r) (hz : inSpan r.p1Base.toNat (planeBytes r) z) :
    ¬ inSpan r.p2Base.toNat (planeBytes r) z ∧ ¬ inSpan r.srcBase.toNat (ceilDiv r.bitTotal.toNat 8) z := by
  obtain ⟨-, -, -, hapart⟩ := h
  obtain ⟨himage1, -⟩ := List.pairwise_cons.1 hapart
  exact ⟨fun hz' => himage1 _ (.head _) (.inl rfl) z ⟨hz, hz'⟩,
    fun hz' => himage1 _ (.tail _ (.head _)) (.inl rfl) z ⟨hz, hz'⟩⟩

/-- The output of BLK_EXTRACT shares no byte with the images (20_memory.md R82, R83). -/
theorem blkExtract_output_apart (h : operandsOk P .blkExtract r) (hz : inSpan r.dstBase.toNat r.dstCap.toNat z) :
    ¬ inSpan r.p1Base.toNat (planeBytes r) z ∧ ¬ inSpan r.p2Base.toNat (planeBytes r) z := by
  obtain ⟨-, -, -, hapart⟩ := h
  obtain ⟨himage1, hapart⟩ := List.pairwise_cons.1 hapart
  obtain ⟨himage2, -⟩ := List.pairwise_cons.1 hapart
  exact ⟨fun hz' => himage1 _ (.tail _ (.head _)) (.inl rfl) z ⟨hz', hz⟩,
    fun hz' => himage2 _ (.head _) (.inr rfl) z ⟨hz', hz⟩⟩

theorem payloadByte_ne_epAddr (h : operandsOk P .blkEmbed r) (hj : j < r.bitTotal.toNat) (k : Fin 5) :
    r.srcBase.toNat + j / 8 ≠ epAddr (planesOf r) r.blkX.toNat r.blkY.toNat k := fun he =>
  (blkEmbed_image1_apart h (epAddr_inSpan h.1 k)).2 (he ▸ payloadByte_inSpan hj)

theorem outputByte_ne_epAddr (h : operandsOk P .blkExtract r) (j : Nat) (k : Fin 5) (hj : j < 8 * r.dstCap.toNat) :
    r.dstBase.toNat + j / 8 ≠ epAddr (planesOf r) r.blkX.toNat r.blkY.toNat k := fun he =>
  (blkExtract_output_apart h (outputByte_inSpan hj)).1 (he ▸ epAddr_inSpan h.1.1 k)

/-- A block that memory holds can be read, its plane being one of the command's regions. -/
theorem readBlock_of_holdsBlock {q : Region} (hrange : regionsInRange P i r) (hg : blockGeometry r)
    (hq : q ∈ regionsOf i r) (hlen : q.len = planeBytes r)
    (h : holdsBlock m q.base r.width.toNat r.blkX.toNat r.blkY.toNat a) :
    readBlock P m q.base r.width.toNat r.blkX.toNat r.blkY.toNat = .ok a :=
  readBlock_ok_iff.2 fun p =>
    ⟨lt_bufBytes_of_inRegions hrange (inRegions_intro hq (hlen ▸ blockSamples_inSpan hg _ p)), h p⟩

/-! ### PREDICT -/

theorem hsb_eq_div (v : Byte) : hsb v = ((v.toNat / 8 : Nat) : Int) := by
  rw [hsb, BitVec.toNat_ushiftRight, Nat.shiftRight_eq_div_pow]

theorem exceedsGuard_iff {v : Byte} : exceedsGuard v = true ↔ 247 < v.toNat := decide_eq_true_iff

/-- The guard of both planes (R137). -/
theorem guardHolds_both_iff :
    guardHolds .both a b = true ↔ ∃ k, 247 < (a (epPos k)).toNat ∨ 247 < (b (epPos k)).toNat := by
  simp [guardHolds, mem_epIndices, exceedsGuard_iff]

/-- PREDICT on blocks that can be read (R158). -/
theorem predictCommand_eq (hops : operandsOk P .predict s.regs)
    (ha : readBlock P s.mem s.regs.p1Base.toNat s.regs.width.toNat s.regs.blkX.toNat s.regs.blkY.toNat = .ok a)
    (hb : readBlock P s.mem s.regs.p2Base.toNat s.regs.width.toNat s.regs.blkX.toNat s.regs.blkY.toNat = .ok b) :
    predictCommand P s = .next (complete { s with regs := { s.regs with
      predDhsb0 := signedWord (dHsb a b 0), predDhsb1 := signedWord (dHsb a b 1), predDhsb2 := signedWord (dHsb a b 2),
      predDhsb3 := signedWord (dHsb a b 3), predDhsb4 := signedWord (dHsb a b 4),
      predMe1 := signedWord (peak (dHsb a b)), predGuard := guardHolds P.guardScope a b } } .ok) :=
  runCommand_of_operandsOk hops (fun h => absurd h (by decide))
    (bind_ok_iff.2 ⟨a, ha, bind_ok_iff.2 ⟨b, hb, rfl⟩⟩)

/-- Settles O33: the residuals are those written out, so that their list is the vector the peak is the mode of. -/
theorem predictResult : Obligations.PredictResult := by
  intro s a b hops ha hb h d0 d1 d2 d3 d4 cnt
  have ⟨hg, _, hrange, _⟩ := hops
  have hexec := predictCommand_eq hops (readBlock_of_holdsBlock hrange hg (.head _) rfl ha)
    (readBlock_of_holdsBlock hrange hg (.tail _ (.head _)) rfl hb)
  have hpair : ∀ p, hsb (a p) + hsb (b p) = h p := fun p => by rw [hsb_eq_div, hsb_eq_div]
  have hres : ∀ k, dHsb a b k = ![d0, d1, d2, d3, d4] k := by
    simp [Fin.forall_fin_succ, dHsb, residualSum, epNeighbours, epPos, hpair, d0, d1, d2, d3, d4, add_assoc]
  have hlist : [d0, d1, d2, d3, d4] = epIndices.map (dHsb a b) := by
    simp [epIndices, hres]
  have hcnt : cnt = residualCount (dHsb a b) := funext fun v => by
    rw [residualCount_eq_count, ← hlist]
  obtain ⟨⟨k, hk⟩, hmode⟩ := peakIsMode (dHsb a b)
  refine ⟨peak (dHsb a b), guardHolds .both a b, ?_, hcnt ▸ hmode, ?_, ?_⟩
  · rw [hlist, hk]
    exact List.mem_map_of_mem (mem_epIndices k)
  · rw [guardHolds_both_iff, show [(1 : Fin 9), 3, 4, 5, 7] = epIndices.map epPos from rfl]
    simp [mem_epIndices]
  · simp only [hres] at hexec
    exact hexec

end Sys2Proof.Machine
end

section
/-! What BLK_EMBED and BLK_EXTRACT leave, and where they store (40_block_codec.md R140-R142, R144, R156, R157). -/

namespace Sys2Proof.Machine

variable {P : Config} {s t : State} {r : Regs} {m m' : Memory} {a b : Fin 9 → Byte} {pl : Planes} {x y c dst : Nat}
  {pay : Nat → Bool}

/-! ### The commands in terms of BlockEmbed and BlockExtract -/

/-- The state that BLK_EMBED completes in (R156). -/
def embedded (s : State) (m : Memory) (info : Byte) (c : Nat) : State :=
  { s with mem := m, regs := { s.regs with mapByte := info, bitCursor := BitVec.ofNat 32 c } }

/-- The state that BLK_EXTRACT completes in (R157). -/
def extracted (s : State) (m : Memory) (c : Nat) : State :=
  { s with mem := m, regs := { s.regs with bitCursor := BitVec.ofNat 32 c } }

/-- BlockEmbed as BLK_EMBED calls it (R156). -/
def commandEmbed (P : Config) (r : Regs) (m : Memory) : Except Fault (Memory × Byte × Nat) :=
  blockEmbed P (planesOf r) r.blkX.toNat r.blkY.toNat r.srcBase.toNat r.bitCursor.toNat r.bitTotal.toNat m

/-- BlockExtract as BLK_EXTRACT calls it (R157). -/
def commandExtract (P : Config) (r : Regs) (m : Memory) : Except Fault (Memory × Nat) :=
  blockExtract P (planesOf r) r.blkX.toNat r.blkY.toNat r.dstBase.toNat r.mapByte r.bitCursor.toNat m

theorem blkEmbedCommand_eq {info : Byte} (hops : operandsOk P .blkEmbed s.regs)
    (h : commandEmbed P s.regs s.mem = .ok (m, info, c)) :
    blkEmbedCommand P s = .next (complete (embedded s m info c) .ok) :=
  runCommand_of_operandsOk hops (fun h => absurd h (by decide)) (bind_ok_iff.2 ⟨_, h, rfl⟩)

theorem blkExtractCommand_eq (hops : operandsOk P .blkExtract s.regs) (hwf : mapMalformed s.regs.mapByte = false)
    (h : commandExtract P s.regs s.mem = .ok (m, c)) :
    blkExtractCommand P s = .next (complete (extracted s m c) .ok) :=
  runCommand_of_operandsOk hops (fun _ => congrArg _ hwf) (bind_ok_iff.2 ⟨_, h, rfl⟩)

/-- BLK_EMBED that goes on reports a check, or has embedded. -/
theorem blkEmbedCommand_next (h : blkEmbedCommand P s = .next t) :
    (∃ e, firstError P .blkEmbed s = .ok (some e) ∧ t = complete s e) ∨
    (operandsOk P .blkEmbed s.regs ∧
      ∃ m info c, commandEmbed P s.regs s.mem = .ok (m, info, c) ∧ t = complete (embedded s m info c) .ok) := by
  refine (runCommand_next_iff.1 h).imp_right ?_
  rintro ⟨hchecks, s', e, hrun, rfl⟩
  obtain ⟨⟨m, info, c⟩, hblock, hrun⟩ := bind_ok_iff.1 hrun
  cases hrun
  exact ⟨(firstError_none_iff_operandsOk.1 hchecks).1, m, info, c, hblock, rfl⟩

/-- BLK_EXTRACT that goes on reports a check, or has extracted. -/
theorem blkExtractCommand_next (h : blkExtractCommand P s = .next t) :
    (∃ e, firstError P .blkExtract s = .ok (some e) ∧ t = complete s e) ∨
    (operandsOk P .blkExtract s.regs ∧
      ∃ m c, commandExtract P s.regs s.mem = .ok (m, c) ∧ t = complete (extracted s m c) .ok) := by
  refine (runCommand_next_iff.1 h).imp_right ?_
  rintro ⟨hchecks, s', e, hrun, rfl⟩
  obtain ⟨⟨m, c⟩, hblock, hrun⟩ := bind_ok_iff.1 hrun
  cases hrun
  exact ⟨(firstError_none_iff_operandsOk.1 hchecks).1, m, c, hblock, rfl⟩

/-! ### A block the guard rejects, or the map byte leaves out -/

/-- The guard of both planes decides by their EP samples alone, one above 247 in either being enough (R137, log 15). -/
theorem guardRejects_of_exceeds (hscope : P.guardScope = .both)
    (ha : readEps P m pl.p1 pl.w x y = .ok (fun k => a (epPos k)))
    (hb : readEps P m pl.p2 pl.w x y = .ok (fun k => b (epPos k)))
    (h : ∃ k, 247 < (a (epPos k)).toNat ∨ 247 < (b (epPos k)).toNat) : guardRejects P m pl x y = .ok true := by
  have hany : epIndices.any (fun k => exceedsGuard (a (epPos k)) || exceedsGuard (b (epPos k))) = true :=
    guardHolds_both_iff.2 h
  unfold guardRejects
  rw [ha, hscope]
  exact bind_ok_iff.2 ⟨_, rfl, bind_ok_iff.2 ⟨_, hb, congrArg _ hany⟩⟩

/-- The EP samples of the addressed block, in one of the command's planes (R131). -/
theorem readEps_of_samples {i : Instr} {q : Region} (hrange : regionsInRange P i r) (hg : blockGeometry r)
    (hq : q ∈ regionsOf i r) (hlen : q.len = planeBytes r)
    (h : ∀ k, m.read? (sampleAddr q.base r.width.toNat r.blkX.toNat r.blkY.toNat (epPos k)) = some (a (epPos k))) :
    readEps P m q.base r.width.toNat r.blkX.toNat r.blkY.toNat = .ok (fun k => a (epPos k)) :=
  readEps_ok_iff.2 fun k =>
    ⟨lt_bufBytes_of_inRegions hrange (inRegions_intro hq (hlen ▸ blockSamples_inSpan hg _ _)), h k⟩

/-- A byte with INUSE = 0 is well-formed (R112). -/
theorem mapMalformed_of_unused {info : Byte} (h : mapInUse info = false) : mapMalformed info = false := by
  rw [← Bool.not_eq_true, mapMalformed_iff, h]
  exact fun hbad => absurd hbad.1 Bool.false_ne_true

/-- Settles O38: BlockEmbed returns before it reads a corner, BlockExtract before it reads at all. -/
theorem rejectedBlockUnchanged : Obligations.RejectedBlockUnchanged := by
  refine fun s => ⟨fun a b hops ha hb hexceeds => ?_, fun hops hunused => ?_⟩
  · have ⟨hg, _, hrange, _⟩ := hops
    have hguard := guardRejects_of_exceeds (pl := planesOf s.regs) rfl (readEps_of_samples hrange hg (.head _) rfl ha)
      (readEps_of_samples hrange hg (.tail _ (.head _)) rfl hb) hexceeds
    have hexec := blkEmbedCommand_eq hops (blockEmbed_rejected hguard)
    rw [embedded, BitVec.ofNat_toNat, BitVec.setWidth_eq] at hexec
    exact hexec
  · have hexec := blkExtractCommand_eq hops (mapMalformed_of_unused hunused) (blockExtract_unused hunused)
    rw [extracted, BitVec.ofNat_toNat, BitVec.setWidth_eq] at hexec
    exact hexec

/-! ### An accepted block -/

/-- Each bit BLK_EMBED asks for is there, whatever stands in the EP samples meanwhile (R84, R140). -/
theorem embedBit_of_payloadIs {lo hi j : Nat} (hops : operandsOk P .blkEmbed r)
    (hpay : payloadIs m r.srcBase.toNat r.bitTotal.toNat lo hi pay) (hlo : lo ≤ j) (hhi : j < hi)
    (hm' : ∀ z, (∀ k, z ≠ epAddr (planesOf r) r.blkX.toNat r.blkY.toNat k) → m'.read? z = m.read? z) :
    embedBit P m' r.srcBase.toNat j r.bitTotal.toNat = .ok (pay j) := by
  have ⟨_, _, hrange, _⟩ := hops
  obtain ⟨hbit, hfill⟩ := hpay j hlo hhi
  unfold embedBit
  split
  · next hj =>
    obtain ⟨v, hv, hvj⟩ := hbit hj
    refine payloadBit_ok_iff.2 ⟨v, ?_, (hm' _ (payloadByte_ne_epAddr hops hj)).trans hv, hvj.symm⟩
    exact lt_bufBytes_of_inRegions hrange (inRegions_intro (.tail _ (.tail _ (.head _))) (payloadByte_inSpan hj))
  · next hj => rw [hfill (not_lt.1 hj)]

/-- Settles O39: what BlockEmbed leaves on an accepted block, the bits it takes being `pay`. -/
theorem blkEmbedResult : Obligations.BlkEmbedResult := by
  intro s a b pay hops ha hb hguard d me c n hpay
  have ⟨hg, _, hrange, _⟩ := hops
  have haccept : guardHolds .both a b = false := by
    rw [← Bool.not_eq_true, guardHolds_both_iff]
    rintro ⟨k, hk⟩
    have := hguard k
    omega
  have hread1 := readBlock_of_holdsBlock hrange hg (.head _) rfl ha
  have hread2 := readBlock_of_holdsBlock hrange hg (.tail _ (.head _)) rfl hb
  have hbits := fun j m' hlo hhi hm' => embedBit_of_payloadIs (j := j) (m' := m') hops hpay hlo hhi hm'
  obtain ⟨⟨m, info, c'⟩, hrun⟩ := blockEmbed_succeeds (pl := planesOf s.regs) hread1 hread2 haccept hbits
  obtain ⟨rfl, ⟨first, hfirst, hleast, rfl⟩, heps, hframe⟩ :=
    blockEmbed_accepted (width_ge_three hg) hread1 hread2 haccept hbits hrun
  obtain ⟨-, -, -, hpack⟩ := packMap_fields (pay c) first
  have hexec := blkEmbedCommand_eq hops hrun
  rw [hpack] at hexec
  exact ⟨m, first, hfirst, hleast, residualCount_pos_iff.2 (peak_mem d), residualCount_le d me, hexec, heps, hframe⟩

/-- Settles O40: what BlockExtract leaves, the map byte naming EP `k`. -/
theorem blkExtractResult : Obligations.BlkExtractResult := by
  intro s a b k hops ha hb huse hcount d me carries
  have hcarries : carries = fun i => dHsb a b i == me || dHsb a b i == me + 1 := funext fun i => by
    simp [carries, d, Bool.decide_or, beq_eq_decide]
  clear_value carries
  subst hcarries
  intro c n hout
  have ⟨⟨hg, hcap⟩, _, hrange, _⟩ := hops
  have hread1 := readBlock_of_holdsBlock hrange hg (.head _) rfl ha
  have hread2 := readBlock_of_holdsBlock hrange hg (.tail _ (.head _)) rfl hb
  have hwf : mapMalformed s.regs.mapByte = false := by
    rw [← Bool.not_eq_true, mapMalformed_iff]
    rintro ⟨-, hbad⟩
    have hle : mapCount s.regs.mapByte ≤ 4 := hcount.trans_le (Nat.le_of_lt_succ k.isLt)
    omega
  have hindex : countIndex s.regs.mapByte = k :=
    Fin.ext ((congrArg (· % 5) hcount).trans (Nat.mod_eq_of_lt k.isLt))
  have hme : me = dHsb a b (countIndex s.regs.mapByte) - (if mapRdu s.regs.mapByte then 1 else 0) := by
    rw [hindex]
    rfl
  have hn : n ≤ 5 := List.length_filter_le _ _
  have hbytes : ∀ j, c ≤ j → j < c + n → s.regs.dstBase.toNat + j / 8 < Config.machine.bufBytes ∧
      (s.mem.read? (s.regs.dstBase.toNat + j / 8)).isSome := fun j hlo hhi => by
    have hj : j < 8 * s.regs.dstCap.toNat := by omega
    exact ⟨lt_bufBytes_of_inRegions hrange (inRegions_intro (.tail _ (.tail _ (.head _))) (outputByte_inSpan hj)),
      hout j hlo hhi⟩
  obtain ⟨⟨m, c'⟩, hrun⟩ := blockExtract_succeeds (pl := planesOf s.regs) hread1 hread2 huse hme hbytes
  obtain ⟨rfl, heps, hbits, hother, hframe⟩ := blockExtract_used (width_ge_three hg) hread1 hread2 huse hme
    (outputByte_ne_epAddr hops) hcap hrun
  refine ⟨m, blkExtractCommand_eq hops hwf hrun, heps, fun i hi => ?_, fun j v hv hj hout => ?_, hframe⟩
  · rw [← beq_eq_decide]
    exact bitAt_eq_some_iff.1 (hbits i hi)
  · have hbit := hother j hj hout
    rw [bitAt_eq_some_iff.2 ⟨v, hv, rfl⟩] at hbit
    exact bitAt_eq_some_iff.1 hbit

end Sys2Proof.Machine
end

section
/-! Where the block commands store (40_block_codec.md R140-R142). -/

namespace Sys2Proof.Machine

variable {P : Config} {s t : State} {r : Regs} {m m' : Memory} {a b : Fin 9 → Byte} {pl : Planes}
  {x y c src dst total cap : Nat} {info : Byte}

/-! ### What a run of BlockEmbed or BlockExtract tells -/

/-- BlockEmbed that ends stores to the EP samples of its block only (R140). -/
theorem blockEmbed_frame {res : Memory × Byte × Nat} (h : blockEmbed P pl x y src c total m = .ok res) :
    ∀ z, (∀ k, z ≠ epAddr pl x y k) → res.1.read? z = m.read? z := by
  have htouch : Touches P (fun _ => True) (fun z => ∃ k, z = epAddr pl x y k) m
      (blockEmbed P pl x y src c total m) Prod.fst :=
    blockEmbed_touches (fun _ => trivial) (fun _ => trivial) (fun _ _ => trivial) fun k => ⟨k, rfl⟩
  exact fun z hz => (htouch.kept h).frame z fun ⟨k, hk⟩ => hz k hk

/-- BlockExtract with INUSE = 1 that ends has read both blocks (R142). -/
theorem blockExtract_reads {res : Memory × Nat} (huse : mapInUse info = true)
    (h : blockExtract P pl x y dst info c m = .ok res) :
    ∃ a b, readBlock P m pl.p1 pl.w x y = .ok a ∧ readBlock P m pl.p2 pl.w x y = .ok b := by
  unfold blockExtract at h
  rw [if_pos huse] at h
  obtain ⟨a, ha, h⟩ := bind_ok_iff.1 h
  obtain ⟨b, hb, -⟩ := bind_ok_iff.1 h
  exact ⟨a, b, ha, hb⟩

/-- BlockExtract that ends stores to the EP samples of its block and the bytes of the bits it appends only (R142). -/
theorem blockExtract_frame {res : Memory × Nat} (hw : 3 ≤ pl.w) (hapart : ∀ j k, j < cap → dst + j / 8 ≠ epAddr pl x y k)
    (hcap : c + 5 ≤ cap) (h : blockExtract P pl x y dst info c m = .ok res) :
    ∀ z, (∀ k, z ≠ epAddr pl x y k) → (∀ j, c ≤ j → j < res.2 → z ≠ dst + j / 8) → res.1.read? z = m.read? z := by
  cases huse : mapInUse info with
  | false =>
    rw [blockExtract_unused huse] at h
    cases h
    exact fun _ _ _ => rfl
  | true =>
    obtain ⟨a, b, ha, hb⟩ := blockExtract_reads huse h
    obtain ⟨-, -, -, -, hframe⟩ := blockExtract_used hw ha hb huse rfl hapart hcap h
    exact hframe

/-- The cursor that a block command writes back does not wrap: it moves by at most five (R230, RANGE). -/
theorem toNat_ofNat_cursor {c' : Nat} (hfits : c + 5 ≤ 0xFFFFFFFF) (hle : c' ≤ c + 5) :
    (BitVec.ofNat 32 c').toNat = c' :=
  (BitVec.toNat_ofNat _ _).trans (Nat.mod_eq_of_lt (by omega))

/-- Settles O32: NOP and PREDICT keep BUF as it is; the other two do what BlockEmbed and BlockExtract do, or nothing. -/
theorem blockCommandFrames : Obligations.BlockCommandFrames := by
  refine fun s t => ⟨fun h => ?_, fun h => ?_, fun h z hz => ?_, fun h z hz hout => ?_⟩
  · have hnop : nopCommand Config.machine s = .next t := h
    obtain ⟨e, -, rfl⟩ | ⟨-, s', e, hrun, rfl⟩ := runCommand_next_iff.1 hnop
    · rfl
    · cases hrun
      rfl
  · obtain ⟨e, -, rfl⟩ | ⟨-, s', e, hrun, rfl⟩ := runCommand_next_iff.1 h
    · rfl
    · obtain ⟨a, -, hrun⟩ := bind_ok_iff.1 hrun
      obtain ⟨b, -, hrun⟩ := bind_ok_iff.1 hrun
      cases hrun
      rfl
  · obtain ⟨e, -, rfl⟩ | ⟨-, m, info, c, hrun, rfl⟩ := blkEmbedCommand_next h
    · rfl
    · exact blockEmbed_frame hrun z hz
  · obtain ⟨e, -, rfl⟩ | ⟨hops, m, c, hrun, rfl⟩ := blkExtractCommand_next h
    · rfl
    · have ⟨⟨hg, hcap⟩, hfits, _⟩ := hops
      refine blockExtract_frame (width_ge_three hg) (outputByte_ne_epAddr hops) hcap hrun z hz fun j hlo hhi => ?_
      refine hout j hlo (hhi.trans_eq (toNat_ofNat_cursor hfits (blockExtract_cursor hrun).2).symm)

end Sys2Proof.Machine
end

section
/-! Extraction after embedding restores the block and gives the bits (40_block_codec.md R143). -/

namespace Sys2Proof.Machine

variable {P : Config} {i : Instr} {s : State} {m m' m1 m2 : Memory} {a b : Fin 9 → Byte} {pl : Planes}
  {x y c c1 c2 src dst total cap j : Nat} {info : Byte} {bit : Bool}

/-! ### The bits BlockEmbed takes -/

/-- Whether a bit can be taken, and which it is, depends on its payload byte alone (R84). -/
theorem embedBit_congr (h : j < total → m'.read? (src + j / 8) = m.read? (src + j / 8)) :
    embedBit P m' src j total = embedBit P m src j total := by
  unfold embedBit payloadBit memRead
  split
  · next hj => rw [h hj]
  · rfl

/-- A bit taken is the payload's below `total`, and the filler 0 from there on (R84, 41_driver.md R179). -/
theorem embedBit_ok (h : embedBit P m src j total = .ok bit) :
    (j < total → ∃ v, m.read? (src + j / 8) = some v ∧ bit = v.getLsbD (j % 8)) ∧ (total ≤ j → bit = false) := by
  unfold embedBit at h
  split at h
  · next hj =>
    obtain ⟨v, -, hv, hbit⟩ := payloadBit_ok_iff.1 h
    exact ⟨fun _ => ⟨v, hv, hbit⟩, fun hj' => absurd hj (not_lt.2 hj')⟩
  · next hj =>
    cases h
    exact ⟨fun hj' => absurd hj' hj, fun _ => rfl⟩

/-- The bit that embedding takes at `j`, 0 where it would stop. -/
def takenBit (P : Config) (m : Memory) (src total j : Nat) : Bool := (embedBit P m src j total).toOption.getD false

theorem embedBit_eq_takenBit (h : embedBit P m src j total = .ok bit) :
    embedBit P m src j total = .ok (takenBit P m src total j) := by
  rw [takenBit, h]
  rfl

/-- BlockEmbed that ends has rejected the block, or has accepted it and could take each bit it asked for (R140). -/
theorem blockEmbed_cases {res : Memory × Byte × Nat} (hsrc : ∀ j k, j < total → src + j / 8 ≠ epAddr pl x y k)
    (h : blockEmbed P pl x y src c total m = .ok res) :
    res = (m, 0x00, c) ∨ ∃ a b, readBlock P m pl.p1 pl.w x y = .ok a ∧ readBlock P m pl.p2 pl.w x y = .ok b ∧
      guardHolds P.guardScope a b = false ∧
      ∀ j, c ≤ j → j < c + residualCount (dHsb a b) (peak (dHsb a b)) → ∃ bit, embedBit P m src j total = .ok bit := by
  obtain ⟨rejects, hguard, hrun⟩ := bind_ok_iff.1 h
  cases rejects with
  | true =>
    cases hrun
    exact .inl rfl
  | false =>
    obtain ⟨a, ha, hrun⟩ := bind_ok_iff.1 hrun
    obtain ⟨b, hb, hrun⟩ := bind_ok_iff.1 hrun
    obtain ⟨acc, hacc, -⟩ := bind_ok_iff.1 hrun
    rw [guardRejects_eq ha hb] at hguard
    refine .inr ⟨a, b, ha, hb, Except.ok.inj hguard, fun j hlo hhi => ?_⟩
    obtain ⟨m', bit, hagree, hbit⟩ := embedEps_reads hacc (fun _ _ => rfl) j hlo (hhi.trans_eq (embedEps_cursor hacc).symm)
    exact ⟨bit, embedBit_congr (fun hj => hagree _ fun k => hsrc j k hj) ▸ hbit⟩

/-- A block the guard accepts, whatever its scope, has no EP sample of image 1 above 247 (R137). -/
theorem le_of_guardHolds_false {scope : GuardScope} (h : guardHolds scope a b = false) (k : Fin 5) :
    (a (epPos k)).toNat ≤ 247 := by
  cases scope with
  | both =>
    by_contra hk
    exact absurd (guardHolds_both_iff.2 ⟨k, .inl (not_le.1 hk)⟩) (Bool.eq_false_iff.1 h)
  | img1 =>
    have hall := List.any_eq_false.1 h k (mem_epIndices k)
    rwa [exceedsGuard_iff, not_lt] at hall

/-! ### The round trip -/

/-- BlockExtract by the map byte that BlockEmbed gave, from the same cursor, moves it as far, appends the bits taken, and
puts back every byte but those of its output, which stands apart from the EP samples (R143). -/
theorem blockExtract_blockEmbed (hw : 3 ≤ pl.w) (himage2 : ∀ k p, sampleAddr pl.p2 pl.w x y p ≠ epAddr pl x y k)
    (hsrc : ∀ j k, j < total → src + j / 8 ≠ epAddr pl x y k) (hdst : ∀ j k, j < cap → dst + j / 8 ≠ epAddr pl x y k)
    (hcap : c + 5 ≤ cap) (hembed : blockEmbed P pl x y src c total m = .ok (m1, info, c1))
    (hextract : blockExtract P pl x y dst info c m1 = .ok (m2, c2)) :
    c2 = c1 ∧ (∀ z, (∀ j, c ≤ j → j < c1 → z ≠ dst + j / 8) → m2.read? z = m.read? z) ∧
      ∀ j, c ≤ j → j < c1 → ∃ bit, embedBit P m src j total = .ok bit ∧ bitAt m2 dst j = some bit := by
  obtain hrejected | ⟨a, b, ha, hb, hguard, hbits⟩ := blockEmbed_cases hsrc hembed
  · cases hrejected
    rw [blockExtract_unused rfl] at hextract
    cases hextract
    exact ⟨rfl, fun _ _ => rfl, fun j hlo hhi => absurd hlo (not_le.2 hhi)⟩
  · have htaken : ∀ j m', c ≤ j → j < c + residualCount (dHsb a b) (peak (dHsb a b)) →
        (∀ z, (∀ k, z ≠ epAddr pl x y k) → m'.read? z = m.read? z) →
        embedBit P m' src j total = .ok (takenBit P m src total j) := fun j m' hlo hhi hagree => by
      obtain ⟨bit, hbit⟩ := hbits j hlo hhi
      rw [embedBit_congr fun hj => hagree _ fun k => hsrc j k hj, embedBit_eq_takenBit hbit]
    obtain ⟨rfl, ⟨first, hfirst, hleast, hinfo⟩, heps, hframe⟩ := blockEmbed_accepted hw ha hb hguard htaken hembed
    have huse : mapInUse info = true := by
      rw [show info = _ from hinfo]
      exact (packMap_fields _ first).1
    obtain ⟨a', -, ha', -⟩ := blockExtract_reads huse hextract
    have hread := fun p => (readBlock_ok_iff.1 ha' p).2
    have hcorners : ∀ p, (∀ k, p ≠ epPos k) → a' p = a p := fun p hp => by
      have hsame := hframe (sampleAddr pl.p1 pl.w x y p) fun k he => hp k (sampleAddr_injective hw he)
      exact Option.some_inj.1 ((hread p).symm.trans (hsame.trans (readBlock_ok_iff.1 ha p).2))
    have hmoved := fun k => Option.some_inj.1 ((hread (epPos k)).symm.trans (heps k))
    have hb' : readBlock P m1 pl.p2 pl.w x y = .ok b := readBlock_congr (fun p => hframe _ fun k => himage2 k p) hb
    obtain ⟨hcursor, hback, hout, -, hrest⟩ := blockExtract_of_embedded hw (le_of_guardHolds_false hguard) hfirst hleast
      hinfo hcorners hmoved ha' hb' hdst hcap hextract
    rw [← hcursor]
    refine ⟨rfl, fun z hz => ?_, fun j hlo hhi => ⟨_, ?_, hout j hlo hhi⟩⟩
    · by_cases hep : ∃ k, z = epAddr pl x y k
      · obtain ⟨k, rfl⟩ := hep
        exact (hback k).trans (readBlock_ok_iff.1 ha (epPos k)).2.symm
      · have hne := not_exists.1 hep
        exact (hrest z hne hz).trans (hframe z hne)
    · exact htaken j m hlo (hhi.trans_eq hcursor) fun _ _ => rfl

/-- A failed check never reports OK (R230, R234). -/
theorem firstError_code_ne_zero {e : ErrCode} (h : firstError P i s = .ok (some e)) : e.code ≠ 0x00 := by
  obtain ⟨_, _, _, happlies, _⟩ := firstFailing_some h
  cases e with
  | ok => cases happlies
  | _ => decide

/-- Settles O41: both commands passed their checks, so that the operands meet the hypotheses of the block's round trip. -/
theorem blockRoundTrip : Obligations.BlockRoundTrip := by
  intro s t u db dc hembed hterr hextract huerr
  obtain ⟨e, hfailed, rfl⟩ | ⟨hops, m1, info, c1, hrun1, rfl⟩ := blkEmbedCommand_next hembed
  · exact absurd hterr (firstError_code_ne_zero hfailed)
  obtain ⟨e, hfailed, rfl⟩ | ⟨hops', m2, c2, hrun2, rfl⟩ := blkExtractCommand_next hextract
  · exact absurd huerr (firstError_code_ne_zero hfailed)
  have ⟨hg, hfits, _⟩ := hops
  have hcap : s.regs.bitCursor.toNat + 5 ≤ 8 * dc.toNat := hops'.1.2
  have hmoved : c1 ≤ s.regs.bitCursor.toNat + 5 := (blockEmbed_cursor hrun1).2
  obtain ⟨rfl, hsame, hbits⟩ := blockExtract_blockEmbed (dst := db.toNat) (cap := 8 * dc.toNat) (width_ge_three hg)
    (fun k p he => (blkEmbed_image1_apart hops (epAddr_inSpan hg k)).1 (he ▸ blockSamples_inSpan hg _ p))
    (fun j k hj => payloadByte_ne_epAddr hops hj k) (outputByte_ne_epAddr hops') hcap hrun1 hrun2
  have hcursor := toNat_ofNat_cursor hfits hmoved
  refine ⟨rfl, fun z hz => hsame z fun j hlo hhi he => ?_, fun j hlo hhi => ?_⟩
  · have hj : j < 8 * dc.toNat := hhi.trans_le (hmoved.trans hcap)
    exact (blkExtract_output_apart hops' (he ▸ outputByte_inSpan hj)).1 hz
  · obtain ⟨bit, hbit, hout⟩ := hbits j hlo (hhi.trans_eq hcursor)
    obtain ⟨v, hv, rfl⟩ := bitAt_eq_some_iff.1 hout
    obtain ⟨hpayload, hfiller⟩ := embedBit_ok hbit
    exact ⟨v, hv, hpayload, hfiller⟩

end Sys2Proof.Machine
end

section
/-! The codes a command can end with (60_exceptions.md R230, R234, R237; 41_driver.md R174, R177). -/

namespace Sys2Proof.Machine

variable {P : Config} {i : Instr} {s t : State} {e : ErrCode} {body : Except Fault (State × ErrCode)}
  {Q : ErrCode → Prop}

/-- Wherever the pseudocode ends, its code meets `Q`. -/
def EndsWithCode (Q : ErrCode → Prop) (body : Except Fault (State × ErrCode)) : Prop :=
  ∀ s e, body = .ok (s, e) → Q e

theorem EndsWithCode.pure (h : Q e) : EndsWithCode Q (.ok (s, e)) := by
  rintro _ _ ⟨⟩
  exact h

theorem EndsWithCode.bind {α : Type} {x : Except Fault α} {k : α → Except Fault (State × ErrCode)}
    (h : ∀ a, x = .ok a → EndsWithCode Q (k a)) : EndsWithCode Q (x >>= k) := by
  intro s e hrun
  obtain ⟨a, ha, hk⟩ := bind_ok_iff.1 hrun
  exact h a ha s e hk

/-- The code of a command that goes on is that of a failed check of the command, or one its pseudocode ends with. -/
theorem runCommand_code (h : runCommand P i s body = .next t) (hbody : operandsOk P i s.regs → EndsWithCode Q body) :
    ∃ e, t.err = e.code ∧ (checkApplies e i = true ∨ Q e) := by
  obtain ⟨e, hfailed, rfl⟩ | ⟨hchecks, s', e, hrun, rfl⟩ := runCommand_next_iff.1 h
  · obtain ⟨_, _, _, happlies, _⟩ := firstFailing_some hfailed
    exact ⟨e, rfl, .inl happlies⟩
  · exact ⟨e, rfl, .inr (hbody (firstError_none_iff_operandsOk.1 hchecks).1 s' e hrun)⟩

/-- EXTRACT visits as many blocks as the map has bytes, for the grid has no fewer: MAP_LENGTH_MISMATCH does not arise
(R177). -/
theorem extractLoop_visits {pl : Planes} {hb mapBase dst n left c : Nat} {m : Memory}
    {res : Memory × Nat × Nat} (hn : n ≤ left) (h : extractLoop P pl hb mapBase dst n left 0 c m = .ok res) :
    res.2.1 = n := by
  obtain ⟨hk, -⟩ := extractLoop_ends h
  omega

/-- The codes with which pseudocode ends (R174, R177, R236). -/
def isFinalCode (i : Instr) (e : ErrCode) : Prop := e = .ok ∨ (e = .capacityExceeded ∧ i = .embed)

/-- The code of any command that goes on (R234, R237). -/
theorem exec_code (h : exec i s = .next t) :
    ∃ e, t.err = e.code ∧ (checkApplies e i = true ∨ isFinalCode i e) := by
  cases i with
  | nop =>
    have hrun : nopCommand Config.machine s = .next t := h
    exact runCommand_code hrun fun _ => .pure (.inl rfl)
  | predict => exact runCommand_code h fun _ => .bind fun _ _ => .bind fun _ _ => .pure (.inl rfl)
  | embed =>
    refine runCommand_code h fun _ => .bind fun ⟨m, k, c⟩ _ => .pure ?_
    split
    · exact .inr ⟨rfl, rfl⟩
    · exact .inl rfl
  | extract =>
    refine runCommand_code h fun ⟨⟨_, hn, _⟩, _⟩ => .bind fun m0 _ => .bind fun ⟨m, k, c⟩ hloop => .pure ?_
    exact .inl (if_neg (extractLoop_visits hn hloop).not_lt)
  | blkEmbed | blkExtract | split | combine | shuffle | unshuffle =>
    exact runCommand_code h fun _ => .bind fun _ _ => .pure (.inl rfl)

/-- No check reports OK, a code that arises only in execution, or ILLEGAL_COMMAND (R233, R237). -/
theorem code_of_checkApplies (h : checkApplies e i = true) :
    e.code ≠ 0x00 ∧ e.code ≠ 0x01 ∧ e.code ≠ 0x03 ∧ e.code ≠ 0x10 := by
  cases e with
  | ok | capacityExceeded | mapLengthMismatch | illegalCommand => cases h
  | _ => decide

/-- Settles O20: no check has one of the three codes, and pseudocode ends with OK but for EMBED's CAPACITY_EXCEEDED. -/
theorem errorsDuringExecution : Obligations.ErrorsDuringExecution := by
  intro i s t h
  obtain ⟨e, hcode, happlies | rfl | ⟨rfl, rfl⟩⟩ := exec_code h
  · obtain ⟨-, hcapacity, hmismatch, hillegal⟩ := code_of_checkApplies happlies
    exact hcode ▸ ⟨hmismatch, hillegal, fun h => absurd h hcapacity⟩
  · exact hcode ▸ ⟨by decide, by decide, fun h => absurd h (by decide)⟩
  · exact hcode ▸ ⟨by decide, by decide, fun _ => rfl⟩

end Sys2Proof.Machine
end

section
/-! EMBED and EXTRACT in terms of their two traversals, what their operands keep apart (20_memory.md R82, R83), and where
they store (41_driver.md R172-R177). -/

namespace Sys2Proof.Machine

variable {P : Config} {s t : State} {r : Regs} {m : Memory} {pl : Planes} {hb src mapBase dst total nb left k n c : Nat}

/-! ### The commands in terms of the traversals -/

/-- The state that EMBED completes in, after `n` blocks and `c` bits (R172). -/
def planeEmbedded (s : State) (m : Memory) (n c : Nat) : State :=
  { s with mem := m, regs := { s.regs with mapLen := BitVec.ofNat 32 n, bitCursor := BitVec.ofNat 32 c } }

/-- The code that EMBED completes with, after `c` of `total` bits (R174). -/
def embedCode (total c : Nat) : ErrCode := if c < total then .capacityExceeded else .ok

/-- The state that EXTRACT completes in, after `c` bits (R175). -/
def planeExtracted (s : State) (m : Memory) (c : Nat) : State :=
  { s with mem := m, regs := { s.regs with outBits := BitVec.ofNat 32 c, bitCursor := BitVec.ofNat 32 c } }

/-- The traversal as EMBED calls it (R172). -/
def planeEmbed (P : Config) (r : Regs) (m : Memory) : Except Fault (Memory × Nat × Nat) :=
  embedLoop P (planesOf r) (r.height.toNat / 3) r.srcBase.toNat r.mapBase.toNat (8 * r.len.toNat) (blockCount r) 0 0 m

/-- How many output bytes EXTRACT fills with zeros (R176). -/
def fillLen (r : Regs) : Nat := (5 * r.mapLen.toNat + 7) / 8

theorem five_mul_le_fill (r : Regs) : 5 * r.mapLen.toNat ≤ 8 * fillLen r := by
  unfold fillLen
  omega

/-- The zero fill as EXTRACT calls it (R176). -/
def planeFill (P : Config) (r : Regs) (m : Memory) : Except Fault Memory :=
  zeroFill P (fillLen r) r.dstBase.toNat m

/-- The traversal as EXTRACT calls it (R175). -/
def planeExtract (P : Config) (r : Regs) (m : Memory) : Except Fault (Memory × Nat × Nat) :=
  extractLoop P (planesOf r) (r.height.toNat / 3) r.mapBase.toNat r.dstBase.toNat r.mapLen.toNat (blockCount r) 0 0 m

theorem embedCommand_eq (hops : operandsOk P .embed s.regs) (h : planeEmbed P s.regs s.mem = .ok (m, n, c)) :
    embedCommand P s = .next (complete (planeEmbedded s m n c) (embedCode (8 * s.regs.len.toNat) c)) :=
  runCommand_of_operandsOk hops (fun h => absurd h (by decide)) (bind_ok_iff.2 ⟨_, h, rfl⟩)

theorem extractCommand_eq {m0 : Memory} (hops : operandsOk P .extract s.regs)
    (hwf : mapFieldBad P s.mem s.regs.mapLen.toNat s.regs.mapBase.toNat = .ok false)
    (hfill : planeFill P s.regs s.mem = .ok m0) (h : planeExtract P s.regs m0 = .ok (m, s.regs.mapLen.toNat, c)) :
    extractCommand P s = .next (complete (planeExtracted s m c) .ok) :=
  runCommand_of_operandsOk hops (fun _ => hwf) (bind_ok_iff.2 ⟨m0, hfill, bind_ok_iff.2 ⟨_, h, by
    simp only [lt_irrefl, if_false]; rfl⟩⟩)

/-- EMBED that goes on reports a check, or has traversed the planes. -/
theorem embedCommand_next (h : embedCommand P s = .next t) :
    (∃ e, firstError P .embed s = .ok (some e) ∧ t = complete s e) ∨
    (operandsOk P .embed s.regs ∧ ∃ m n c, planeEmbed P s.regs s.mem = .ok (m, n, c) ∧
      t = complete (planeEmbedded s m n c) (embedCode (8 * s.regs.len.toNat) c)) := by
  refine (runCommand_next_iff.1 h).imp_right ?_
  rintro ⟨hchecks, s', e, hrun, rfl⟩
  obtain ⟨⟨m, n, c⟩, hloop, hrun⟩ := bind_ok_iff.1 hrun
  cases hrun
  exact ⟨(firstError_none_iff_operandsOk.1 hchecks).1, m, n, c, hloop, rfl⟩

/-- EXTRACT that goes on reports a check, or has traversed the planes by the whole map. -/
theorem extractCommand_next (h : extractCommand P s = .next t) :
    (∃ e, firstError P .extract s = .ok (some e) ∧ t = complete s e) ∨
    (operandsOk P .extract s.regs ∧ ∃ m0 m c, planeFill P s.regs s.mem = .ok m0 ∧
      planeExtract P s.regs m0 = .ok (m, s.regs.mapLen.toNat, c) ∧ t = complete (planeExtracted s m c) .ok) := by
  refine (runCommand_next_iff.1 h).imp_right ?_
  rintro ⟨hchecks, s', e, hrun, rfl⟩
  obtain ⟨m0, hfill, hrun⟩ := bind_ok_iff.1 hrun
  obtain ⟨⟨m, k, c⟩, hloop, hrun⟩ := bind_ok_iff.1 hrun
  have ⟨hops, _⟩ := firstError_none_iff_operandsOk.1 hchecks
  have ⟨⟨_, hn, _⟩, _⟩ := hops
  obtain rfl : k = s.regs.mapLen.toNat := extractLoop_visits hn hloop
  simp only [lt_irrefl, if_false] at hrun
  cases hrun
  exact ⟨hops, m0, m, c, hfill, hloop, rfl⟩

/-! ### Where the operands lie -/

/-- Nine samples a block: a plane in range holds few blocks (R171, 20_memory.md R81). -/
theorem nine_mul_blockCount_le {i : Instr} {q : Region} (hrange : regionsInRange P i r) (hq : q ∈ regionsOf i r)
    (hlen : q.len = planeBytes r) : 9 * blockCount r ≤ P.bufBytes := by
  have hplane : 9 * blockCount r ≤ q.len := by
    rw [hlen]
    calc 9 * blockCount r = (3 * (r.width.toNat / 3)) * (3 * (r.height.toNat / 3)) := by rw [blockCount]; ring
      _ ≤ planeBytes r := Nat.mul_le_mul (Nat.mul_div_le _ _) (Nat.mul_div_le _ _)
  have := hrange q hq
  omega

/-- The blocks counted, and the bits they can take, fit in a register. -/
theorem five_mul_blockCount_lt {i : Instr} {q : Region} (hrange : regionsInRange Config.machine i r)
    (hq : q ∈ regionsOf i r) (hlen : q.len = planeBytes r) : 5 * blockCount r < 2 ^ 32 := by
  have := nine_mul_blockCount_le hrange hq hlen
  have := bufBytes_bounds
  omega

theorem toNat_ofNat_of_lt (h : n < 2 ^ 32) : (BitVec.ofNat 32 n).toNat = n :=
  (BitVec.toNat_ofNat _ _).trans (Nat.mod_eq_of_lt h)

/-- What a traversal of `nb` blocks of image 1 rests on: they share no sample with one another or with image 2 (R170). -/
structure BlocksApart (pl : Planes) (hb nb : Nat) : Prop where
  width  : 0 < nb → 3 ≤ pl.w
  blocks : ∀ k j, k < nb → j < nb → k ≠ j → ∀ i p,
    epAddr pl (blockX hb k) (blockY hb k) i ≠ visitAddr pl.p1 pl.w hb j p
  image2 : ∀ k j, k < nb → j < nb → ∀ i p, epAddr pl (blockX hb k) (blockY hb k) i ≠ visitAddr pl.p2 pl.w hb j p

/-- What EMBED's traversal rests on beside: image 1 shares no byte with the payload, and the map none with the images or the
payload (20_memory.md R82, R83). -/
structure EmbedApart (pl : Planes) (hb src mapBase total nb : Nat) : Prop extends BlocksApart pl hb nb where
  payload    : ∀ k j, k < nb → j < total → ∀ i, epAddr pl (blockX hb k) (blockY hb k) i ≠ src + j / 8
  mapImage1  : ∀ k j, k < nb → j < nb → ∀ p, mapBase + k ≠ visitAddr pl.p1 pl.w hb j p
  mapImage2  : ∀ k j, k < nb → j < nb → ∀ p, mapBase + k ≠ visitAddr pl.p2 pl.w hb j p
  mapPayload : ∀ k j, k < nb → j < total → mapBase + k ≠ src + j / 8

/-- What EXTRACT's traversal rests on beside: image 1 shares no byte with the map, and the bytes of the first `cap` output
bits share none with the images or the map (20_memory.md R82, R83). -/
structure ExtractApart (pl : Planes) (hb mapBase dst n cap : Nat) : Prop extends BlocksApart pl hb n where
  map          : ∀ k j, k < n → j < n → ∀ i, epAddr pl (blockX hb k) (blockY hb k) i ≠ mapBase + j
  outputImage1 : ∀ j k, j < cap → k < n → ∀ p, dst + j / 8 ≠ visitAddr pl.p1 pl.w hb k p
  outputImage2 : ∀ j k, j < cap → k < n → ∀ p, dst + j / 8 ≠ visitAddr pl.p2 pl.w hb k p
  outputMap    : ∀ j k, j < cap → k < n → dst + j / 8 ≠ mapBase + k

theorem visitAddr_inSpan (hg : planeGeometry r) (hk : k < blockCount r) (base : Nat) (p : Fin 9) :
    inSpan base (planeBytes r) (visitAddr base (planesOf r).w (r.height.toNat / 3) k p) :=
  visitedSamples_inSpan hg hk base p

theorem epVisit_inSpan (hg : planeGeometry r) (hk : k < blockCount r) (i : Fin 5) : inSpan r.p1Base.toNat (planeBytes r)
    (epAddr (planesOf r) (blockX (r.height.toNat / 3) k) (blockY (r.height.toNat / 3) k) i) :=
  visitedSamples_inSpan hg hk _ _

theorem spanByte {base len j : Nat} (hj : j < len) : inSpan base len (base + j) :=
  ⟨Nat.le_add_right _ _, Nat.add_lt_add_left hj _⟩

/-- Addresses of two regions that share none differ. -/
theorem ne_of_regions_apart {b1 l1 b2 l2 z1 z2 : Nat} (h : ∀ a, ¬ (inSpan b1 l1 a ∧ inSpan b2 l2 a))
    (h1 : inSpan b1 l1 z1) (h2 : inSpan b2 l2 z2) : z1 ≠ z2 := by
  rintro rfl
  exact h _ ⟨h1, h2⟩

/-- Image 1 apart from image 2, in a grid of whole blocks. -/
theorem blocksApart_of (hg : planeGeometry r) (hn : n ≤ blockCount r)
    (h : ∀ z, ¬ (inSpan r.p1Base.toNat (planeBytes r) z ∧ inSpan r.p2Base.toNat (planeBytes r) z)) :
    BlocksApart (planesOf r) (r.height.toNat / 3) n where
  width hpos := (Nat.le_add_left _ _).trans (block_inPlane hg.1 hg.2 (hpos.trans_le hn)).1
  blocks _ _ hk hj hne _ _ he := hne (visitAddr_disjoint hg.1 hg.2 (hk.trans_le hn) (hj.trans_le hn) he)
  image2 _ _ hk hj i p :=
    ne_of_regions_apart h (epVisit_inSpan hg (hk.trans_le hn) i) (visitAddr_inSpan hg (hj.trans_le hn) _ p)

/-- EMBED's OVERLAP check keeps its operands apart. -/
theorem embedApart (h : operandsOk P .embed r) :
    EmbedApart (planesOf r) (r.height.toNat / 3) r.srcBase.toNat r.mapBase.toNat (8 * r.len.toNat) (blockCount r) := by
  obtain ⟨hg, -, -, hapart⟩ := h
  obtain ⟨himage1, hapart⟩ := List.pairwise_cons.1 hapart
  obtain ⟨himage2, hapart⟩ := List.pairwise_cons.1 hapart
  obtain ⟨hpayload, -⟩ := List.pairwise_cons.1 hapart
  have himages := himage1 _ (.head _) (.inl rfl)
  have hmap2 := himage2 _ (.tail _ (.head _)) (.inr rfl)
  have hsrc1 := himage1 _ (.tail _ (.head _)) (.inl rfl)
  have hmap1 := himage1 _ (.tail _ (.tail _ (.head _))) (.inl rfl)
  have hmapSrc := hpayload _ (.head _) (.inr rfl)
  exact {
    toBlocksApart := blocksApart_of hg le_rfl himages
    payload := fun k j hk hj i => ne_of_regions_apart hsrc1 (epVisit_inSpan hg hk i) (outputByte_inSpan hj)
    mapImage1 := fun k j hk hj p => (ne_of_regions_apart hmap1 (visitAddr_inSpan hg hj _ p) (spanByte hk)).symm
    mapImage2 := fun k j hk hj p => (ne_of_regions_apart hmap2 (visitAddr_inSpan hg hj _ p) (spanByte hk)).symm
    mapPayload := fun k j hk hj => (ne_of_regions_apart hmapSrc (outputByte_inSpan hj) (spanByte hk)).symm }

/-- Image 1 of EXTRACT shares no byte with the map or the output (20_memory.md R82, R83). -/
theorem extract_image1_apart (h : operandsOk P .extract r) {z : Nat} (hz : inSpan r.p1Base.toNat (planeBytes r) z) :
    (∀ j, j < r.mapLen.toNat → z ≠ r.mapBase.toNat + j) ∧ ∀ j, j < 8 * fillLen r → z ≠ r.dstBase.toNat + j / 8 := by
  obtain ⟨⟨-, -, hfill⟩, -, -, hapart⟩ := h
  obtain ⟨himage1, -⟩ := List.pairwise_cons.1 hapart
  have hmap := himage1 _ (.tail _ (.head _)) (.inl rfl)
  have hout := himage1 _ (.tail _ (.tail _ (.head _))) (.inl rfl)
  exact ⟨fun j hj => ne_of_regions_apart hmap hz (spanByte hj),
    fun j hj => ne_of_regions_apart hout hz (outputByte_inSpan (hj.trans_le (Nat.mul_le_mul_left 8 hfill)))⟩

/-- EXTRACT's OVERLAP check keeps its operands apart. -/
theorem extractApart (h : operandsOk P .extract r) :
    ExtractApart (planesOf r) (r.height.toNat / 3) r.mapBase.toNat r.dstBase.toNat r.mapLen.toNat (8 * fillLen r) := by
  have ⟨⟨hg, hn, hfill⟩, _, _, hapart⟩ := h
  obtain ⟨himage1, hapart⟩ := List.pairwise_cons.1 hapart
  obtain ⟨himage2, hapart⟩ := List.pairwise_cons.1 hapart
  obtain ⟨hmap, -⟩ := List.pairwise_cons.1 hapart
  have himages := himage1 _ (.head _) (.inl rfl)
  have hout2 := himage2 _ (.tail _ (.head _)) (.inr rfl)
  have houtMap := hmap _ (.head _) (.inr rfl)
  have hout : ∀ {j}, j < 8 * fillLen r → inSpan r.dstBase.toNat r.dstCap.toNat (r.dstBase.toNat + j / 8) :=
    fun hj => outputByte_inSpan (hj.trans_le (Nat.mul_le_mul_left 8 hfill))
  exact {
    toBlocksApart := blocksApart_of hg hn himages
    map := fun k j hk hj i => (extract_image1_apart h (epVisit_inSpan hg (hk.trans_le hn) i)).1 j hj
    outputImage1 := fun j k hj hk p =>
      ((extract_image1_apart h (visitAddr_inSpan hg (hk.trans_le hn) _ p)).2 j hj).symm
    outputImage2 := fun j k hj hk p =>
      (ne_of_regions_apart hout2 (visitAddr_inSpan hg (hk.trans_le hn) _ p) (hout hj)).symm
    outputMap := fun j k hj hk => (ne_of_regions_apart houtMap (spanByte hk) (hout hj)).symm }

/-! ### Where they store -/

/-- EMBED's traversal stores to the EP samples of the blocks it visited and to their map bytes only (R172, R173). -/
theorem embedLoop_frame : ∀ {left k c : Nat} {m : Memory} {res : Memory × Nat × Nat},
    embedLoop P pl hb src mapBase total left k c m = .ok res →
    ∀ z, (∀ j i, k ≤ j → j < res.2.1 → z ≠ epAddr pl (blockX hb j) (blockY hb j) i) →
      (∀ j, k ≤ j → j < res.2.1 → z ≠ mapBase + j) → res.1.read? z = m.read? z
  | 0, k, c, m, res, h, z, _, _ => by cases h; rfl
  | left + 1, k, c, m, res, h, z, hz, hzm => by
    unfold embedLoop at h
    split at h
    · cases h
      rfl
    · obtain ⟨⟨m1, info, c1⟩, hblock, h⟩ := bind_ok_iff.1 h
      obtain ⟨m2, hwrite, h⟩ := bind_ok_iff.1 h
      obtain ⟨-, rfl⟩ := memWrite_ok_iff.1 hwrite
      have hk : k < res.2.1 := (embedLoop_ends h).1
      calc res.1.read? z = (m1.write (mapBase + k) info).read? z :=
            embedLoop_frame h z (fun j i hj => hz j i (by omega)) fun j hj => hzm j (by omega)
        _ = m1.read? z := read?_write_other _ _ (hzm k le_rfl hk)
        _ = m.read? z := blockEmbed_frame hblock z fun i => hz k i le_rfl hk

/-- EXTRACT's traversal stores to the EP samples of the mapped blocks and to the output bytes only (R175, R176). -/
theorem extractLoop_frame {res : Memory × Nat × Nat} (hc : c ≤ 5 * k)
    (h : extractLoop P pl hb mapBase dst n left k c m = .ok res) :
    ∀ z, (∀ j i, k ≤ j → j < n → z ≠ epAddr pl (blockX hb j) (blockY hb j) i) →
      (∀ j, j < 5 * n → z ≠ dst + j / 8) → res.1.read? z = m.read? z := by
  have htouch : Touches P (fun _ => True)
      (fun z => (∃ j i, k ≤ j ∧ j < n ∧ z = epAddr pl (blockX hb j) (blockY hb j) i) ∨ ∃ j, j < 5 * n ∧ z = dst + j / 8) m
      (extractLoop P pl hb mapBase dst n left k c m) Prod.fst :=
    extractLoop_touches hc
      (fun j hj _ hn => ⟨fun _ => trivial, fun _ => trivial, fun i => .inl ⟨j, i, hj, hn, rfl⟩, trivial⟩)
      fun j hj => ⟨trivial, .inr ⟨j, hj, rfl⟩⟩
  refine fun z hz hzd => (htouch.kept h).frame z ?_
  rintro (⟨j, i, hj, hn, he⟩ | ⟨j, hj, he⟩)
  · exact hz j i hj hn he
  · exact hzd j hj he

theorem planeFill_frame {m0 : Memory} (h : planeFill P r m = .ok m0) {z : Nat}
    (hz : ∀ j, j < 8 * fillLen r → z ≠ r.dstBase.toNat + j / 8) : m0.read? z = m.read? z := by
  have htouch : Touches P (fun _ => True) (fun z => ∃ i, i < fillLen r ∧ z = r.dstBase.toNat + i) m (planeFill P r m) id :=
    zeroFill_touches fun i hi => ⟨trivial, i, hi, rfl⟩
  refine (htouch.kept h).frame z ?_
  rintro ⟨i, hi, he⟩
  exact hz (8 * i) (by omega) (by rw [he]; omega)

/-- Settles O43: the blocks visited are those that MAP_LEN counts, their number fitting the register. -/
theorem embedFrame : Obligations.EmbedFrame := by
  intro s t h z hz hzm
  obtain ⟨e, -, rfl⟩ | ⟨hops, m, n, c, hrun, rfl⟩ := embedCommand_next h
  · rfl
  · have ⟨_, _, hrange, _⟩ := hops
    obtain ⟨-, hvisited, -⟩ := embedLoop_ends hrun
    have hfits := five_mul_blockCount_lt hrange (.head _) rfl
    have hmapLen : (BitVec.ofNat 32 n).toNat = n := toNat_ofNat_of_lt (by simp only at hvisited; omega)
    refine embedLoop_frame hrun z (fun j i _ hj => hz j i (hj.trans_eq hmapLen.symm)) fun j _ hj he => hzm ?_
    exact he ▸ spanByte (hj.trans_eq hmapLen.symm)

/-- Settles O46: the zero fill and the traversal store to no other byte. -/
theorem extractFrame : Obligations.ExtractFrame := by
  intro s t h z hz hout
  obtain ⟨e, -, rfl⟩ | ⟨-, m0, m, c, hfill, hrun, rfl⟩ := extractCommand_next h
  · rfl
  · have hne : ∀ j, j < 8 * fillLen s.regs → z ≠ s.regs.dstBase.toNat + j / 8 := fun j hj he =>
      hout (he ▸ outputByte_inSpan hj)
    have hloop := extractLoop_frame le_rfl hrun z (fun j i _ hj => hz j i hj) fun j hj =>
      hne j (hj.trans_le (five_mul_le_fill s.regs))
    exact hloop.trans (planeFill_frame hfill hne)

end Sys2Proof.Machine
end

section
/-! What EMBED and EXTRACT compute, block by block (41_driver.md R170-R180). -/

namespace Sys2Proof.Machine

variable {P : Config} {s : State} {r : Regs} {m : Memory} {info : Byte}

/-! ### EMBED -/

/-- A visited block that memory holds can be read, its plane being one of the command's regions (R170). -/
theorem readBlock_of_holdsVisited {i : Instr} {q : Region} {k : Nat} {a : Fin 9 → Byte} (hrange : regionsInRange P i r)
    (hg : planeGeometry r) (hk : k < blockCount r) (hq : q ∈ regionsOf i r) (hlen : q.len = planeBytes r)
    (h : holdsBlock m q.base r.width.toNat (3 * (k / (r.height.toNat / 3))) (3 * (k % (r.height.toNat / 3))) a) :
    readBlock P m q.base r.width.toNat (blockX (r.height.toNat / 3) k) (blockY (r.height.toNat / 3) k) = .ok a :=
  readBlock_ok_iff.2 fun p =>
    ⟨lt_bufBytes_of_inRegions hrange (inRegions_intro hq (hlen ▸ visitedSamples_inSpan hg hk _ p)), h p⟩

/-- Settles O42: the traversal said whole, with its bounds. -/
theorem embedResult : Obligations.EmbedResult := by
  intro s a b pay hops hb nb total ep hheld hpay d rejected cur
  have ⟨hg, _, hrange, _⟩ := hops
  have hapart := embedApart hops
  have hpayload : ∀ j, j < total → payloadBit Config.machine s.mem s.regs.srcBase.toNat j = .ok (pay j) := fun j hj => by
    obtain ⟨v, hv, hvj⟩ := (hpay j (Nat.zero_le j) (by omega)).1 hj
    exact payloadBit_ok_iff.2 ⟨v, lt_bufBytes_of_inRegions hrange
      (inRegions_intro (.tail _ (.tail _ (.head _))) (outputByte_inSpan hj)), hv, hvj.symm⟩
  obtain ⟨m, n, hrun, -, hn, hbefore, hend, hblocks, -⟩ := embedLoop_values (P := Config.machine) (cur := cur) (a := a)
    (b := b) hapart.width (fun k _ => List.sum_range_succ _ k)
    (fun j hlo hhi => (hpay j (Nat.zero_le j) hhi).2 hlo)
    (fun k hk => lt_bufBytes_of_inRegions hrange
      (inRegions_intro (.tail _ (.tail _ (.tail _ (.head _)))) (spanByte hk)))
    hapart.blocks hapart.image2 hapart.payload hapart.mapImage1 hapart.mapImage2 hapart.mapPayload (Nat.zero_add nb)
    (fun k _ hk => ⟨readBlock_of_holdsVisited hrange hg hk (.head _) rfl (hheld k hk).1,
      readBlock_of_holdsVisited hrange hg hk (.tail _ (.head _)) rfl (hheld k hk).2⟩) hpayload
  obtain ⟨-, -, -, hle, -, hover⟩ := embedLoop_ends hrun
  have hfits := five_mul_blockCount_lt hrange (.head _) rfl
  have hcount : nb = blockCount s.regs := rfl
  have hzero : cur 0 = 0 := rfl
  dsimp only at hle hover
  refine ⟨m, n, (embedCode total (cur n)).code, hn, fun k hk => hbefore k (Nat.zero_le k) hk, hend,
    embedCommand_eq hops hrun, by omega, by omega, by omega, fun hdone => ⟨?_, by omega⟩, fun hshort => ⟨?_, ?_⟩,
    fun k hk => hblocks k (Nat.zero_le k) hk⟩
  · rw [embedCode, if_neg (not_lt.2 hdone)]
    rfl
  · rw [embedCode, if_pos hshort]
    rfl
  · exact hend.resolve_right (not_le.2 hshort)

/-- The payload's bits, 0 from `total` on (20_memory.md R84, 41_driver.md R179). -/
def payloadStream (m : Memory) (src total j : Nat) : Bool := decide (j < total) && (bitAt m src j).getD false

theorem payloadIs_payloadStream {src len hi : Nat} (h : m.written src len) :
    payloadIs m src (8 * len) 0 hi (payloadStream m src (8 * len)) := by
  refine fun j _ _ => ⟨fun hj => ?_, fun hj => ?_⟩
  · obtain ⟨v, hv⟩ := Option.isSome_iff_exists.1 (written_of_inSpan h (outputByte_inSpan hj))
    exact ⟨v, hv, by simp [payloadStream, hj, bitAt, hv]⟩
  · simp [payloadStream, hj]

/-- Settles O44: the cursor after the blocks visited is at most the sum over all of them, and is that sum where EMBED ran
out of blocks. -/
theorem embedCapacity : Obligations.EmbedCapacity := by
  intro s a b hops hpayload hb nb hheld cap
  obtain ⟨m, n, e, hn, -, hend, hexec, hn32, hc32, -, hdone, hshort, -⟩ :=
    embedResult s a b _ hops hheld (payloadIs_payloadStream hpayload)
  let cur := fun k => ((List.range k).map fun j => if guardHolds .both (a j) (b j) then 0
    else residualCount (dHsb (a j) (b j)) (peak (dHsb (a j) (b j)))).sum
  have hmono : Monotone cur := monotone_nat_of_le_succ fun k =>
    (Nat.le_add_right _ _).trans_eq (List.sum_range_succ _ k).symm
  refine ⟨_, hexec, fun hcap => ?_, fun hcap => ?_⟩
  · have hreached : 8 * s.regs.len.toNat ≤ cur n := by
      obtain rfl | hreached := hend
      · exact hcap
      · exact hreached
    exact (hdone hreached).1
  · obtain ⟨he, rfl⟩ := hshort ((hmono hn).trans_lt hcap)
    exact ⟨he, toNat_ofNat_of_lt hn32, toNat_ofNat_of_lt hc32⟩

/-! ### EXTRACT -/

/-- A byte that names an EP in COUNT_EP is well-formed (30_encoding.md R112). -/
theorem mapMalformed_of_mapCount {k : Fin 5} (h : mapCount info = k.val) : mapMalformed info = false := by
  rw [← Bool.not_eq_true, mapMalformed_iff]
  omega

theorem countIndex_of_mapCount {k : Fin 5} (h : mapCount info = k.val) : countIndex info = k :=
  Fin.ext ((congrArg (· % 5) h).trans (Nat.mod_eq_of_lt k.isLt))

theorem outputByte_inRegions (h : operandsOk P .extract r) {j : Nat} (hj : j < 8 * fillLen r) :
    inRegions .extract r (r.dstBase.toNat + j / 8) := by
  obtain ⟨⟨-, -, hfill⟩, -⟩ := h
  exact inRegions_intro (.tail _ (.tail _ (.tail _ (.head _))))
    (outputByte_inSpan (hj.trans_le (Nat.mul_le_mul_left 8 hfill)))

theorem planeFill_succeeds (h : operandsOk P .extract r) : ∃ m0, planeFill P r m = .ok m0 := by
  have ⟨_, _, hrange, _⟩ := h
  refine zeroFill_succeeds fun i hi => lt_bufBytes_of_inRegions hrange ?_
  have hbyte := outputByte_inRegions h (Nat.mul_lt_mul_of_pos_left hi (by decide : 0 < 8))
  rwa [Nat.mul_div_cancel_left i (by decide)] at hbyte

theorem planeFill_zero {m0 : Memory} (h : planeFill P r m = .ok m0) {j : Nat} (hj : j < 8 * fillLen r) :
    m0.read? (r.dstBase.toNat + j / 8) = some 0 :=
  zeroFill_zero h _ (Nat.div_lt_of_lt_mul hj)

/-- Settles O45: the traversal of the planes after the zero fill, said whole; a map byte in use names EP `f k`. -/
theorem extractResult : Obligations.ExtractResult := by
  intro s a b info f hops hb n ep used hmap hused d me carries cur fill
  have ⟨⟨hg, hn, _⟩, _, hrange, _⟩ := hops
  have hapart := extractApart hops
  have hcount : ∀ k, k < n → used k = true → mapCount (info k) = (f k).val := fun k hk hu => (hused k hk hu).1
  have hpeak : ∀ k, k < n → used k = true → recoveredPeak (a k) (b k) (info k) = me k := fun k hk hu => by
    rw [recoveredPeak, countIndex_of_mapCount (hcount k hk hu)]
    rfl
  have hcarries : ∀ k, k < n → used k = true → carriesBit (a k) (b k) (info k) = carries k := fun k hk hu => by
    funext i
    simp only [carriesBit, hpeak k hk hu, carries, Bool.decide_or, beq_eq_decide]
    rfl
  have hread : ∀ k, k < n → memRead Config.machine s.mem (s.regs.mapBase.toNat + k) = .ok (info k) := fun k hk =>
    memRead_eq (lt_bufBytes_of_inRegions hrange (inRegions_intro (.tail _ (.tail _ (.head _))) (spanByte hk))) (hmap k hk)
  have hwf : mapFieldBad Config.machine s.mem n s.regs.mapBase.toNat = .ok false := mapFieldBad_of_wf fun k hk => by
    refine ⟨info k, hread k hk, ?_⟩
    cases hu : used k with
    | false => exact mapMalformed_of_unused hu
    | true => exact mapMalformed_of_mapCount (hcount k hk hu)
  have hcur : ∀ k, k < n → cur (k + 1) = cur k + blockGives (a k) (b k) (info k) := fun k hk => by
    refine (List.sum_range_succ _ k).trans (congrArg _ ?_)
    cases hu : used k with
    | false => rw [blockGives, show mapInUse (info k) = false from hu]; rfl
    | true => rw [blockGives, show mapInUse (info k) = true from hu, hcarries k hk hu]
  obtain ⟨m0, hfill⟩ := planeFill_succeeds (m := s.mem) hops
  have hkept : ∀ {z}, (∀ j, j < 8 * fillLen s.regs → s.regs.dstBase.toNat + j / 8 ≠ z) → m0.read? z = s.mem.read? z :=
    fun hz => planeFill_frame hfill fun j hj he => hz j hj he.symm
  obtain ⟨m, hrun, -, hle, hblocks, hother, hmarks, -⟩ := extractLoop_values (P := Config.machine) (cur := cur) (m := m0)
    (k := 0) (left := blockCount s.regs) hapart.width (five_mul_le_fill s.regs) hcur hapart.blocks hapart.image2
    hapart.map hapart.outputImage1 hapart.outputImage2 hapart.outputMap
    (fun j hj => lt_bufBytes_of_inRegions hrange (outputByte_inRegions hops hj)) (Nat.zero_le n)
    (hn.trans_eq (Nat.zero_add _).symm) (Nat.zero_le _)
    (fun k _ hk => by
      obtain ⟨hlt, hv⟩ := memRead_ok_iff.1 (hread k hk)
      exact memRead_eq hlt ((hkept fun j hj => hapart.outputMap j k hj hk).trans hv))
    (fun k _ hk hu => by
      obtain ⟨-, ha, hb⟩ := hused k hk hu
      exact ⟨readBlock_congr (fun p => hkept fun j hj => hapart.outputImage1 j k hj hk p)
          (readBlock_of_holdsVisited hrange hg (hk.trans_le hn) (.head _) rfl ha),
        readBlock_congr (fun p => hkept fun j hj => hapart.outputImage2 j k hj hk p)
          (readBlock_of_holdsVisited hrange hg (hk.trans_le hn) (.tail _ (.head _)) rfl hb)⟩)
    (fun j hj => by rw [planeFill_zero hfill hj]; rfl)
  have hfits := five_mul_blockCount_lt hrange (.head _) rfl
  have hcur_lt : cur n < 2 ^ 32 := lt_of_le_of_lt (hle.trans (Nat.mul_le_mul_left 5 hn)) hfits
  refine ⟨m, hle, hcur_lt, extractCommand_eq hops hwf hfill hrun, fun i hi => hmarks _ ?_, fun k hk i => ?_,
    fun j hlo hhi => ?_⟩
  · rw [zeroFill_zero hfill i hi]
    rfl
  · obtain ⟨hno, hyes⟩ := hblocks k (Nat.zero_le k) hk
    refine ⟨fun hu => (hno hu i).trans (hkept fun j hj => hapart.outputImage1 j k hj hk _), fun hu => ?_⟩
    obtain ⟨hep, hbit⟩ := hyes hu i
    rw [hpeak k hk hu, hcarries k hk hu] at hbit
    rw [hpeak k hk hu] at hep
    refine ⟨hep, fun hi => ?_⟩
    rw [← beq_eq_decide]
    exact bitAt_eq_some_iff.1 (hbit hi)
  · have hbit := hother j hhi fun h => absurd h.2 (not_lt.2 hlo)
    rw [bitAt_eq_some_iff.2 ⟨0, planeFill_zero hfill hhi, rfl⟩] at hbit
    obtain ⟨v, hv, hvj⟩ := bitAt_eq_some_iff.1 hbit
    exact ⟨v, hv, hvj.trans (by simp)⟩

end Sys2Proof.Machine
end

section
/-! EXTRACT after EMBED restores image 1 and gives the payload and the fillers (41_driver.md R178). -/

namespace Sys2Proof.Machine

variable {P : Config} {r : Regs} {m m0 m1 m2 mE mX : Memory} {pl : Planes}
  {x y hb mapBase c c1 cX src dst total cap left k n nb : Nat} {info : Byte}

/-! ### One block, the rest of BUF having changed -/

/-- `blockExtract_blockEmbed` at a later time: of the memory `mE` it is asked only that the samples of the block stand as
embedding left them. The EP samples come back, the bits taken are appended, and the bits before them
stay (40_block_codec.md R143). -/
theorem blockExtract_of_blockEmbed (hw : 3 ≤ pl.w) (hsrc : ∀ j k, j < total → src + j / 8 ≠ epAddr pl x y k)
    (hdst : ∀ j k, j < cap → dst + j / 8 ≠ epAddr pl x y k) (hcap : c + 5 ≤ cap)
    (hembed : blockEmbed P pl x y src c total m = .ok (m1, info, c1))
    (himage1 : ∀ p, mE.read? (sampleAddr pl.p1 pl.w x y p) = m1.read? (sampleAddr pl.p1 pl.w x y p))
    (himage2 : ∀ p, mE.read? (sampleAddr pl.p2 pl.w x y p) = m.read? (sampleAddr pl.p2 pl.w x y p))
    (hextract : blockExtract P pl x y dst info c mE = .ok (mX, cX)) :
    cX = c1 ∧ (∀ k, mX.read? (epAddr pl x y k) = m.read? (epAddr pl x y k)) ∧
      (∀ j, c ≤ j → j < c1 → ∃ bit, embedBit P m src j total = .ok bit ∧ bitAt mX dst j = some bit) ∧
      ∀ j, j < c → bitAt mX dst j = bitAt mE dst j := by
  obtain hrejected | ⟨a, b, ha, hb, hguard, hbits⟩ := blockEmbed_cases hsrc hembed
  · cases hrejected
    rw [blockExtract_unused rfl] at hextract
    cases hextract
    exact ⟨rfl, fun k => himage1 (epPos k), fun j hlo hhi => absurd hlo (not_le.2 hhi), fun _ _ => rfl⟩
  · have htaken : ∀ j m', c ≤ j → j < c + residualCount (dHsb a b) (peak (dHsb a b)) →
        (∀ z, (∀ k, z ≠ epAddr pl x y k) → m'.read? z = m.read? z) →
        embedBit P m' src j total = .ok (takenBit P m src total j) := fun j m' hlo hhi hagree => by
      obtain ⟨bit, hbit⟩ := hbits j hlo hhi
      rw [embedBit_congr fun hj => hagree _ fun k => hsrc j k hj, embedBit_eq_takenBit hbit]
    obtain ⟨rfl, ⟨first, hfirst, hleast, rfl⟩, heps, hframe⟩ := blockEmbed_accepted hw ha hb hguard htaken hembed
    obtain ⟨a', -, ha', -⟩ := blockExtract_reads (packMap_fields _ first).1 hextract
    have hread := fun p => ((himage1 p).symm.trans (readBlock_ok_iff.1 ha' p).2).symm
    have hcorners : ∀ p, (∀ k, p ≠ epPos k) → a' p = a p := fun p hp => by
      have hsame := hframe (sampleAddr pl.p1 pl.w x y p) fun k he => hp k (sampleAddr_injective hw he)
      exact Option.some_inj.1 ((hread p).trans (hsame.trans (readBlock_ok_iff.1 ha p).2))
    obtain ⟨rfl, hback, hout, hother, -⟩ := blockExtract_of_embedded hw (le_of_guardHolds_false hguard) hfirst hleast
      rfl hcorners (fun k => Option.some_inj.1 ((hread (epPos k)).trans (heps k))) ha' (readBlock_congr himage2 hb) hdst
      hcap hextract
    exact ⟨rfl, fun k => (hback k).trans (readBlock_ok_iff.1 ha (epPos k)).2.symm,
      fun j hlo hhi => ⟨_, htaken j m hlo hhi fun _ _ => rfl, hout j hlo hhi⟩,
      fun j hj => hother j (by omega) fun h => absurd h.1 (not_le.2 hj)⟩

/-! ### The traversals -/

/-- Address `z` is no EP sample of the first `k` blocks of image 1 and holds none of the first `cap` output bits. -/
def OutsideExtraction (pl : Planes) (hb dst cap k z : Nat) : Prop :=
  (∀ j i, j < k → z ≠ epAddr pl (blockX hb j) (blockY hb j) i) ∧ ∀ j, j < cap → z ≠ dst + j / 8

/-- Extracting the first `k` blocks leaves what extracting the next one reads. -/
theorem ExtractApart.outsideExtraction (hX : ExtractApart pl hb mapBase dst n cap) (hk : k < n) :
    OutsideExtraction pl hb dst cap k (mapBase + k) ∧
    (∀ p, OutsideExtraction pl hb dst cap k (visitAddr pl.p1 pl.w hb k p)) ∧
    ∀ p, OutsideExtraction pl hb dst cap k (visitAddr pl.p2 pl.w hb k p) :=
  ⟨⟨fun j i hj => (hX.map j k (hj.trans hk) hk i).symm, fun j hj => (hX.outputMap j k hj hk).symm⟩,
   fun p => ⟨fun j i hj => (hX.blocks j k (hj.trans hk) hk hj.ne i p).symm,
    fun j hj => (hX.outputImage1 j k hj hk p).symm⟩,
   fun p => ⟨fun j i hj => (hX.image2 j k (hj.trans hk) hk i p).symm, fun j hj => (hX.outputImage2 j k hj hk p).symm⟩⟩

/-- Embedding the blocks after block `k` leaves its map byte and its samples in both images. -/
theorem EmbedApart.kept_of_embedLoop {m' : Memory} (hE : EmbedApart pl hb src mapBase total nb) (hk : k < nb)
    (hn : n ≤ nb) (h : embedLoop P pl hb src mapBase total left (k + 1) c m = .ok (m', n, c1)) :
    m'.read? (mapBase + k) = m.read? (mapBase + k) ∧
    (∀ p, m'.read? (visitAddr pl.p1 pl.w hb k p) = m.read? (visitAddr pl.p1 pl.w hb k p)) ∧
    ∀ p, m'.read? (visitAddr pl.p2 pl.w hb k p) = m.read? (visitAddr pl.p2 pl.w hb k p) := by
  have hframe := embedLoop_frame h
  refine ⟨hframe _ (fun j i _ hj => hE.mapImage1 k j hk (hj.trans_le hn) _) fun j hkj _ => by omega,
    fun p => hframe _ (fun j i hkj hj => ?_) fun j _ hj => (hE.mapImage1 j k (hj.trans_le hn) hk p).symm,
    fun p => hframe _ (fun j i _ hj => ?_) fun j _ hj => (hE.mapImage2 j k (hj.trans_le hn) hk p).symm⟩
  · exact (hE.blocks j k (hj.trans_le hn) hk (Nat.ne_of_gt hkj) i p).symm
  · exact (hE.image2 j k (hj.trans_le hn) hk i p).symm

/-- What embedding block `k` changes is no payload byte. -/
theorem EmbedApart.embedBit_of_step {j : Nat} (hE : EmbedApart pl hb src mapBase total nb) (hk : k < nb)
    (h : blockEmbed P pl (blockX hb k) (blockY hb k) src c total m = .ok (m1, info, c1)) :
    embedBit P (m1.write (mapBase + k) info) src j total = embedBit P m src j total :=
  embedBit_congr fun hj => (read?_write_other _ _ (hE.mapPayload k j hk hj).symm).trans
    (blockEmbed_frame h _ fun i => (hE.payload k j hk hj i).symm)

/-- EXTRACT's traversal from block `k` on, by the map of the `n` blocks that EMBED's traversal visited: `mE` is the memory
`m'` that EMBED left but for what extracting the first `k` blocks changed. It puts back what EMBED found in `m`, and appends
the bits taken to those before (R172, R175, R178). -/
theorem extractLoop_embedLoop (hE : EmbedApart pl hb src mapBase total nb)
    (hX : ExtractApart pl hb mapBase dst n cap) (hcap : 5 * n ≤ cap) :
    ∀ {left k c c' kX cX : Nat} {m m' mE mX : Memory}, k + left = nb → c ≤ 5 * k →
      embedLoop P pl hb src mapBase total left k c m = .ok (m', n, c') →
      (∀ z, OutsideExtraction pl hb dst cap k z → mE.read? z = m'.read? z) →
      extractLoop P pl hb mapBase dst n left k c mE = .ok (mX, kX, cX) →
      cX = c' ∧
      (∀ z, OutsideExtraction pl hb dst cap k z → (∀ j, j < n → z ≠ mapBase + j) → mX.read? z = m.read? z) ∧
      (∀ j, c ≤ j → j < c' → ∃ bit, embedBit P m src j total = .ok bit ∧ bitAt mX dst j = some bit) ∧
      ∀ j, j < c → bitAt mX dst j = bitAt mE dst j
  | 0, k, c, c', kX, cX, m, m', mE, mX, _, _, hembed, hagree, hextract => by
    cases hembed
    cases hextract
    exact ⟨rfl, fun z hz _ => hagree z hz, fun j hlo hhi => absurd hlo (not_le.2 hhi), fun _ _ => rfl⟩
  | left + 1, k, c, c', kX, cX, m, m', mE, mX, hk, hc, hembed, hagree, hextract => by
    unfold embedLoop at hembed
    unfold extractLoop at hextract
    split at hembed
    · cases hembed
      rw [if_pos le_rfl] at hextract
      cases hextract
      exact ⟨rfl, fun z hz _ => hagree z hz, fun j hlo hhi => absurd hlo (not_le.2 hhi), fun _ _ => rfl⟩
    obtain ⟨⟨m1, info, c1⟩, hblock, hembed⟩ := bind_ok_iff.1 hembed
    obtain ⟨m2, hwrite, hembed⟩ := bind_ok_iff.1 hembed
    obtain ⟨-, rfl⟩ := memWrite_ok_iff.1 hwrite
    obtain ⟨hkn, hnb, -⟩ := embedLoop_ends hembed
    have hkn : k < n := hkn
    have hnb : n ≤ nb := hnb.trans (by omega)
    have hknb := hkn.trans_le hnb
    obtain ⟨hmap, hkept1, hkept2⟩ := hE.kept_of_embedLoop hknb hnb hembed
    obtain ⟨houtMap, hout1, hout2⟩ := hX.outsideExtraction hkn
    rw [if_neg (not_le.2 hkn)] at hextract
    obtain ⟨info', hinfo, hextract⟩ := bind_ok_iff.1 hextract
    obtain ⟨⟨mE1, cE1⟩, hblock', hextract⟩ := bind_ok_iff.1 hextract
    obtain rfl : info' = info := by
      rw [← hagree _ houtMap, (memRead_ok_iff.1 hinfo).2, read?_write_same] at hmap
      exact Option.some_inj.1 hmap
    have himage1 : ∀ p, mE.read? (visitAddr pl.p1 pl.w hb k p) = m1.read? (visitAddr pl.p1 pl.w hb k p) := fun p =>
      ((hagree _ (hout1 p)).trans (hkept1 p)).trans (read?_write_other _ _ (hE.mapImage1 k k hknb hknb p).symm)
    have himage2 : ∀ p, mE.read? (visitAddr pl.p2 pl.w hb k p) = m.read? (visitAddr pl.p2 pl.w hb k p) := fun p =>
      (((hagree _ (hout2 p)).trans (hkept2 p)).trans (read?_write_other _ _ (hE.mapImage2 k k hknb hknb p).symm)).trans
        (blockEmbed_frame hblock _ fun i => (hE.image2 k k hknb hknb i p).symm)
    have hw := hX.width (Nat.zero_lt_of_lt hkn)
    have hdst : ∀ j i, j < cap → dst + j / 8 ≠ epAddr pl (blockX hb k) (blockY hb k) i := fun j i hj =>
      hX.outputImage1 j k hj hkn (epPos i)
    have hroom : c + 5 ≤ cap := by omega
    obtain ⟨rfl, hback, hbits, hbefore⟩ := blockExtract_of_blockEmbed hw
      (fun j i hj => (hE.payload k j hknb hj i).symm) hdst hroom hblock himage1 himage2 hblock'
    obtain ⟨hlo1, hhi1⟩ : c ≤ cE1 ∧ cE1 ≤ c + 5 := blockEmbed_cursor hblock
    have hagree' : ∀ z, OutsideExtraction pl hb dst cap (k + 1) z → mE1.read? z = m'.read? z := fun z hz =>
      (blockExtract_frame hw hdst hroom hblock' z (fun i => hz.1 k i (Nat.lt_succ_self k))
        fun j _ hj => hz.2 j (hj.trans_le (hhi1.trans hroom))).trans
        (hagree z ⟨fun j i hj => hz.1 j i (Nat.lt_succ_of_lt hj), hz.2⟩)
    have hc1 : cE1 ≤ 5 * (k + 1) := by omega
    obtain ⟨rfl, hrest, hbits', hbefore'⟩ := extractLoop_embedLoop hE hX hcap (left := left) (k := k + 1) (by omega)
      hc1 hembed hagree' hextract
    refine ⟨rfl, fun z hz hzm => ?_, fun j hlo hhi => ?_, fun j hj =>
      (hbefore' j (hj.trans_le hlo1)).trans (hbefore j hj)⟩
    · by_cases hep : ∃ i, z = epAddr pl (blockX hb k) (blockY hb k) i
      · obtain ⟨i, rfl⟩ := hep
        refine (extractLoop_frame hc1 hextract _ (fun j i' hkj hj => ?_) fun j hj => hz.2 j (hj.trans_le hcap)).trans
          (hback i)
        exact (hX.blocks j k hj hkn (Nat.ne_of_gt hkj) i' (epPos i)).symm
      · have hne := not_exists.1 hep
        have hz' : OutsideExtraction pl hb dst cap (k + 1) z :=
          ⟨fun j i hj => (Nat.lt_succ_iff_lt_or_eq.1 hj).elim (hz.1 j i) fun he => he ▸ hne i, hz.2⟩
        calc mX.read? z = (m1.write (mapBase + k) info').read? z := hrest z hz' hzm
          _ = m1.read? z := read?_write_other _ _ (hzm k hkn)
          _ = m.read? z := blockEmbed_frame hblock z hne
    · by_cases hj : j < cE1
      · obtain ⟨bit, hbit, hout⟩ := hbits j hlo hj
        exact ⟨bit, hbit, (hbefore' j hj).trans hout⟩
      · obtain ⟨bit, hbit, hout⟩ := hbits' j (not_lt.1 hj) hhi
        exact ⟨bit, (hE.embedBit_of_step hknb hblock).symm.trans hbit, hout⟩

/-! ### The commands -/

/-- EXTRACT's pseudocode after EMBED's, with the map and the planes it left and any output region (R178). -/
theorem planeExtract_planeEmbed {ml bc db dc : Word} {r' : Regs} {kX : Nat}
    (hr : r' = { r with mapLen := ml, bitCursor := bc, dstBase := db, dstCap := dc })
    (hops : operandsOk P .embed r) (hops' : operandsOk P .extract r') (hembed : planeEmbed P r m = .ok (m1, ml.toNat, c))
    (hfill : planeFill P r' m1 = .ok m0) (hextract : planeExtract P r' m0 = .ok (m2, kX, cX)) :
    cX = c ∧ (∀ z, inSpan r.p1Base.toNat (planeBytes r) z → m2.read? z = m.read? z) ∧
      ∀ j, j < c → ∃ bit, embedBit P m r.srcBase.toNat j (8 * r.len.toNat) = .ok bit ∧ bitAt m2 db.toNat j = some bit := by
  subst hr
  have hapart := extractApart hops'
  have hfits := five_mul_le_fill { r with mapLen := ml, bitCursor := bc, dstBase := db, dstCap := dc }
  obtain ⟨hcursor, hback, hbits, -⟩ := extractLoop_embedLoop (k := 0) (embedApart hops) hapart hfits (Nat.zero_add _)
    le_rfl hembed (fun z hz => planeFill_frame hfill hz.2) hextract
  refine ⟨hcursor, fun z hz => ?_, fun j => hbits j (Nat.zero_le j)⟩
  obtain ⟨hmap, hout⟩ := extract_image1_apart hops' hz
  exact hback z ⟨fun j i hj => absurd hj (Nat.not_lt_zero j), hout⟩ hmap

/-- Settles O47: both commands passed their checks, so that their operands lie apart as the round trip asks. -/
theorem planeRoundTrip : Obligations.PlaneRoundTrip := by
  intro s t u db dc hembed hterr hextract huerr
  obtain ⟨e, hfailed, rfl⟩ | ⟨hops, m1, n, c, hrun1, rfl⟩ := embedCommand_next hembed
  · obtain ⟨_, _, _, happlies, _⟩ := firstFailing_some hfailed
    obtain ⟨hok, hcapacity, -⟩ := code_of_checkApplies happlies
    exact absurd hterr (not_or.2 ⟨hok, hcapacity⟩)
  obtain ⟨e, hfailed, rfl⟩ | ⟨hops', m0, m2, cX, hfill, hrun2, rfl⟩ := extractCommand_next hextract
  · exact absurd huerr (firstError_code_ne_zero hfailed)
  have ⟨_, _, hrange, _⟩ := hops
  have hfits := five_mul_blockCount_lt hrange (.head _) rfl
  obtain ⟨-, hvisited, -, hle, -⟩ := embedLoop_ends hrun1
  simp only at hvisited hle
  have hn : (BitVec.ofNat 32 n).toNat = n := toNat_ofNat_of_lt (by omega)
  have hc : (BitVec.ofNat 32 c).toNat = c := toNat_ofNat_of_lt (by omega)
  obtain ⟨rfl, hback, hbits⟩ := planeExtract_planeEmbed rfl hops hops' (hn.symm ▸ hrun1) hfill hrun2
  refine ⟨rfl, hback, fun j hj => ?_⟩
  obtain ⟨bit, hbit, hout⟩ := hbits j (hj.trans_eq hc)
  obtain ⟨v, hv, rfl⟩ := bitAt_eq_some_iff.1 hout
  obtain ⟨hpayload, hfiller⟩ := embedBit_ok hbit
  exact ⟨v, hv, hpayload, hfiller⟩

end Sys2Proof.Machine
end

section
/-! SPLIT and COMBINE: the two shares of a byte, what the commands leave, and that COMBINE undoes SPLIT
(42_split_combine.md R190-R195). -/

namespace Sys2Proof.Machine

variable {P : Config} {s t : State} {r : Regs} {m m' : Memory} {a : Nat}

/-! ### One byte -/

/-- The shares of R191 fit in a byte: their five high and three low bits are the components that were put there. -/
theorem splitByte_toNat (part : SplitPartition) (v d : Byte) :
    (splitByte part v d).1.toNat = 8 * shareComponent part (v.toNat / 8) (d.toNat / 8)
      + shareComponent part (v.toNat % 8) (d.toNat % 8) ∧
    (splitByte part v d).2.toNat = 8 * (v.toNat / 8 - shareComponent part (v.toNat / 8) (d.toNat / 8))
      + (v.toNat % 8 - shareComponent part (v.toNat % 8) (d.toNat % 8)) := by
  have hv := v.isLt
  have hhigh := shareComponent_le part (v.toNat / 8) (d.toNat / 8)
  have hlow := shareComponent_le part (v.toNat % 8) (d.toNat % 8)
  simp only [splitByte, BitVec.toNat_ofNat]
  omega

/-- Settles O48: each component of the first share is at most that of the source, and the second share takes the rest. -/
theorem sharesSumToSource : Obligations.SharesSumToSource := by
  intro part v d
  obtain ⟨hfst, hsnd⟩ := splitByte_toNat part v d
  have hhigh := shareComponent_le part (v.toNat / 8) (d.toNat / 8)
  have hlow := shareComponent_le part (v.toNat % 8) (d.toNat % 8)
  omega

/-- COMBINE's byte sum of the two shares of a byte is that byte: the wrap of R193 never acts (R194). -/
theorem splitByte_add (part : SplitPartition) (v d : Byte) : (splitByte part v d).1 + (splitByte part v d).2 = v := by
  obtain ⟨-, -, hsum, -⟩ := sharesSumToSource part v d
  refine BitVec.eq_of_toNat_eq ?_
  rw [BitVec.toNat_add, hsum, Nat.mod_eq_of_lt v.isLt]

/-! ### The loops end -/

/-- A byte of a region in range lies in BUF (20_memory.md R81). -/
theorem regionByte_lt {i : Instr} {q : Region} {j : Nat} (hrange : regionsInRange P i r) (hq : q ∈ regionsOf i r)
    (hj : j < q.len) : q.base + j < P.bufBytes :=
  lt_bufBytes_of_inRegions hrange (inRegions_intro hq (spanByte hj))

/-- SPLIT's loop inside BUF ends once its source bytes are written: no store clears a mark (R190). -/
theorem splitLoop_succeeds {src p1 p2 pos : Nat} : ∀ {n i : Nat} {m : Memory},
    (∀ j, i ≤ j → j < i + n → src + j < P.bufBytes ∧ (m.read? (src + j)).isSome ∧ p1 + j < P.bufBytes ∧
      p2 + j < P.bufBytes) → ∃ m', splitLoop P src p1 p2 pos n i m = .ok m'
  | 0, _, m, _ => ⟨m, rfl⟩
  | n + 1, i, m, h => by
    obtain ⟨hsrc, hwritten, hp1, hp2⟩ := h i le_rfl (by omega)
    obtain ⟨v, hv⟩ := Option.isSome_iff_exists.1 hwritten
    have hkept : Kept P (fun _ => True) m ((m.write (p1 + i) (splitByte P.splitPartition v (P.rng8 (pos + i))).1).write
        (p2 + i) (splitByte P.splitPartition v (P.rng8 (pos + i))).2) :=
      (Kept.write _ hp1 trivial).trans (Kept.write _ hp2 trivial)
    obtain ⟨m', hrest⟩ := splitLoop_succeeds (pos := pos) (n := n) (i := i + 1) fun j hlo hhi =>
      have ⟨hsrc, hwritten, hp⟩ := h j (by omega) (by omega)
      ⟨hsrc, hkept.marks _ hwritten, hp⟩
    exact ⟨m', bind_ok_iff.2 ⟨v, memRead_eq hsrc hv, bind_ok_iff.2 ⟨_, memWrite_eq _ hp1,
      bind_ok_iff.2 ⟨_, memWrite_eq _ hp2, hrest⟩⟩⟩⟩

/-- COMBINE's loop inside BUF ends once both shares are written (R193). -/
theorem combineLoop_succeeds {p1 p2 dst : Nat} : ∀ {n i : Nat} {m : Memory},
    (∀ j, i ≤ j → j < i + n → (p1 + j < P.bufBytes ∧ (m.read? (p1 + j)).isSome) ∧
      (p2 + j < P.bufBytes ∧ (m.read? (p2 + j)).isSome) ∧ dst + j < P.bufBytes) →
    ∃ m', combineLoop P p1 p2 dst n i m = .ok m'
  | 0, _, m, _ => ⟨m, rfl⟩
  | n + 1, i, m, h => by
    obtain ⟨⟨hp1, hwritten1⟩, ⟨hp2, hwritten2⟩, hdst⟩ := h i le_rfl (by omega)
    obtain ⟨v, hv⟩ := Option.isSome_iff_exists.1 hwritten1
    obtain ⟨w, hw⟩ := Option.isSome_iff_exists.1 hwritten2
    have hkept : Kept P (fun _ => True) m (m.write (dst + i) (v + w)) := Kept.write _ hdst trivial
    obtain ⟨m', hrest⟩ := combineLoop_succeeds (n := n) (i := i + 1) fun j hlo hhi =>
      have ⟨⟨hp1, hwritten1⟩, ⟨hp2, hwritten2⟩, hdst⟩ := h j (by omega) (by omega)
      ⟨⟨hp1, hkept.marks _ hwritten1⟩, ⟨hp2, hkept.marks _ hwritten2⟩, hdst⟩
    exact ⟨m', bind_ok_iff.2 ⟨v, memRead_eq hp1 hv, bind_ok_iff.2 ⟨w, memRead_eq hp2 hw,
      bind_ok_iff.2 ⟨_, memWrite_eq _ hdst, hrest⟩⟩⟩⟩

/-! ### SPLIT -/

/-- SPLIT's loop on the operands of the command. -/
def splitRun (P : Config) (r : Regs) (pos : Nat) (m : Memory) : Except Fault Memory :=
  splitLoop P r.srcBase.toNat r.p1Base.toNat r.p2Base.toNat pos r.len.toNat 0 m

/-- The state SPLIT completes with, its shares stored in `m`: LEN draws are taken (R195). -/
def splitDone (s : State) (m : Memory) : State :=
  { s with mem := m, rng8Pos := s.rng8Pos + s.regs.len.toNat }

theorem splitCommand_eq (hops : operandsOk P .split s.regs) (h : splitRun P s.regs s.rng8Pos s.mem = .ok m) :
    splitCommand P s = .next (complete (splitDone s m) .ok) :=
  runCommand_of_operandsOk hops (fun h => absurd h (by decide)) (bind_ok_iff.2 ⟨m, h, rfl⟩)

/-- SPLIT that goes on reports a check, or has split the source. -/
theorem splitCommand_next (h : splitCommand P s = .next t) :
    (∃ e, firstError P .split s = .ok (some e) ∧ t = complete s e) ∨
    (operandsOk P .split s.regs ∧
      ∃ m, splitRun P s.regs s.rng8Pos s.mem = .ok m ∧ t = complete (splitDone s m) .ok) := by
  refine (runCommand_next_iff.1 h).imp_right ?_
  rintro ⟨hchecks, s', e, hrun, rfl⟩
  obtain ⟨m, hloop, hrun⟩ := bind_ok_iff.1 hrun
  cases hrun
  exact ⟨(firstError_none_iff_operandsOk.1 hchecks).1, m, hloop, rfl⟩

theorem splitRun_succeeds {pos : Nat} (hrange : regionsInRange P .split r)
    (hwritten : m.written r.srcBase.toNat r.len.toNat) : ∃ m', splitRun P r pos m = .ok m' :=
  splitLoop_succeeds fun j _ hj => by
    rw [Nat.zero_add] at hj
    exact ⟨regionByte_lt hrange (.head _) hj, hwritten j hj, regionByte_lt hrange (.tail _ (.head _)) hj,
      regionByte_lt hrange (.tail _ (.tail _ (.head _))) hj⟩

/-- The shares SPLIT leaves: its OVERLAP check keeps its three regions apart (20_memory.md R82, R83). -/
theorem splitRun_values {pos k : Nat} (hapart : regionsApart .split r) (h : splitRun P r pos m = .ok m')
    (hk : k < r.len.toNat) : ∃ v, m.read? (r.srcBase.toNat + k) = some v ∧
      m'.read? (r.p1Base.toNat + k) = some (splitByte P.splitPartition v (P.rng8 (pos + k))).1 ∧
      m'.read? (r.p2Base.toNat + k) = some (splitByte P.splitPartition v (P.rng8 (pos + k))).2 := by
  obtain ⟨hsrc, hapart⟩ := List.pairwise_cons.1 hapart
  obtain ⟨hshares, -⟩ := List.pairwise_cons.1 hapart
  have hsrc1 := hsrc _ (.head _) (.inr rfl)
  have hsrc2 := hsrc _ (.tail _ (.head _)) (.inr rfl)
  have hshares := hshares _ (.head _) (.inl rfl)
  refine splitLoop_values (fun j j' _ _ hj hj' => ?_) h k (Nat.zero_le k) (by omega)
  rw [Nat.zero_add] at hj hj'
  exact ⟨ne_of_spans_apart hsrc1 hj hj', ne_of_spans_apart hsrc2 hj hj', ne_of_spans_apart hshares hj hj'⟩

theorem inWritten_split_iff : inWritten .split r a ↔
    inSpan r.p1Base.toNat r.len.toNat a ∨ inSpan r.p2Base.toNat r.len.toNat a := by
  simp [inWritten, regionsOf]

/-- Settles O49: the loop ends, its values are the shares under MOD, and it stores to the share regions only. -/
theorem splitResult : Obligations.SplitResult := by
  intro s hops hwritten
  have ⟨_, _, hrange, hapart⟩ := hops
  obtain ⟨m, hrun⟩ := splitRun_succeeds (pos := s.rng8Pos) hrange hwritten
  refine ⟨m, splitCommand_eq hops hrun, fun k v hk hv => ?_, fun a hp1 hp2 => ?_⟩
  · obtain ⟨v', hv', hshares⟩ := splitRun_values hapart hrun hk
    obtain rfl : v = v' := Option.some.inj (hv.symm.trans hv')
    exact hshares
  · exact (split_inRegions.kept hrun).frame a (mt inWritten_split_iff.1 (not_or.2 ⟨hp1, hp2⟩))

/-! ### COMBINE -/

/-- COMBINE's loop on the operands of the command. -/
def combineRun (P : Config) (r : Regs) (m : Memory) : Except Fault Memory :=
  combineLoop P r.p1Base.toNat r.p2Base.toNat r.dstBase.toNat r.len.toNat 0 m

theorem combineCommand_eq (hops : operandsOk P .combine s.regs) (h : combineRun P s.regs s.mem = .ok m) :
    combineCommand P s = .next (complete { s with mem := m } .ok) :=
  runCommand_of_operandsOk hops (fun h => absurd h (by decide)) (bind_ok_iff.2 ⟨m, h, rfl⟩)

/-- COMBINE that goes on reports a check, or has added the shares. -/
theorem combineCommand_next (h : combineCommand P s = .next t) :
    (∃ e, firstError P .combine s = .ok (some e) ∧ t = complete s e) ∨
    (operandsOk P .combine s.regs ∧
      ∃ m, combineRun P s.regs s.mem = .ok m ∧ t = complete { s with mem := m } .ok) := by
  refine (runCommand_next_iff.1 h).imp_right ?_
  rintro ⟨hchecks, s', e, hrun, rfl⟩
  obtain ⟨m, hloop, hrun⟩ := bind_ok_iff.1 hrun
  cases hrun
  exact ⟨(firstError_none_iff_operandsOk.1 hchecks).1, m, hloop, rfl⟩

theorem combineRun_succeeds (hrange : regionsInRange P .combine r) (hwritten1 : m.written r.p1Base.toNat r.len.toNat)
    (hwritten2 : m.written r.p2Base.toNat r.len.toNat) : ∃ m', combineRun P r m = .ok m' :=
  combineLoop_succeeds fun j _ hj => by
    rw [Nat.zero_add] at hj
    exact ⟨⟨regionByte_lt hrange (.head _) hj, hwritten1 j hj⟩,
      ⟨regionByte_lt hrange (.tail _ (.head _)) hj, hwritten2 j hj⟩,
      regionByte_lt hrange (.tail _ (.tail _ (.head _))) hj⟩

/-- The sums COMBINE leaves: its OVERLAP check keeps the result apart from both shares (20_memory.md R82, R83). -/
theorem combineRun_values {k : Nat} (hapart : regionsApart .combine r) (h : combineRun P r m = .ok m')
    (hk : k < r.len.toNat) : ∃ v w, m.read? (r.p1Base.toNat + k) = some v ∧ m.read? (r.p2Base.toNat + k) = some w ∧
      m'.read? (r.dstBase.toNat + k) = some (v + w) := by
  obtain ⟨hp1, hapart⟩ := List.pairwise_cons.1 hapart
  obtain ⟨hp2, -⟩ := List.pairwise_cons.1 hapart
  have hdst1 := hp1 _ (.tail _ (.head _)) (.inr rfl)
  have hdst2 := hp2 _ (.head _) (.inr rfl)
  refine combineLoop_values (fun j j' _ _ hj hj' => ?_) h k (Nat.zero_le k) (by omega)
  rw [Nat.zero_add] at hj hj'
  exact ⟨ne_of_spans_apart hdst1 hj hj', ne_of_spans_apart hdst2 hj hj'⟩

theorem inWritten_combine_iff : inWritten .combine r a ↔ inSpan r.dstBase.toNat r.len.toNat a := by
  simp [inWritten, regionsOf]

/-- Settles O50: the loop ends, its values are the sums, and it stores to the result region only. -/
theorem combineResult : Obligations.CombineResult := by
  intro s hops hwritten1 hwritten2
  have ⟨_, _, hrange, hapart⟩ := hops
  obtain ⟨m, hrun⟩ := combineRun_succeeds hrange hwritten1 hwritten2
  refine ⟨m, combineCommand_eq hops hrun, fun k v w hk hv hw => ?_, fun a hdst => ?_⟩
  · obtain ⟨v', w', hv', hw', hsum⟩ := combineRun_values hapart hrun hk
    obtain rfl : v = v' := Option.some.inj (hv.symm.trans hv')
    obtain rfl : w = w' := Option.some.inj (hw.symm.trans hw')
    have hwrap : v + w = BitVec.ofNat 8 ((v.toNat + w.toNat) % 256) :=
      BitVec.eq_of_toNat_eq (by simp)
    exact hwrap ▸ hsum
  · exact (combine_inRegions.kept hrun).frame a (mt inWritten_combine_iff.1 hdst)

/-! ### COMBINE after SPLIT -/

/-- Settles O51: COMBINE reads at each offset the shares SPLIT stored there, whose sum is the source byte. -/
theorem shareReversibility : Obligations.ShareReversibility := by
  intro P s t u db hsplit hterr hcombine huerr k hk
  obtain ⟨e, hfailed, rfl⟩ | ⟨⟨-, -, -, hapart⟩, m1, hrun1, rfl⟩ := splitCommand_next hsplit
  · exact absurd hterr (firstError_code_ne_zero hfailed)
  obtain ⟨e, hfailed, rfl⟩ | ⟨⟨-, -, -, hapart'⟩, m2, hrun2, rfl⟩ := combineCommand_next hcombine
  · exact absurd huerr (firstError_code_ne_zero hfailed)
  obtain ⟨v, hv, hshare1, hshare2⟩ := splitRun_values hapart hrun1 hk
  obtain ⟨v1, v2, hv1, hv2, hsum⟩ := combineRun_values hapart' hrun2 hk
  obtain rfl := Option.some.inj (hv1.symm.trans hshare1)
  obtain rfl := Option.some.inj (hv2.symm.trans hshare2)
  rw [splitByte_add] at hsum
  exact ⟨Option.isSome_iff_exists.2 ⟨v, hv⟩, hsum.trans hv.symm⟩

end Sys2Proof.Machine
end

section
/-! SHUFFLE and UNSHUFFLE: the array of the Fisher-Yates loop, what the commands leave, and that each undoes the other
(43_permutation.md R200-R206). -/

namespace Sys2Proof.Machine

variable {P : Config} {i : Instr} {s t : State} {r : Regs} {m m' : Memory} {n : Nat} {draw : Nat → Word}
  {moves : List (Nat × Nat)}

/-! ### The index array -/

/-- Entry `c` of the array of R201 after `k` swaps. -/
def entryAfter (n : Nat) (draw : Nat → Word) : (k : Nat) → (c : Nat) → Nat
  | 0, c => c
  | k + 1, c =>
    if c = (draw k).toNat % (n - 1 - k + 1) then entryAfter n draw k (n - 1 - k)
    else if c = n - 1 - k then entryAfter n draw k ((draw k).toNat % (n - 1 - k + 1))
    else entryAfter n draw k c

/-- Swap `k` exchanges entries `i` and `j` of R201 and keeps every other entry. -/
theorem entryAfter_succ {i k j : Nat} (hi : i = n - 1 - k) (hj : j = (draw k).toNat % (i + 1)) :
    entryAfter n draw (k + 1) i = entryAfter n draw k j ∧ entryAfter n draw (k + 1) j = entryAfter n draw k i ∧
      ∀ c, c ≠ i → c ≠ j → entryAfter n draw (k + 1) c = entryAfter n draw k c := by
  subst hi hj
  refine ⟨?_, ?_, fun c hci hcj => ?_⟩
  · rw [entryAfter]
    split
    · next he => rw [← he]
    · rw [if_pos rfl]
  · rw [entryAfter, if_pos rfl]
  · rw [entryAfter, if_neg hcj, if_neg hci]

/-- The loop from `top` on makes the swaps that are left of the n − 1. -/
theorem fisherYates_entryAfter : ∀ {top k : Nat}, top + k = n - 1 →
    fisherYates draw top k ((List.range n).map (entryAfter n draw k)) = (List.range n).map (entryAfter n draw (n - 1))
  | 0, k, h => by rw [fisherYates, ← h, Nat.zero_add]
  | top + 1, k, h => by
    have hi : n - 1 - k = top + 1 := by omega
    have hj : (draw k).toNat % (top + 2) < n := (Nat.mod_lt _ (by omega)).trans_le (by omega)
    have hswap : swapEntries ((List.range n).map (entryAfter n draw k)) (top + 1) ((draw k).toNat % (top + 2)) =
        (List.range n).map (entryAfter n draw (k + 1)) := by
      rw [swapEntries_range_map (by omega) hj]
      refine List.map_congr_left fun c _ => ?_
      rw [entryAfter, hi]
    rw [fisherYates, hswap]
    exact fisherYates_entryAfter (by omega)

theorem permIndex_eq_map_entryAfter (n : Nat) (draw : Nat → Word) :
    permIndex n draw = (List.range n).map (entryAfter n draw (n - 1)) := by
  have hstart : (List.range n).map (entryAfter n draw 0) = List.range n := List.map_id _
  rw [← fisherYates_entryAfter (Nat.add_zero _), hstart, permIndex]

theorem permIndex_perm (n : Nat) (draw : Nat → Word) : (permIndex n draw).Perm (List.range n) := by
  obtain rfl | hn := Nat.eq_zero_or_pos n
  · exact .refl _
  · exact fisherYates_perm (by rw [List.length_range]; omega)

/-- Settles O52: `entryAfter` is the recurrence, each swap only reorders, and the loop takes n − 1 draws. -/
theorem permIsPermutation : Obligations.PermIsPermutation := fun n draw =>
  ⟨⟨entryAfter n draw, fun _ => rfl, fun _ _ _ _ hi hj => entryAfter_succ hi hj, permIndex_eq_map_entryAfter n draw⟩,
   permIndex_perm n draw,
   fun _ hagree => fisherYates_congr fun k _ hk => hagree k (by omega)⟩

/-! ### Moves that rearrange the chunks -/

/-- The moves take each of `n` chunks once as a destination and once as a source. -/
structure Rearranges (n : Nat) (moves : List (Nat × Nat)) : Prop where
  destinations : (moves.map Prod.fst).Perm (List.range n)
  sources      : (moves.map Prod.snd).Perm (List.range n)

theorem Rearranges.nodup (h : Rearranges n moves) : (moves.map Prod.fst).Nodup :=
  h.destinations.nodup_iff.2 List.nodup_range

theorem Rearranges.lt (h : Rearranges n moves) : ∀ p ∈ moves, p.1 < n ∧ p.2 < n := fun _ hp =>
  ⟨List.mem_range.1 (h.destinations.mem_iff.1 (List.mem_map_of_mem hp)),
   List.mem_range.1 (h.sources.mem_iff.1 (List.mem_map_of_mem hp))⟩

theorem Rearranges.exists_of_source (h : Rearranges n moves) {c : Nat} (hc : c < n) : ∃ d, (d, c) ∈ moves := by
  obtain ⟨⟨d, _⟩, hp, rfl⟩ := List.mem_map.1 (h.sources.mem_iff.2 (List.mem_range.2 hc))
  exact ⟨d, hp⟩

theorem Rearranges.exists_of_destination (h : Rearranges n moves) {d : Nat} (hd : d < n) : ∃ c, (d, c) ∈ moves := by
  obtain ⟨⟨_, c⟩, hp, rfl⟩ := List.mem_map.1 (h.destinations.mem_iff.2 (List.mem_range.2 hd))
  exact ⟨c, hp⟩

/-- The reverse of each move rearranges the chunks as well. -/
theorem Rearranges.swap (h : Rearranges n moves) : Rearranges n (moves.map Prod.swap) := by
  constructor
  · rw [List.map_map]
    exact h.sources
  · rw [List.map_map]
    exact h.destinations

/-- SHUFFLE's moves are the reverse of UNSHUFFLE's (R202, R204). -/
theorem unshuffleMoves_map_swap (idx : List Nat) : (unshuffleMoves idx).map Prod.swap = shuffleMoves idx := rfl

theorem shuffleMoves_map_swap (idx : List Nat) : (shuffleMoves idx).map Prod.swap = unshuffleMoves idx := by
  rw [← unshuffleMoves_map_swap, List.map_map, Prod.swap_swap_eq, List.map_id]

theorem unshuffleMoves_rearranges (n : Nat) (draw : Nat → Word) : Rearranges n (unshuffleMoves (permIndex n draw)) := by
  have hperm := permIndex_perm n draw
  constructor
  · rw [unshuffleMoves, List.zipIdx_map_fst]
    exact hperm
  · rw [unshuffleMoves, List.zipIdx_map_snd, hperm.length_eq, List.length_range, ← List.range_eq_range']

theorem shuffleMoves_rearranges (n : Nat) (draw : Nat → Word) : Rearranges n (shuffleMoves (permIndex n draw)) :=
  (unshuffleMoves_rearranges n draw).swap

/-- Moving chunks reads every source chunk, which is therefore written (20_memory.md R86). -/
theorem moveChunks_sources_written {m0 : Memory} {base : Nat} : ∀ {moves : List (Nat × Nat)} {m m' : Memory},
    moveChunks P m0 base moves m = .ok m' → ∀ p ∈ moves, ∀ k, k < 8 → (m0.read? (base + 8 * p.2 + k)).isSome
  | [], _, _, _, _, hp, _, _ => absurd hp List.not_mem_nil
  | (d, c) :: rest, _, _, h, p, hp, k, hk => by
    obtain ⟨m1, hcopy, hrest⟩ := bind_ok_iff.1 h
    obtain rfl | hp := List.mem_cons.1 hp
    · exact ((copyBytes_ok_iff hcopy).2 k hk).1
    · exact moveChunks_sources_written hrest p hp k hk

/-! ### The two commands as one -/

/-- The index array of SHUFFLE and UNSHUFFLE (R202, R204). -/
def chunkIndex (P : Config) (r : Regs) : List Nat := permIndex (r.len.toNat / 8) (P.prng32 (keyOf r))

/-- Command `i` with the pseudocode that moves chunks of the plane at P1_BASE: SHUFFLE and UNSHUFFLE differ in the moves. -/
def permuteCommand (P : Config) (i : Instr) (moves : List (Nat × Nat)) (s : State) : Host.Outcome State Fault Refusal :=
  runCommand P i s (do
    let m ← moveChunks P s.mem s.regs.p1Base.toNat moves s.mem
    .ok ({ s with mem := m }, .ok))

theorem shuffleCommand_eq_permuteCommand :
    shuffleCommand P s = permuteCommand P .shuffle (shuffleMoves (chunkIndex P s.regs)) s := rfl

theorem unshuffleCommand_eq_permuteCommand :
    unshuffleCommand P s = permuteCommand P .unshuffle (unshuffleMoves (chunkIndex P s.regs)) s := rfl

/-- The two commands check the same operands (60_exceptions.md R230, R233). -/
theorem operandsOk_shuffle_iff_unshuffle : operandsOk P .shuffle r ↔ operandsOk P .unshuffle r := Iff.rfl

theorem inWritten_permute_iff {a : Nat} (hi : i = .shuffle ∨ i = .unshuffle) :
    inWritten i r a ↔ inSpan r.p1Base.toNat r.len.toNat a := by
  obtain rfl | rfl := hi
  · simp [inWritten, regionsOf]
  · simp [inWritten, regionsOf]

/-- The plane is in range and its length a multiple of 8 (60_exceptions.md R230). -/
theorem plane_of_operandsOk (hi : i = .shuffle ∨ i = .unshuffle) (hops : operandsOk P i r) :
    r.len.toNat % 8 = 0 ∧ (r.len.toNat = 0 ∨ r.p1Base.toNat + r.len.toNat ≤ P.bufBytes) := by
  obtain ⟨hlen, -, hrange, -⟩ := hops
  obtain rfl | rfl := hi
  · exact ⟨hlen, hrange _ (.head _)⟩
  · exact ⟨hlen, hrange _ (.head _)⟩

/-- Each byte of a plane of whole chunks lies in one of them (R200). -/
theorem exists_chunk_of_inSpan {base len a : Nat} (hlen : len % 8 = 0) (ha : inSpan base len a) :
    ∃ c k, c < len / 8 ∧ k < 8 ∧ a = base + 8 * c + k := by
  obtain ⟨hlo, hhi⟩ := ha
  exact ⟨(a - base) / 8, (a - base) % 8, by omega, by omega, by omega⟩

theorem written_of_chunks {base len : Nat} (hlen : len % 8 = 0)
    (h : ∀ c k, c < len / 8 → k < 8 → (m.read? (base + 8 * c + k)).isSome) : m.written base len := fun j hj => by
  obtain ⟨c, k, hc, hk, he⟩ := exists_chunk_of_inSpan hlen (spanByte (base := base) hj)
  exact he ▸ h c k hc hk

/-- A permutation command that ends with OK has passed its checks, and its plane was written. -/
theorem permuteCommand_completed (hi : i = .shuffle ∨ i = .unshuffle) (hmoves : Rearranges (s.regs.len.toNat / 8) moves)
    (h : permuteCommand P i moves s = .next t) (herr : t.err = 0x00) :
    operandsOk P i s.regs ∧ s.mem.written s.regs.p1Base.toNat s.regs.len.toNat := by
  obtain ⟨e, hfailed, rfl⟩ | ⟨hchecks, s', e, hrun, rfl⟩ := runCommand_next_iff.1 h
  · exact absurd herr (firstError_code_ne_zero hfailed)
  obtain ⟨hops, -⟩ := firstError_none_iff_operandsOk.1 hchecks
  obtain ⟨m, hmove, -⟩ := bind_ok_iff.1 hrun
  refine ⟨hops, written_of_chunks (plane_of_operandsOk hi hops).1 fun c k hc hk => ?_⟩
  obtain ⟨d, hd⟩ := hmoves.exists_of_source hc
  exact moveChunks_sources_written hmove _ hd k hk

/-- On operands that pass and a written plane the command completes; each chunk is moved and only the plane is stored to. -/
theorem permuteCommand_result (hi : i = .shuffle ∨ i = .unshuffle) (hops : operandsOk P i s.regs)
    (hwritten : s.mem.written s.regs.p1Base.toNat s.regs.len.toNat) (hmoves : Rearranges (s.regs.len.toNat / 8) moves) :
    ∃ m, permuteCommand P i moves s = .next (complete { s with mem := m } .ok) ∧
      (∀ d c k, (d, c) ∈ moves → k < 8 →
        m.read? (s.regs.p1Base.toNat + 8 * d + k) = s.mem.read? (s.regs.p1Base.toNat + 8 * c + k)) ∧
      ∀ a, ¬ inSpan s.regs.p1Base.toNat s.regs.len.toNat a → m.read? a = s.mem.read? a := by
  obtain ⟨hlen, hrange⟩ := plane_of_operandsOk hi hops
  have hmapField : checkApplies .mapField i ≠ true := by obtain rfl | rfl := hi <;> decide
  obtain ⟨m, hrun⟩ := moveChunks_succeeds (P := P) (n := s.regs.len.toNat / 8) (m := s.mem)
    (fun j hj => hwritten j (by omega)) (by omega) hmoves.lt
  obtain ⟨hmoved, -⟩ := moveChunks_ok hrun hmoves.nodup
  have hkept := (permute_inRegions hi hmoves.lt).kept hrun
  exact ⟨m, runCommand_of_operandsOk hops (absurd · hmapField) (bind_ok_iff.2 ⟨m, hrun, rfl⟩),
    fun d c k hdc => hmoved _ hdc k, fun a ha => hkept.frame a (mt (inWritten_permute_iff hi).1 ha)⟩

/-- Settles O53: SHUFFLE's moves take chunk idx[c] to chunk c. -/
theorem shuffleResult : Obligations.ShuffleResult := by
  intro s hops hwritten idx
  obtain ⟨m, hnext, hmoved, hframe⟩ := permuteCommand_result (.inl rfl) hops hwritten (shuffleMoves_rearranges _ _)
  exact ⟨m, hnext, fun c j k hc => hmoved c j k (mem_shuffleMoves_iff.2 hc), hframe⟩

/-- Settles O54: UNSHUFFLE's moves take chunk c to chunk idx[c]. -/
theorem unshuffleResult : Obligations.UnshuffleResult := by
  intro s hops hwritten idx
  obtain ⟨m, hnext, hmoved, hframe⟩ := permuteCommand_result (.inr rfl) hops hwritten (unshuffleMoves_rearranges _ _)
  exact ⟨m, hnext, fun c j k hc => hmoved j c k (mem_unshuffleMoves_iff.2 hc), hframe⟩

/-! ### One command after the other -/

/-- After a permutation command that ends with OK, the one with the reverse moves restores BUF (R206). -/
theorem permuteCommand_swap {i' : Instr} (hi : i = .shuffle ∨ i = .unshuffle) (hi' : i' = .shuffle ∨ i' = .unshuffle)
    (hsame : operandsOk P i s.regs → operandsOk P i' s.regs) (hmoves : Rearranges (s.regs.len.toNat / 8) moves)
    (h : permuteCommand P i moves s = .next t) (herr : t.err = 0x00) :
    t.regs = s.regs ∧
      ∃ u, permuteCommand P i' (moves.map Prod.swap) t = .next u ∧ u.err = 0x00 ∧ ∀ a, u.mem.read? a = s.mem.read? a := by
  obtain ⟨hops, hwritten⟩ := permuteCommand_completed hi hmoves h herr
  obtain ⟨hlen, -⟩ := plane_of_operandsOk hi hops
  obtain ⟨m, hnext, hmoved, hframe⟩ := permuteCommand_result hi hops hwritten hmoves
  obtain rfl := Host.Outcome.next.inj (h.symm.trans hnext)
  have hwritten' : m.written s.regs.p1Base.toNat s.regs.len.toNat := written_of_chunks hlen fun d k hd hk => by
    obtain ⟨c, hdc⟩ := hmoves.exists_of_destination hd
    rw [hmoved d c k hdc hk]
    exact written_of_inSpan hwritten (chunk_inSpan _ (hmoves.lt _ hdc).2 hk)
  obtain ⟨m', hnext', hmoved', hframe'⟩ := permuteCommand_result (s := complete { s with mem := m } .ok) hi' (hsame hops)
    hwritten' hmoves.swap
  refine ⟨rfl, _, hnext', rfl, fun a => ?_⟩
  by_cases ha : inSpan s.regs.p1Base.toNat s.regs.len.toNat a
  · obtain ⟨c, k, hc, hk, rfl⟩ := exists_chunk_of_inSpan hlen ha
    obtain ⟨d, hd⟩ := hmoves.exists_of_source hc
    exact (hmoved' c d k (List.mem_map_of_mem hd) hk).trans (hmoved d c k hd hk)
  · exact (hframe' a ha).trans (hframe a ha)

/-- Settles O55: each command makes the reverse moves of the other. -/
theorem permutationReversibility : Obligations.PermutationReversibility := by
  refine fun P s t herr => ⟨fun h => ?_, fun h => ?_⟩
  · obtain ⟨hregs, hrestored⟩ := permuteCommand_swap (.inl rfl) (.inr rfl) operandsOk_shuffle_iff_unshuffle.1
      (shuffleMoves_rearranges _ _) h herr
    rwa [unshuffleCommand_eq_permuteCommand, hregs, ← shuffleMoves_map_swap]
  · obtain ⟨hregs, hrestored⟩ := permuteCommand_swap (.inr rfl) (.inl rfl) operandsOk_shuffle_iff_unshuffle.2
      (unshuffleMoves_rearranges _ _) h herr
    rwa [shuffleCommand_eq_permuteCommand, hregs, ← unshuffleMoves_map_swap]

end Sys2Proof.Machine
end

section
/-! The control functions: NOP, illegal words and soft reset (44_control.md R215-R217). -/

namespace Sys2Proof.Machine

variable {s : State} {c v : Word}

/-! ### NOP -/

/-- NOP has no operand to check (60_exceptions.md R233). -/
theorem firstError_nop (P : Config) (s : State) : firstError P .nop s = .ok none := by
  have hnone : ∀ e ∈ checkOrder, ¬ checkApplies e .nop = true := by decide
  exact firstError_none_iff.2 fun e he ha => absurd ha (hnone e he)

theorem nopCommand_eq (P : Config) (s : State) : nopCommand P s = .next (complete s .ok) :=
  runCommand_eq (firstError_nop P s) rfl

/-- Settles O56: no check applies to NOP and its pseudocode changes nothing; its word is ignored while BUSY = 1. -/
theorem nopResult : Obligations.NopResult := by
  refine fun s => ⟨nopCommand_eq Config.machine s, fun hphase => ?_⟩
  have hbusy : s.busy = true := by rwa [← Bool.not_eq_false, busy_eq_false_iff]
  exact writeReg_overrun hbusy (.inl rfl)

/-! ### Illegal words -/

theorem engineTurn_of_busy (hphase : s.phase = .busy c) : engineTurn s = runWord c s := by
  rw [engineTurn, hphase]

theorem runWord_of_illegal (hillegal : ∀ i, decode c ≠ .ok i) : runWord c s = .next (completeIllegal s) := by
  rw [runWord]
  cases hdecode : decode c with
  | ok i => exact absurd hdecode (hillegal i)
  | error e => rfl

/-- The engine's turn on an illegal word just accepted: completion overwrites all that acceptance changed. -/
theorem engineTurn_accept_of_illegal (hillegal : ∀ i, decode c ≠ .ok i) :
    engineTurn (accept s c) = .next (completeIllegal s) := by
  rw [engineTurn_of_busy (accept_phase s c), runWord_of_illegal hillegal]
  rfl

/-- Settles O7: an idle write to CMD accepts every word; the example's RSV is not 0. -/
theorem illegalWordCompletes : Obligations.IllegalWordCompletes := by
  have hexample : ∀ i, decode 0x00000104 ≠ .ok i := fun i h => by
    have herror : decode 0x00000104 = .error .reservedNonzero := by decide
    cases herror.symm.trans h
  refine ⟨fun s c hidle hillegal => ?_, hexample, completeIllegal State.reset, ?_, by decide⟩
  · exact ⟨_, writeReg_cmd_of_idle hidle, rfl, engineTurn_accept_of_illegal hillegal⟩
  · rw [writeReg_cmd_of_idle rfl, engineTurn_accept_of_illegal hexample]

/-! ### Soft reset -/

theorem writeReg_ctrl_softReset (hidle : s.phase = .idle) (hv : v.getLsbD 1 = true) :
    writeReg s .ctrl v = softReset s := by
  rw [writeReg, ctrlWrite, if_pos hv, (busy_eq_false_iff s).2 hidle]
  rfl

/-- What a register reads as does not depend on the bus response. -/
theorem readReg_respond (s : State) (r : Response) (n : RegName) : readReg (respond s r) n = readReg s n := by
  cases n <;> rfl

theorem readReg_softReset (s : State) (n : RegName) : readReg (softReset s) n = readReg State.reset n := by
  cases n <;> rfl

/-- Settles O15 (`softReset` itself names the model's operation): while idle the write is a soft reset, which is answered;
while BUSY = 1 it is ignored as R34 says. -/
theorem softReset_step : Obligations.SoftReset := by
  obtain ⟨hreset, -⟩ := resetRegisterValues
  refine fun s v rest hin hv => ⟨fun hidle => ?_, fun hphase => ?_⟩
  · refine ⟨respond (softReset { s with inputs := rest }) .ok, ?_, fun n => ?_, rfl, rfl, rfl, rfl⟩
    · rw [step_of_regWrite (n := .ctrl) hin, writeReg_ctrl_softReset (s := { s with inputs := rest }) hidle hv]
    · rw [readReg_respond, readReg_softReset, hreset]
  · obtain ⟨hignored, -⟩ := (writesWhileBusy s .ctrl v rest hphase).1 hin
    exact hignored (.inr (.inl ⟨rfl, hv⟩))

end Sys2Proof.Machine
end

section
/-! Acceptance of a command, what a completion leaves, and the first checks of R234 (60_exceptions.md R230-R236). -/

namespace Sys2Proof.Machine

variable {i : Instr} {s : State} {r : Regs}

/-! ### Acceptance and completion -/

/-- Settles O8: an idle write to CMD accepts the word and lowers DONE, and with it the interrupt; while BUSY = 1 it is one
of the writes that R34 ignores. -/
theorem commandAcceptance : Obligations.CommandAcceptance := by
  refine fun s c rest hin => ⟨fun hidle => ?_, fun hphase => ?_⟩
  · refine ⟨respond (accept { s with inputs := rest } c) .ok, ?_, rfl, rfl⟩
    rw [step_of_regWrite (n := .cmd) hin, writeReg_cmd_of_idle (s := { s with inputs := rest }) hidle]
  · obtain ⟨hignored, -⟩ := (writesWhileBusy s .cmd c rest hphase).1 hin
    exact hignored (.inl rfl)

/-- The interrupt line after a completion is IRQ_EN, for DONE is set (R41, R236). -/
theorem irq_complete (s : State) (e : ErrCode) : irq (complete s e) = s.irqEn := Bool.true_and _

/-- Settles O17: completion sets its own flags, and the effect before it touches registers, BUF and SPLIT's draws only. -/
theorem completionFrame : Obligations.CompletionFrame := by
  intro i s t h
  obtain ⟨s', e, rfl, heffect⟩ := exec_effect h
  have hirqEn : s'.irqEn = s.irqEn := by rw [heffect.frame]
  refine ⟨rfl, rfl, isErrCode_code e, (irq_complete s' e).trans hirqEn, hirqEn, ?_, ?_, ?_, ?_, heffect.draws⟩
  all_goals rw [heffect.frame]; rfl

/-- The codes with which R235 lets pseudocode end: every other code is found by a check. -/
def endsExecution (e : ErrCode) : Prop := e.code = 0x00 ∨ e.code = 0x01 ∨ e.code = 0x03

/-- Every command is its checks and then pseudocode that ends with one of these codes (R172, R175, R234). -/
theorem exec_eq_runCommand_endsExecution (i : Instr) (s : State) :
    ∃ body, exec i s = runCommand Config.machine i s body ∧ EndsWithCode endsExecution body := by
  cases i with
  | nop => exact ⟨.ok (s, .ok), rfl, .pure (.inl rfl)⟩
  | predict => exact ⟨_, rfl, .bind fun _ _ => .bind fun _ _ => .pure (.inl rfl)⟩
  | embed =>
    refine ⟨_, rfl, .bind fun _ _ => .pure ?_⟩
    split
    · exact .inr (.inl rfl)
    · exact .inl rfl
  | extract =>
    refine ⟨_, rfl, .bind fun _ _ => .bind fun _ _ => .pure ?_⟩
    split
    · exact .inr (.inr rfl)
    · exact .inl rfl
  | blkEmbed | blkExtract | split | combine | shuffle | unshuffle =>
    exact ⟨_, rfl, .bind fun _ _ => .pure (.inl rfl)⟩

/-- Settles O19: with any other code the command reported a failed check, on the state it began with. -/
theorem failedCheckHasNoEffect : Obligations.FailedCheckHasNoEffect := by
  intro i s t h hok hcapacity hmismatch
  obtain ⟨body, hexec, hends⟩ := exec_eq_runCommand_endsExecution i s
  obtain ⟨e, -, rfl⟩ | ⟨-, s', e, hrun, rfl⟩ := runCommand_next_iff.1 (hexec ▸ h)
  · rfl
  · obtain hcode | hcode | hcode := hends s' e hrun
    · exact absurd hcode hok
    · exact absurd hcode hcapacity
    · exact absurd hcode hmismatch

/-! ### GEOMETRY -/

/-- GEOMETRY of the block commands passes exactly if the block lies in a plane of whole blocks (R230). -/
theorem geometryFails_block (hi : i ∈ [Instr.predict, .blkEmbed, .blkExtract]) :
    geometryFails i r = false ↔ blockGeometry r := by
  rw [geometryFails, List.contains_iff_mem.2 hi]
  simp [blockGeometry, planeGeometry, and_assoc]

/-- GEOMETRY of the plane commands passes exactly if the plane has whole blocks (R230). -/
theorem geometryFails_plane (hi : i ∈ [Instr.embed, .extract]) : geometryFails i r = false ↔ planeGeometry r := by
  obtain rfl | rfl : i = .embed ∨ i = .extract := by simpa using hi
  all_goals simp [geometryFails, planeGeometry]

/-- GEOMETRY is reported whatever else is wrong (R234). -/
theorem exec_of_geometryFails (happlies : checkApplies .geometry i = true) (h : geometryFails i s.regs ≠ false) :
    exec i s = .next (complete s .geometry) :=
  exec_of_firstError (firstFailing_eq_some (pre := [.illegalCommand])
    (post := [.mapTooLarge, .length, .outCapacity, .range, .overlap, .mapField])
    happlies (congrArg _ (Bool.eq_true_of_not_eq_false h)) (by simp [checkApplies]))

theorem exec_of_not_blockGeometry (hi : i ∈ [Instr.predict, .blkEmbed, .blkExtract]) (h : ¬ blockGeometry s.regs) :
    exec i s = .next (complete s .geometry) :=
  exec_of_geometryFails (List.contains_iff_mem.2 (List.mem_append_left [Instr.embed, .extract] hi))
    (mt (geometryFails_block hi).1 h)

theorem exec_of_not_planeGeometry (hi : i ∈ [Instr.embed, .extract]) (h : ¬ planeGeometry s.regs) :
    exec i s = .next (complete s .geometry) :=
  exec_of_geometryFails (List.contains_iff_mem.2 (List.mem_append_right [Instr.predict, .blkEmbed, .blkExtract] hi))
    (mt (geometryFails_plane hi).1 h)

/-- Settles O21: a block in the plane supposes a plane of whole blocks, so the five commands are the three and the two. -/
theorem geometryErrors : Obligations.GeometryErrors := by
  refine fun s => ⟨fun hplane i hi => ?_, fun hblock i hi => exec_of_not_blockGeometry hi hblock⟩
  have hi : i ∈ [Instr.predict, .blkEmbed, .blkExtract] ++ [.embed, .extract] := hi
  obtain hi | hi := List.mem_append.1 hi
  · exact exec_of_not_blockGeometry hi fun ⟨h, _⟩ => hplane h
  · exact exec_of_not_planeGeometry hi hplane

/-! ### MAP_TOO_LARGE, LENGTH and OUT_CAPACITY -/

/-- MAP_TOO_LARGE comes after GEOMETRY (R234). -/
theorem exec_extract_mapTooLarge (hplane : planeGeometry s.regs) (h : blockCount s.regs < s.regs.mapLen.toNat) :
    exec .extract s = .next (complete s .mapTooLarge) := by
  have hgeometry : geometryFails .extract s.regs = false := (geometryFails_plane (by simp)).2 hplane
  exact exec_of_firstError (firstFailing_eq_some (pre := [.illegalCommand, .geometry])
    (post := [.length, .outCapacity, .range, .overlap, .mapField]) rfl (by simpa [checkFails] using h)
    (by simp [checkApplies, checkFails, hgeometry]))

/-- OUT_CAPACITY of either command comes after GEOMETRY and MAP_TOO_LARGE (R234). -/
theorem exec_of_outCapacityFails (hi : i = .blkExtract ∨ i = .extract) (hgeometry : geometryFails i s.regs = false)
    (hmap : i = .extract → s.regs.mapLen.toNat ≤ blockCount s.regs) (h : outCapacityFails i s.regs = true) :
    exec i s = .next (complete s .outCapacity) := by
  have happlies : checkApplies .outCapacity i = true := by obtain rfl | rfl := hi <;> rfl
  have hlength : checkApplies .length i ≠ true := by obtain rfl | rfl := hi <;> decide
  refine exec_of_firstError (firstFailing_eq_some (pre := [.illegalCommand, .geometry, .mapTooLarge, .length])
    (post := [.range, .overlap, .mapField]) happlies (congrArg _ h) fun e he ha => ?_)
  simp only [List.mem_cons, List.not_mem_nil, or_false] at he
  obtain rfl | rfl | rfl | rfl := he
  · cases ha
  · exact congrArg _ hgeometry
  · simpa [checkFails] using hmap (by simpa [checkApplies, eq_comm] using ha)
  · exact absurd ha hlength

/-- LENGTH is the first check of the permutation commands (R233, R234). -/
theorem exec_permute_length (hi : i = .shuffle ∨ i = .unshuffle) (h : s.regs.len.toNat % 8 ≠ 0) :
    exec i s = .next (complete s .length) := by
  have happlies : checkApplies .length i = true := by obtain rfl | rfl := hi <;> rfl
  have hfirst : ∀ e ∈ [ErrCode.illegalCommand, .geometry, .mapTooLarge], checkApplies e i ≠ true := by
    obtain rfl | rfl := hi <;> decide
  exact exec_of_firstError (firstFailing_eq_some (pre := [.illegalCommand, .geometry, .mapTooLarge])
    (post := [.outCapacity, .range, .overlap, .mapField]) happlies (by simpa [checkFails] using h)
    fun e he ha => absurd ha (hfirst e he))

/-- Settles O22, code by code. -/
theorem lengthAndCapacityErrors : Obligations.LengthAndCapacityErrors := by
  refine fun s => ⟨exec_extract_mapTooLarge, fun hplane hmap hcap => ?_, fun hblock hcap => ?_, fun hlen => ?_⟩
  · exact exec_of_outCapacityFails (.inr rfl) ((geometryFails_plane (by simp)).2 hplane) (fun _ => hmap)
      (decide_eq_true hcap)
  · exact exec_of_outCapacityFails (.inl rfl) ((geometryFails_block (by simp)).2 hblock) nofun (decide_eq_true hcap)
  · exact ⟨exec_permute_length (.inl rfl) hlen, exec_permute_length (.inr rfl) hlen⟩

end Sys2Proof.Machine
end

section
/-! The engine's turn on an accepted word, and hard reset (70_reset_and_hazards.md R270, R285; 60_exceptions.md R232). -/

namespace Sys2Proof.Machine

variable {i : Instr} {s : State} {c w : Word} {rest : List Input}

/-! ### The step at each input that moves the engine, and at `rst` -/

theorem step_of_no_input (hin : s.inputs = []) : step s = engineTurn s := by
  rw [step, takeTurn, hin]

theorem step_of_engine (hin : s.inputs = .engine :: rest) : step s = engineTurn { s with inputs := rest } := by
  rw [step, takeTurn, hin]

theorem step_of_hardReset (hin : s.inputs = .hardReset :: rest) :
    step s = .next (hardReset { s with inputs := rest }) := by
  rw [step, takeTurn, hin]

/-! ### The engine's turn -/

theorem runWord_of_legal (hdecode : decode c = .ok i) : runWord c s = exec i s := by
  rw [runWord, hdecode]

theorem engineTurn_of_legal (hphase : s.phase = .busy c) (hdecode : decode c = .ok i) : engineTurn s = exec i s := by
  rw [engineTurn_of_busy hphase, runWord_of_legal hdecode]

/-- A 32-bit word loses nothing when it is submitted. -/
theorem withFetchWord_word (s : State) (w : Word) : s.withFetchWord 32 w.toNat = submitted s w := by
  rw [State.withFetchWord, Nat.mod_eq_of_lt w.isLt, BitVec.ofNat_toNat, BitVec.setWidth_eq]

/-- The step after a submission is the engine's turn on the accepted word, whatever the inputs to come. -/
theorem step_submitted (s : State) (c : Word) : step (submitted s c) = engineTurn (accept s c) :=
  step_of_engine (s := submitted s c) rfl

/-- Settles O6: at each of the three inputs the step is the engine's turn, which runs the decoded command. -/
theorem stepRunsDecodedCommand : Obligations.StepRunsDecodedCommand := by
  refine ⟨fun s c i hphase hdecode => ⟨fun hin => ?_, fun rest hin => ?_, fun rest hin => ?_⟩, fun s w i hdecode => ?_⟩
  · rw [step_of_no_input hin, engineTurn_of_legal hphase hdecode]
  · rw [step_of_engine hin]
    exact engineTurn_of_legal hphase hdecode
  · obtain rfl : encode i = c := (decodeEncodeAgree c i).1 hdecode
    exact step_of_poll_busy hin hphase
  · rw [withFetchWord_word, step_submitted, engineTurn_of_legal (accept_phase s w) hdecode]
    rfl

/-! ### Hard reset -/

theorem readReg_hardReset (s : State) (n : RegName) : readReg (hardReset s) n = readReg State.reset n := by
  cases n <;> rfl

/-- Settles O16 (`hardReset` itself names the model's operation): the registers read as after reset, and no byte of BUF
is listed. -/
theorem hardReset_step : Obligations.HardReset := by
  obtain ⟨hreset, -⟩ := resetRegisterValues
  refine fun s rest hin => ⟨_, step_of_hardReset hin, fun n => ?_, rfl, rfl, read?_nil, rfl⟩
  rw [readReg_hardReset, hreset]

end Sys2Proof.Machine
end
